-- ==== Sys2Proof/Word.lean ====
section
/-! DEFINITION. The words the spec treats as bits: a 32-bit host word (a command word, a control register, a window
word), a byte of `BUF`, and the number of a big-integer register. A big-integer register itself holds a mathematical
integer in `[0, 2^W)` (00_scope.md R8) and is a `Nat`. -/

namespace Sys2Proof

/-- A 32-bit word of the host bus; a command word (00_scope.md R6). -/
abbrev Word := BitVec 32

/-- One byte of the message buffer (10_state.md R44). -/
abbrev Byte := BitVec 8

/-- The number of a big-integer register, `0 ≤ i ≤ 15` (10_state.md R21). -/
abbrev RegId := Fin 16

end Sys2Proof
end

