-- ==== Sys2Proof/Config.lean ====
section
/-! DEFINITION. What an instance of the block fixes: the open parameter `W` (00_scope.md R6), what derives from it, and
the constants of the block. The spec leaves no value undefined (93_implementation_defined.md section 2), so there is no opaque
constant here: the answers of the RNG port are an input, held in State. -/

namespace Sys2Proof

/-- The parameter of the block, `WWORDS = W/32` (00_scope.md R6). `W` is a multiple of 32, so the number of words fixes it. -/
structure Config where
  wwords : Nat
  deriving DecidableEq, Repr

namespace Config

/-- `W`, the width in bits of a big-integer register. -/
def w (c : Config) : Nat := 32 * c.wwords

/-- `BUFBYTES = W/8`, the bytes of the message buffer. -/
def bufBytes (c : Config) : Nat := 4 * c.wwords

/-- `2^W`, the bound of every big-integer register. -/
def bound (c : Config) : Nat := 2 ^ c.w

/-- `64 ≤ W ≤ 8192` (00_scope.md R6; 92_eei_decisions.md D2). -/
abbrev Admissible (c : Config) : Prop := 2 ≤ c.wwords ∧ c.wwords ≤ 256

/-- The reference value `W = 4096` (00_scope.md R6). DESIGN CHOICE (log 1): the instance that `State.reset` describes. -/
def reference : Config := ⟨128⟩

/-- The `ID` register: `KRY`, KCMD version 1.0 (10_state.md R31). -/
def idWord : Word := 0x4B525910

/-- `NREG`, the number of big-integer registers (00_scope.md R6). -/
def nreg : Nat := 16

/-- The `CFG` register: `WWORDS` in 15:0, `NREG` in 23:16 (10_state.md R32). -/
def cfgWord (c : Config) : Word := BitVec.ofNat 32 (nreg * 2 ^ 16 + c.wwords)

/-- `LIMB`, the Montgomery limb width in bits (00_scope.md R6). -/
def limb : Nat := 32

/-- The value of `ROUNDS` after reset (10_state.md R34). -/
def roundsAtReset : BitVec 16 := 40

end Config
end Sys2Proof
end

