-- ==== Sys2Proof/Machine/State.lean ====
section
/-! DEFINITION. The whole state of the block as plain data (10_state.md R20), the reasons a step of the model can stop, and the
state after reset (10_state.md R52). -/

namespace Sys2Proof.Machine

/-- The message buffer: its bytes by index, the indices strictly rising, no byte listed that equals what an unlisted one reads as,
which is 0 (10_state.md R44, R52). -/
abbrev Memory := List Host.Cell

/-- `STATUS.STATE`, the four states of the sequencer (10_state.md R36). -/
inductive SeqState where
  | idle
  | busy
  | error
  | fatal
  deriving DecidableEq, Repr

/-- `STATUS.VERDICT` and the hidden `h.v`: composite 0, probably prime 1, prime 2; 3 never occurs (10_state.md R36, R50). -/
inductive Verdict where
  | composite
  | probablyPrime
  | prime
  deriving DecidableEq, Repr

/-- `STATUS.CMP`: equal 0, less 1, greater 2; 3 never occurs (10_state.md R36). -/
inductive CmpFlag where
  | equal
  | less
  | greater
  deriving DecidableEq, Repr

/-- `STATUS.KEYSRC`: none 0, generated 1, modified 2; 3 never occurs (10_state.md R26, R36). -/
inductive KeySrc where
  | none
  | generated
  | modified
  deriving DecidableEq, Repr

/-- `PHASE`: the labels of 10_state.md R40. -/
inductive Phase where
  | none
  | exec
  | ptTrial
  | pgCand
  | pgTrial
  | pgDecide
  | gpCand
  | gpTrial
  | gpCheck
  | gqCand
  | gqTrial
  | gqCheck
  | gkDerive
  deriving DecidableEq, Repr

/-- The faults of the block, which `raise` records in `ERR` (60_exceptions.md R281). They are NEXT states of the model. -/
inductive Cause where
  | illegalCmd
  | param
  | overflow
  | negative
  | divZero
  | notInvertible
  | evenModulus
  | noMctx
  | operandRange
  | msgTooLarge
  | entropy
  | invariant
  deriving DecidableEq, Repr

/-- What `ERR` holds while a fault is recorded: `CODE` and `INFO` (10_state.md R37). -/
structure FaultRecord where
  cause : Cause
  info  : BitVec 8
  deriving DecidableEq, Repr

/-- The Montgomery context (10_state.md R43); `valid` is `STATUS.MVALID`. -/
structure MontCtx where
  mn     : Nat
  mrr    : Nat
  mlen   : BitVec 16
  mn0inv : Word
  valid  : Bool
  deriving DecidableEq, Repr

/-- The cleared context (10_state.md R43). -/
def MontCtx.empty : MontCtx := ⟨0, 0, 0, 0, false⟩

/-- The hidden temporaries `h.cand, h.s, h.t, h.i, h.v, h.p, h.q` (10_state.md R50). -/
structure Temps where
  cand : Nat
  s    : Nat
  t    : Nat
  i    : Nat
  v    : Verdict
  p    : Nat
  q    : Nat
  deriving DecidableEq, Repr

/-- All temporaries zero (10_state.md R50). -/
def Temps.zero : Temps := ⟨0, 0, 0, 0, .composite, 0, 0⟩

/-- One answer of the RNG port to `RngDraw(k)` (00_scope.md R12). -/
inductive RngAnswer where
  | value (u : Nat)
  | fail
  deriving DecidableEq, Repr

/-- What a host access does (20_memory.md R72). -/
inductive HostOp where
  | read
  | write (v : Word)
  deriving DecidableEq, Repr

/-- One access on the host bus: the byte address, how many bytes wide, read or write. Only `bytes = 4` at an aligned address inside
the block is performed (20_memory.md R75). -/
structure HostAccess where
  addr  : Nat
  bytes : Nat
  op    : HostOp
  deriving DecidableEq, Repr

/-- Whose step comes next (00_scope.md R7; 40_system_move.md R124). -/
inductive Turn where
  | host (a : HostAccess)
  | sequencer
  | reset
  deriving DecidableEq, Repr

/-- The last answer on the host bus: none yet, read data, a write taken from the bus, or the bus error (`err = 1`) with the read data that
stands beside it (20_memory.md R75, R85; log 12). -/
inductive BusReply where
  | none
  | data (v : Word)
  | done
  | error (rdata : Word)
  deriving DecidableEq, Repr

/-- Why a step of the MODEL stops. No rule of the spec stops the block: its own faults are next states. -/
inductive Fault where
  /-- Raised by the sequencer's step, and by a multi-step command, when the state is `BUSY` and `PHASE` is no label of the command in
  `IR`. The spec gives such a state no step because no rule reaches it (10_state.md R40; log 7). Safe: the model stops. -/
  | strayPhase
  deriving DecidableEq, Repr

/-- Why an instruction has no meaning in the model. -/
inductive Refusal where
  /-- Raised only in an arm of `exec`, for an instruction that is not modelled. Safe: the model stops. No arm raises it. -/
  | notModelled (mnemonic : String)
  deriving DecidableEq, Repr

/-- The state of the block (10_state.md R20), and after it the model's own fields (log 1, 2, 3, 12): the parameter, the turns to come,
the answers the RNG port will give, the last answer on the host bus. -/
structure State where
  x        : Vector Nat 16
  buf      : Memory
  len      : BitVec 16
  rangeChk : Bool
  rounds   : BitVec 16
  ir       : Word
  st       : SeqState
  verdict  : Verdict
  cmp      : CmpFlag
  lz       : Bool
  keysrc   : KeySrc
  hosterr  : Bool
  err      : Option FaultRecord
  ier      : BitVec 3
  isr      : BitVec 3
  phase    : Phase
  ctx      : MontCtx
  h        : Temps
  cfg      : Config
  turns    : List Turn
  rng      : List RngAnswer
  reply    : BusReply
  deriving DecidableEq, Repr

/-- The state after reset of an instance of the block (10_state.md R52), with no input pending. -/
def State.resetFor (c : Config) : State where
  x        := Vector.replicate 16 0
  buf      := []
  len      := 0
  rangeChk := true
  rounds   := Config.roundsAtReset
  ir       := 0
  st       := .idle
  verdict  := .composite
  cmp      := .equal
  lz       := false
  keysrc   := .none
  hosterr  := false
  err      := none
  ier      := 0
  isr      := 0
  phase    := .none
  ctx      := MontCtx.empty
  h        := Temps.zero
  cfg      := c
  turns    := []
  rng      := []
  reply    := .none

/-- The state after reset of the reference instance, `W = 4096` (log 1). -/
def State.reset : State := State.resetFor Config.reference

end Sys2Proof.Machine
end

