-- ==== Sys2Proof/Machine/Flags.lean ====
section
/-! DEFINITION. The codes of the fields, the status flags and the words a host reads that are composed of fields: `STATUS`,
`ERR`, `PHASE` and the rest of the control registers (10_state.md R31 to R42), and the flag computations (R26, R51). -/

namespace Sys2Proof.Machine

/-- `STATUS.STATE` (10_state.md R36). -/
def SeqState.code : SeqState → BitVec 2
  | .idle => 0
  | .busy => 1
  | .error => 2
  | .fatal => 3

/-- `STATUS.VERDICT` (10_state.md R36). -/
def Verdict.code : Verdict → BitVec 2
  | .composite => 0
  | .probablyPrime => 1
  | .prime => 2

/-- `STATUS.CMP` (10_state.md R36). -/
def CmpFlag.code : CmpFlag → BitVec 2
  | .equal => 0
  | .less => 1
  | .greater => 2

/-- `STATUS.KEYSRC` (10_state.md R36). -/
def KeySrc.code : KeySrc → BitVec 2
  | .none => 0
  | .generated => 1
  | .modified => 2

/-- `PHASE[7:0]` (10_state.md R40). -/
def Phase.code : Phase → BitVec 8
  | .none => 0x00
  | .exec => 0x01
  | .ptTrial => 0x12
  | .pgCand => 0x20
  | .pgTrial => 0x22
  | .pgDecide => 0x23
  | .gpCand => 0x30
  | .gpTrial => 0x32
  | .gpCheck => 0x33
  | .gqCand => 0x40
  | .gqTrial => 0x42
  | .gqCheck => 0x43
  | .gkDerive => 0x50

/-- `ERR.CODE` (60_exceptions.md R281). -/
def Cause.code : Cause → BitVec 8
  | .illegalCmd => 0x01
  | .param => 0x02
  | .overflow => 0x03
  | .negative => 0x04
  | .divZero => 0x05
  | .notInvertible => 0x06
  | .evenModulus => 0x07
  | .noMctx => 0x08
  | .operandRange => 0x09
  | .msgTooLarge => 0x0A
  | .entropy => 0x81
  | .invariant => 0x82

/-- Codes `≥ 0x80` are fatal (60_exceptions.md R281). -/
def Cause.isFatal (c : Cause) : Bool := decide (0x80 ≤ c.code.toNat)

/-- The flag `CMP` compares two registers as unsigned integers (40_system_move.md R128). -/
def cmpFlag (a b : Nat) : CmpFlag := if a = b then .equal else if a < b then .less else .greater

/-- Is `x[i]` in the key bank `x0..x7` (10_state.md R25)? -/
def inKeyBank (i : RegId) : Bool := decide (i.val ≤ 7)

/-- `STATUS.KEYSRC` after a write of `x[i]` by the host or by a command other than `GENKEY` (10_state.md R26). -/
def keysrcAfterWrite (i : RegId) (k : KeySrc) : KeySrc := if inKeyBank i then .modified else k

/-- The bits of `IER` and `ISR` (10_state.md R39; 60_exceptions.md R284). -/
def isrDone : BitVec 3 := 1
def isrErr : BitVec 3 := 2
def isrFatal : BitVec 3 := 4

/-- The output `irq = ((ISR & IER) != 0)` (10_state.md R39). -/
def State.irq (s : State) : Bool := (s.isr &&& s.ier) != 0

/-- The word read at `STATUS` (10_state.md R36). -/
def State.statusWord (s : State) : Word :=
  0#21 ++ BitVec.ofBool s.hosterr ++ s.keysrc.code ++ BitVec.ofBool s.ctx.valid ++ BitVec.ofBool s.lz
    ++ s.cmp.code ++ s.verdict.code ++ s.st.code

/-- The word read at `ERR`: `CODE` in 7:0, `INFO` in 15:8, 0 when no fault is recorded (10_state.md R37). -/
def State.errWord (s : State) : Word :=
  match s.err with
  | none => 0
  | some r => 0#16 ++ r.info ++ r.cause.code

/-- The word read at `CTRL` (10_state.md R33). -/
def State.ctrlWord (s : State) : Word := 0#31 ++ BitVec.ofBool s.rangeChk

/-- The word read at `PHASE` (10_state.md R40). -/
def State.phaseWord (s : State) : Word := 0#24 ++ s.phase.code

end Sys2Proof.Machine
end

