-- ==== Sys2Proof/Machine/Integer.lean ====
section
/-! DEFINITION. The functions on exact integers that the rules use (00_scope.md R11; 43_modexp.md R180). Their results are
the spec's; the loops that compute `inv` and `modExp` are the model's and not observable (log 9). -/

namespace Sys2Proof.Machine

/-- `bitlen(v)`: 0 for 0, else the `L` with `2^(L-1) ≤ v < 2^L` (R11). -/
def bitlen (v : Nat) : Nat := if v = 0 then 0 else Nat.log2 v + 1

/-- `ceil(a / b)`, `b > 0` (R11). -/
def ceilDiv (a b : Nat) : Nat := (a + b - 1) / b

/-- `a mod b` for any integer `a` and `b > 0`, in `[0, b)` (R11). -/
def floorMod (a : Int) (b : Nat) : Nat := (a % (b : Int)).toNat

/-- Euclid's remainders `r0, r1` of `m` and `a`, with `t0, t1` such that `t0*a ≡ r0` and `t1*a ≡ r1` modulo `m`. -/
def invLoop : Nat → Nat → Int → Nat → Int → Int
  | 0, _, t0, _, _ => t0
  | fuel + 1, r0, t0, r1, t1 =>
    if r1 = 0 then t0 else invLoop fuel r1 t1 (r0 % r1) (t0 - ((r0 / r1 : Nat) : Int) * t1)

/-- `inv(a, m)`, for `m ≥ 1` and `gcd(a, m) = 1`: the `v` in `[0, m)` with `a*v mod m = 1 mod m` (R11). -/
def inv (a m : Nat) : Nat := floorMod (invLoop (m + 1) m 0 (a % m) 1) m

/-- `acc * b^e mod N` over the bits of `e`, least significant first. -/
def powLoop (N : Nat) : Nat → Nat → Nat → Nat → Nat
  | 0, _, _, acc => acc
  | n + 1, b, e, acc => powLoop N n (b * b % N) (e / 2) (if e % 2 = 1 then acc * b % N else acc)

/-- `ModExp(b, e, N) = b^e mod N`, with `b^0 = 1` for every `b` (43_modexp.md R180). -/
def modExp (b e N : Nat) : Nat := powLoop N (bitlen e) (b % N) e (1 % N)

/-- `v[hi:lo]` with `hi - lo + 1 = n`: the `n` bits of `v` from bit `lo` up (00_scope.md R9). -/
def bitsFrom (v lo n : Nat) : Nat := v / 2 ^ lo % 2 ^ n

/-- Word `j` of a big integer, bits `[32*j+31 : 32*j]` (20_memory.md R73). -/
def wordOf (v j : Nat) : BitVec 32 := BitVec.ofNat 32 (bitsFrom v (32 * j) 32)

/-- `v` with exactly the bits `[32*j+31 : 32*j]` replaced by `w` (20_memory.md R73). -/
def replaceWord (v j : Nat) (w : BitVec 32) : Nat :=
  v / 2 ^ (32 * (j + 1)) * 2 ^ (32 * (j + 1)) + w.toNat * 2 ^ (32 * j) + v % 2 ^ (32 * j)

end Sys2Proof.Machine
end

