-- ==== Sys2Proof/Syntax.lean ====
section
/-! DEFINITION. The command set KCMD 1.0 whole: one constructor per row of the opcode table (30_encoding.md R104), the register
aliases (10_state.md R22) and the pseudo-instructions (30_encoding.md R112). -/

namespace Sys2Proof

/-- The 25 commands. Register operands are the 4-bit fields `rd, rs1, rs2, rs3` (R101); `imm16` is an unsigned 16-bit integer
used as it stands (R107): the value of `LDI`, the bit length `k` of `CAND` and `PRIMEGEN`, the length `bits` of `GENKEY`. -/
inductive Instr where
  | nop
  | mov (rd rs1 : RegId)
  | ldi (rd : RegId) (imm16 : Nat)
  | cmp (rs1 rs2 : RegId)
  | add (rd rs1 rs2 : RegId)
  | sub (rd rs1 rs2 : RegId)
  | mul (rd rs1 rs2 : RegId)
  | mod (rd rs1 rs2 : RegId)
  | gcd (rd rs1 rs2 : RegId)
  | modinv (rd rs1 rs2 : RegId)
  | bitlen (rd rs1 : RegId)
  | msetup (rs1 : RegId)
  | mmul (rd rs1 rs2 : RegId)
  | mto (rd rs1 : RegId)
  | mfrom (rd rs1 : RegId)
  | modexp (rd rs1 rs2 rs3 : RegId)
  | cand (rd : RegId) (imm16 : Nat)
  | ptest (rs1 : RegId)
  | primegen (rd : RegId) (imm16 : Nat)
  | genkey (imm16 : Nat)
  | encode (rd : RegId)
  | decode (rs1 : RegId)
  | crt (rd rs1 rs2 : RegId)
  | encrypt (rd rs1 : RegId)
  | decrypt (rd rs1 : RegId)
  deriving DecidableEq, Repr

namespace RegId

/-! The aliases of the sixteen registers (10_state.md R22; 30_encoding.md R111). -/

abbrev n : RegId := 0
abbrev e : RegId := 1
abbrev d : RegId := 2
abbrev p : RegId := 3
abbrev q : RegId := 4
abbrev dp : RegId := 5
abbrev dq : RegId := 6
abbrev qinv : RegId := 7
abbrev m : RegId := 8
abbrev c : RegId := 9
abbrev t0 : RegId := 10
abbrev t1 : RegId := 11
abbrev t2 : RegId := 12
abbrev t3 : RegId := 13
abbrev t4 : RegId := 14
abbrev t5 : RegId := 15

end RegId

namespace Instr

/-! The pseudo-instructions, each exactly one command (30_encoding.md R112). -/

/-- `CLR rd` is `LDI rd, 0`. -/
abbrev clr (rd : RegId) : Instr := .ldi rd 0
/-- `ENC` is `ENCRYPT c, m`. -/
abbrev enc : Instr := .encrypt RegId.c RegId.m
/-- `DEC` is `DECRYPT m, c`. -/
abbrev dec : Instr := .decrypt RegId.m RegId.c

end Instr
end Sys2Proof
end

