-- ==== Sys2Proof/Machine/Operands.lean ====
section
/-! DEFINITION. The operands of a command: the big-integer registers it names in its word or reads implicitly (30_encoding.md R107,
R108), and the one way a register is written (00_scope.md R10, 10_state.md R26). There are no addressing modes. -/

namespace Sys2Proof.Machine

/-- `x[i]` (00_scope.md R10). -/
def State.reg (s : State) (i : RegId) : Nat := s.x[i.val]

/-- `x[i] <- v`, with `KEYSRC <- 2` when `i ≤ 7` (00_scope.md R10). No register is hard-wired (10_state.md R21). -/
def State.setReg (s : State) (i : RegId) (v : Nat) : State :=
  { s with x := s.x.set i.val v, keysrc := keysrcAfterWrite i s.keysrc }

/-- The bound `2^W` of a register (00_scope.md R8). -/
def State.bound (s : State) : Nat := s.cfg.bound

/-- A register number as an `INFO` value (60_exceptions.md R281). -/
def regInfo (i : RegId) : BitVec 8 := BitVec.ofNat 8 i.val

/-- `LEN[15:0]` as a length (10_state.md R41). -/
def State.lenBytes (s : State) : Nat := s.len.toNat

/-- `ROUNDS[15:0]` as a count (10_state.md R34). -/
def State.roundCount (s : State) : Nat := s.rounds.toNat

/-! The implicit operands of the key bank (30_encoding.md R108). -/

def State.n (s : State) : Nat := s.reg RegId.n
def State.e (s : State) : Nat := s.reg RegId.e
def State.d (s : State) : Nat := s.reg RegId.d
def State.p (s : State) : Nat := s.reg RegId.p
def State.q (s : State) : Nat := s.reg RegId.q
def State.dp (s : State) : Nat := s.reg RegId.dp
def State.dq (s : State) : Nat := s.reg RegId.dq
def State.qinv (s : State) : Nat := s.reg RegId.qinv

end Sys2Proof.Machine
end

