-- ==== Sys2Proof/Machine/Ops.lean ====
section
/-! DEFINITION. The named operations over the buffer, the context and the sequencer that every command is written with: byte access
to `BUF`, the command end `complete` (40_system_move.md R123), the fault entry `raise` (60_exceptions.md R290) and the return from
`ERROR` (10_state.md R38), the issue (40_system_move.md R120), the draw (00_scope.md R12) and the reset event
(70_reset_and_hazards.md R320). -/

namespace Sys2Proof.Machine

/-- The result of a step. -/
abbrev Result := Host.Outcome State Fault Refusal

/-! ### The message buffer (10_state.md R44) -/

/-- What a byte that is not listed reads as: the reset contents of `BUF` (10_state.md R52). -/
def Memory.unlisted : Byte := 0

/-- `MemRead(i, 1)` (00_scope.md R10). -/
def Memory.read : Memory → Nat → Byte
  | [], _ => Memory.unlisted
  | (a, b) :: m, i => if a = i then b else Memory.read m i

/-- `MemWrite(i, 1, v)` (00_scope.md R10), keeping the indices rising and no unlisted value listed. -/
def Memory.write : Memory → Nat → Byte → Memory
  | [], i, v => if v = Memory.unlisted then [] else [(i, v)]
  | (a, b) :: m, i, v =>
    if a < i then (a, b) :: Memory.write m i v
    else if a = i then (if v = Memory.unlisted then m else (i, v) :: m)
    else (if v = Memory.unlisted then (a, b) :: m else (i, v) :: (a, b) :: m)

/-- `MemWrite(i, 1, f i)` for `i = 0 .. n-1`. -/
def Memory.fill (m : Memory) (f : Nat → Byte) : Nat → Memory
  | 0 => m
  | n + 1 => (Memory.fill m f n).write n (f n)

/-- The canonical form: indices strictly rising, no entry equal to what an unlisted byte reads as. -/
def Memory.wf : Memory → Bool
  | [] => true
  | (a, b) :: m => decide (b ≠ Memory.unlisted) && m.all (fun c => decide (a < c.1)) && Memory.wf m

/-- Word `j` of the buffer window, least significant lane first (20_memory.md R74). -/
def Memory.readWord (m : Memory) (j : Nat) : Word :=
  m.read (4 * j + 3) ++ m.read (4 * j + 2) ++ m.read (4 * j + 1) ++ m.read (4 * j)

/-- `BUF[4j+k] <- v[8k+7:8k]` for `k = 0..3` (20_memory.md R74). -/
def Memory.writeWord (m : Memory) (j : Nat) (v : Word) : Memory :=
  (((m.write (4 * j) (v.extractLsb' 0 8)).write (4 * j + 1) (v.extractLsb' 8 8)).write
    (4 * j + 2) (v.extractLsb' 16 8)).write (4 * j + 3) (v.extractLsb' 24 8)

/-! ### The ends of a command -/

/-- `complete` (40_system_move.md R123). -/
def State.complete (s : State) : State :=
  { s with h := Temps.zero, phase := .none, st := .idle, isr := s.isr ||| isrDone }

/-- Clear the Montgomery context (10_state.md R43). -/
def State.clearCtx (s : State) : State := { s with ctx := MontCtx.empty }

/-- `raise F(info)`: the fault entry, one for all causes (60_exceptions.md R290). Nothing is saved and control goes nowhere: the
sequencer stops in `ERROR` or `FATAL`. -/
def State.raise (s : State) (c : Cause) (info : BitVec 8) : State :=
  { s with err := some ⟨c, info⟩, h := Temps.zero, phase := .none,
           ctx := if c.isFatal then MontCtx.empty else s.ctx,
           st := if c.isFatal then .fatal else .error,
           isr := s.isr ||| (if c.isFatal then isrFatal else isrErr) }

/-- The return from a fault: the write of `v` to `ERRCLR` in a state that accepts it; bit 0 leaves `ERROR`, bit 1 clears `HOSTERR` (10_state.md R38,
60_exceptions.md R292). Nothing is restored, because nothing was saved. -/
def State.errClr (s : State) (v : Word) : State :=
  { s with st := if v.getLsbD 0 = true ∧ s.st = .error then .idle else s.st,
           err := if v.getLsbD 0 = true ∧ s.st = .error then none else s.err,
           hosterr := if v.getLsbD 1 then false else s.hosterr }

/-- A command that ends by `raise`. -/
def State.trap (s : State) (c : Cause) (info : BitVec 8) : Result := .next (s.raise c info)

/-- A command that ends by writing one register and `complete`. -/
def State.deliver (s : State) (rd : RegId) (v : Nat) : Result := .next (s.setReg rd v).complete

/-- `phase <- L` (00_scope.md R10): the command goes on at label `L` in the next sequencer step. -/
def State.goto (s : State) (l : Phase) : Result := .next { s with phase := l }

/-! ### Issue, draw, reset -/

/-- Issue (40_system_move.md R120): `IR <- v`, `STATE <- BUSY`, `PHASE <- EXEC`; nothing is decoded. -/
def State.issue (s : State) (v : Word) : State := { s with ir := v, st := .busy, phase := .exec }

/-- `RngDraw(k)` inside a step (00_scope.md R12): the port's next answer. `Fail` raises `F_ENTROPY(0)`; while the port has not
answered the step has no successor, and the sequencer waits in an unchanged state (log 3). The bits of an answer above bit `k-1` are
discarded (20_memory.md R85; log 4), so `use` gets a `u < 2^k`. -/
def State.withDraw (s : State) (k : Nat) (use : Nat → State → Result) : Result :=
  match s.rng with
  | [] => .next s
  | .fail :: rest => State.trap { s with rng := rest } .entropy 0
  | .value u :: rest => use (u % 2 ^ k) { s with rng := rest }

/-- The event `Reset` (70_reset_and_hazards.md R320): every piece of the block's state takes its reset value. The inputs still to come
(turns and answers) are the environment's and stay (log 13). -/
def State.resetBlock (s : State) : State :=
  { State.resetFor s.cfg with turns := s.turns, rng := s.rng }

end Sys2Proof.Machine
end

