-- ==== Sys2Proof/Machine/HostPort.lean ====
section
/-! DEFINITION. The host's side: the address map (20_memory.md R71), what the host may read and write in each sequencer state
(10_state.md R45 to R49), the effect of each write (R31 to R42, 20_memory.md R73, R74) and one access on the bus (R72, R75). -/

namespace Sys2Proof.Machine

/-- The control and status registers (10_state.md R30). -/
inductive Csr where
  | id
  | cfg
  | ctrl
  | rounds
  | cmd
  | status
  | err
  | errclr
  | ier
  | isr
  | len
  | phase
  | mlen
  | mn0inv
  deriving DecidableEq, Repr

/-- What a host address names (20_memory.md R71). -/
inductive Target where
  | csr (r : Csr)
  | xWord (i : RegId) (j : Nat)
  | mnWord (j : Nat)
  | mrrWord (j : Nat)
  | bufWord (j : Nat)
  | reserved
  deriving DecidableEq, Repr

/-- The addresses of the control and status registers (10_state.md R30). -/
def csrMap : List (Nat × Csr) :=
  [ (0x0000, .id), (0x0004, .cfg), (0x0008, .ctrl), (0x000C, .rounds), (0x0010, .cmd), (0x0014, .status), (0x0018, .err),
    (0x001C, .errclr), (0x0020, .ier), (0x0024, .isr), (0x0028, .len), (0x002C, .phase), (0x0030, .mlen), (0x0034, .mn0inv) ]

/-- The word index of an address inside its window of `0x400` bytes (20_memory.md R71). -/
def windowWord (a : Nat) : Nat := a % 0x400 / 4

/-- A word of a window, or reserved at index `≥ WWORDS` (10_state.md R49). -/
def windowTarget (c : Config) (a : Nat) (word : Nat → Target) : Target :=
  if windowWord a < c.wwords then word (windowWord a) else .reserved

/-- The host address map (20_memory.md R71). -/
def hostTarget (c : Config) (a : Nat) : Target :=
  if a < 0x4000 then
    match csrMap.find? (fun e => e.1 == a) with
    | some e => .csr e.2
    | none => .reserved
  else if a < 0x8000 then windowTarget c a (.xWord (Fin.ofNat 16 ((a - 0x4000) / 0x400)))
  else if a < 0x8400 then windowTarget c a .mnWord
  else if a < 0x8800 then windowTarget c a .mrrWord
  else if a < 0xC000 then .reserved
  else if a < 0xC400 then windowTarget c a .bufWord
  else .reserved

/-- The word a control register reads as (10_state.md R31 to R42); `CMD` reads `IR`, `ERRCLR` reads 0. -/
def State.csrWord (s : State) : Csr → Word
  | .id => Config.idWord
  | .cfg => s.cfg.cfgWord
  | .ctrl => s.ctrlWord
  | .rounds => s.rounds.setWidth 32
  | .cmd => s.ir
  | .status => s.statusWord
  | .err => s.errWord
  | .errclr => 0
  | .ier => s.ier.setWidth 32
  | .isr => s.isr.setWidth 32
  | .len => s.len.setWidth 32
  | .phase => s.phaseWord
  | .mlen => s.ctx.mlen.setWidth 32
  | .mn0inv => s.ctx.mn0inv

/-- The value at a target (20_memory.md R73, R74; reserved addresses read 0, R49). -/
def State.targetWord (s : State) : Target → Word
  | .csr r => s.csrWord r
  | .xWord i j => wordOf (s.reg i) j
  | .mnWord j => wordOf s.ctx.mn j
  | .mrrWord j => wordOf s.ctx.mrr j
  | .bufWord j => s.buf.readWord j
  | .reserved => 0

/-- The registers whose reads return their values while `BUSY` (10_state.md R46). -/
def Csr.readableWhileBusy : Csr → Bool
  | .id | .cfg | .cmd | .status | .err | .ier | .isr | .phase => true
  | .ctrl | .rounds | .errclr | .len | .mlen | .mn0inv => false

/-- Does a read of the target return its value in this sequencer state (10_state.md R45 to R49)? -/
def Target.readable (t : Target) (st : SeqState) : Bool :=
  match st with
  | .idle | .error | .fatal => true
  | .busy =>
    match t with
    | .csr r => r.readableWhileBusy
    | .xWord _ _ | .mnWord _ | .mrrWord _ | .bufWord _ => false
    | .reserved => true

/-- `HostRead(a)`: the value, and the state, in which only `HOSTERR` may have changed (20_memory.md R72). -/
def State.hostRead (s : State) (a : Nat) : Word × State :=
  let t := hostTarget s.cfg a
  if t.readable s.st then (s.targetWord t, s) else (0, { s with hosterr := true })

/-- The writable registers and windows (10_state.md R30, R46; 20_memory.md R71). -/
def Target.writable : Target → Bool
  | .csr .ctrl | .csr .rounds | .csr .cmd | .csr .errclr | .csr .ier | .csr .isr | .csr .len => true
  | .csr .id | .csr .cfg | .csr .status | .csr .err | .csr .phase | .csr .mlen | .csr .mn0inv => false
  | .xWord _ _ | .bufWord _ => true
  | .mnWord _ | .mrrWord _ | .reserved => false

/-- Does this sequencer state accept a write to a writable target (10_state.md R45 to R48)? -/
def Target.accepted (t : Target) (st : SeqState) : Bool :=
  match st with
  | .idle => true
  | .error => decide (t ≠ .csr .cmd)
  | .busy | .fatal => decide (t = .csr .ier ∨ t = .csr .isr)

/-- An accepted write with the register's side effect (10_state.md R33 to R41; 20_memory.md R73, R74). Reserved bits are not stored. -/
def State.writeTarget (s : State) (v : Word) : Target → State
  | .csr .ctrl => { s with rangeChk := v.getLsbD 0 }
  | .csr .rounds => { s with rounds := v.setWidth 16 }
  | .csr .cmd => s.issue v
  | .csr .errclr => s.errClr v
  | .csr .ier => { s with ier := v.setWidth 3 }
  | .csr .isr => { s with isr := s.isr &&& ~~~(v.setWidth 3) }
  | .csr .len => { s with len := v.setWidth 16 }
  | .csr .id | .csr .cfg | .csr .status | .csr .err | .csr .phase | .csr .mlen | .csr .mn0inv => s
  | .xWord i j => s.setReg i (replaceWord (s.reg i) j v)
  | .bufWord j => { s with buf := s.buf.writeWord j v }
  | .mnWord _ | .mrrWord _ | .reserved => s

/-- `HostWrite(a, v)` (20_memory.md R72): ignored at a read-only or reserved target, performed where the state accepts it, else
dropped with `HOSTERR <- 1`. -/
def State.hostWrite (s : State) (a : Nat) (v : Word) : State :=
  let t := hostTarget s.cfg a
  if t.writable then
    if t.accepted s.st then s.writeTarget v t else { s with hosterr := true }
  else s

/-- A legal access: four bytes, aligned, inside the block (20_memory.md R72, R75). -/
def HostAccess.legal (a : HostAccess) : Bool := decide (a.bytes = 4 ∧ a.addr % 4 = 0 ∧ a.addr ≤ 0xFFFC)

/-- One access on the host bus and its answer. An access that is not legal is not performed: the error response with read data 0, no register
or flag changed (20_memory.md R72, R75). -/
def State.hostAccess (s : State) (a : HostAccess) : State :=
  if a.legal then
    match a.op with
    | .read => { (s.hostRead a.addr).2 with reply := .data (s.hostRead a.addr).1 }
    | .write v => { s.hostWrite a.addr v with reply := .done }
  else { s with reply := .error 0 }

end Sys2Proof.Machine
end

