-- ==== Sys2Proof/WellFormed.lean ====
section
/-! DEFINITION. Which terms of `Instr` are commands of the block. Register operands are bounded by their type; the one check
is that an immediate fits its 16-bit field (30_encoding.md R102, R107). -/

namespace Sys2Proof

/-- `imm16` lies in `[0, 2^16)`. -/
def immFits (imm16 : Nat) : Bool := decide (imm16 < 2 ^ 16)

/-- A command whose operands its word can hold. -/
def Instr.wellFormed : Instr → Bool
  | .nop => true
  | .mov _ _ => true
  | .ldi _ imm16 => immFits imm16
  | .cmp _ _ => true
  | .add _ _ _ => true
  | .sub _ _ _ => true
  | .mul _ _ _ => true
  | .mod _ _ _ => true
  | .gcd _ _ _ => true
  | .modinv _ _ _ => true
  | .bitlen _ _ => true
  | .msetup _ => true
  | .mmul _ _ _ => true
  | .mto _ _ => true
  | .mfrom _ _ => true
  | .modexp _ _ _ _ => true
  | .cand _ imm16 => immFits imm16
  | .ptest _ => true
  | .primegen _ imm16 => immFits imm16
  | .genkey imm16 => immFits imm16
  | .encode _ => true
  | .decode _ => true
  | .crt _ _ _ => true
  | .encrypt _ _ => true
  | .decrypt _ _ => true

end Sys2Proof
end

