-- ==== Sys2Proof/Decode.lean ====
section
/-! DEFINITION. The decoder, total on 32-bit words (30_encoding.md R105), and the encoder, written from the formats R101 to
R103. A command word reaches the block as one host write, so there is no byte order and no stream of bytes to decode: the word is
the unit (R100). -/

namespace Sys2Proof

/-- Why a word is no command: the `INFO` of `E_ILLEGAL_CMD` (30_encoding.md R105). -/
inductive Illegal where
  /-- `w[31:24]` is not one of the 25 opcodes, `INFO = 1`. -/
  | unknownOpcode
  /-- a used opcode with a non-zero bit where the command requires zero, `INFO = 2`. -/
  | reservedField
  deriving DecidableEq, Repr

/-- The `INFO` value of the two causes. -/
def Illegal.info : Illegal → BitVec 8
  | .unknownOpcode => 1
  | .reservedField => 2

/-- What decoding a word gives. -/
inductive Decoded where
  | command (i : Instr)
  | illegal (why : Illegal)
  deriving DecidableEq, Repr

/-! The fields of a word (R101, R102). -/

def opcodeField (w : Word) : BitVec 8 := w.extractLsb' 24 8

/-- A register number at bits `[lo+3 : lo]`. -/
def regField (w : Word) (lo : Nat) : RegId := ⟨(w.extractLsb' lo 4).toNat, (w.extractLsb' lo 4).isLt⟩

def rdField (w : Word) : RegId := regField w 20
def rs1Field (w : Word) : RegId := regField w 16
def rs2Field (w : Word) : RegId := regField w 12
def rs3Field (w : Word) : RegId := regField w 8
def immField (w : Word) : Nat := (w.extractLsb' 0 16).toNat

/-- One row of the table of R104: a word is the row's command exactly when `(w & mask) = match`; `build` reads its fields. -/
structure Row where
  opcode  : BitVec 8
  pattern : Word
  mask    : Word
  build   : Word → Instr

/-- `rd, rs1, rs2` of format `R`. -/
def build3 (f : RegId → RegId → RegId → Instr) (w : Word) : Instr := f (rdField w) (rs1Field w) (rs2Field w)
/-- `rd, rs1` of format `R`. -/
def build2 (f : RegId → RegId → Instr) (w : Word) : Instr := f (rdField w) (rs1Field w)
/-- `rd, imm16` of format `I`. -/
def buildI (f : RegId → Nat → Instr) (w : Word) : Instr := f (rdField w) (immField w)

/-- R104, the rows of move, compare and the exact integer commands. -/
def rowsInteger : List Row :=
  [ ⟨0x00, 0x00000000, 0xFFFFFFFF, fun _ => .nop⟩,
    ⟨0x01, 0x01000000, 0xFF00FFFF, build2 .mov⟩,
    ⟨0x02, 0x02000000, 0xFF0F0000, buildI .ldi⟩,
    ⟨0x03, 0x03000000, 0xFFF00FFF, fun w => .cmp (rs1Field w) (rs2Field w)⟩,
    ⟨0x10, 0x10000000, 0xFF000FFF, build3 .add⟩,
    ⟨0x11, 0x11000000, 0xFF000FFF, build3 .sub⟩,
    ⟨0x12, 0x12000000, 0xFF000FFF, build3 .mul⟩,
    ⟨0x13, 0x13000000, 0xFF000FFF, build3 .mod⟩,
    ⟨0x14, 0x14000000, 0xFF000FFF, build3 .gcd⟩,
    ⟨0x15, 0x15000000, 0xFF000FFF, build3 .modinv⟩,
    ⟨0x16, 0x16000000, 0xFF00FFFF, build2 .bitlen⟩ ]

/-- R104, the rows of the multiplier, the engine, the generators, the codec and the cipher. -/
def rowsEngine : List Row :=
  [ ⟨0x20, 0x20000000, 0xFFF0FFFF, fun w => .msetup (rs1Field w)⟩,
    ⟨0x21, 0x21000000, 0xFF000FFF, build3 .mmul⟩,
    ⟨0x22, 0x22000000, 0xFF00FFFF, build2 .mto⟩,
    ⟨0x23, 0x23000000, 0xFF00FFFF, build2 .mfrom⟩,
    ⟨0x30, 0x30000000, 0xFF0000FF, fun w => .modexp (rdField w) (rs1Field w) (rs2Field w) (rs3Field w)⟩,
    ⟨0x40, 0x40000000, 0xFF0F0000, buildI .cand⟩,
    ⟨0x41, 0x41000000, 0xFFF0FFFF, fun w => .ptest (rs1Field w)⟩,
    ⟨0x42, 0x42000000, 0xFF0F0000, buildI .primegen⟩,
    ⟨0x48, 0x48000000, 0xFFFF0000, fun w => .genkey (immField w)⟩,
    ⟨0x50, 0x50000000, 0xFF0FFFFF, fun w => .encode (rdField w)⟩,
    ⟨0x51, 0x51000000, 0xFFF0FFFF, fun w => .decode (rs1Field w)⟩,
    ⟨0x60, 0x60000000, 0xFF000FFF, build3 .crt⟩,
    ⟨0x61, 0x61000000, 0xFF00FFFF, build2 .encrypt⟩,
    ⟨0x62, 0x62000000, 0xFF00FFFF, build2 .decrypt⟩ ]

/-- The table of 30_encoding.md R104. -/
def opcodeTable : List Row := rowsInteger ++ rowsEngine

/-- `(w & mask) = match` of R104. -/
def Row.accepts (r : Row) (w : Word) : Bool := (w &&& r.mask) == r.pattern

/-- `decode(w)` of R105: the one matching row, or why there is none. -/
def decode (w : Word) : Decoded :=
  match opcodeTable.find? (fun r => r.accepts w) with
  | some r => .command (r.build w)
  | none =>
    if opcodeTable.any (fun r => r.opcode == opcodeField w) then .illegal .reservedField
    else .illegal .unknownOpcode

/-! The encoder. -/

/-- Format `R` (R101): opcode, four register fields, a zero byte. -/
def formatR (opcode : BitVec 8) (rd rs1 rs2 rs3 : RegId) : Word :=
  opcode ++ BitVec.ofNat 4 rd.val ++ BitVec.ofNat 4 rs1.val ++ BitVec.ofNat 4 rs2.val ++ BitVec.ofNat 4 rs3.val ++ 0#8

/-- Format `I` (R102): opcode, `rd`, a zero field, the immediate. -/
def formatI (opcode : BitVec 8) (rd : RegId) (imm16 : Nat) : Word :=
  opcode ++ BitVec.ofNat 4 rd.val ++ 0#4 ++ BitVec.ofNat 16 imm16

/-- Format `Z` (R103): opcode and zeros. -/
def formatZ (opcode : BitVec 8) : Word := opcode ++ 0#24

/-- The word of a command (R101 to R104); a field the command does not use is 0. -/
def encode : Instr → Word
  | .nop => formatZ 0x00
  | .mov rd rs1 => formatR 0x01 rd rs1 0 0
  | .ldi rd imm16 => formatI 0x02 rd imm16
  | .cmp rs1 rs2 => formatR 0x03 0 rs1 rs2 0
  | .add rd rs1 rs2 => formatR 0x10 rd rs1 rs2 0
  | .sub rd rs1 rs2 => formatR 0x11 rd rs1 rs2 0
  | .mul rd rs1 rs2 => formatR 0x12 rd rs1 rs2 0
  | .mod rd rs1 rs2 => formatR 0x13 rd rs1 rs2 0
  | .gcd rd rs1 rs2 => formatR 0x14 rd rs1 rs2 0
  | .modinv rd rs1 rs2 => formatR 0x15 rd rs1 rs2 0
  | .bitlen rd rs1 => formatR 0x16 rd rs1 0 0
  | .msetup rs1 => formatR 0x20 0 rs1 0 0
  | .mmul rd rs1 rs2 => formatR 0x21 rd rs1 rs2 0
  | .mto rd rs1 => formatR 0x22 rd rs1 0 0
  | .mfrom rd rs1 => formatR 0x23 rd rs1 0 0
  | .modexp rd rs1 rs2 rs3 => formatR 0x30 rd rs1 rs2 rs3
  | .cand rd imm16 => formatI 0x40 rd imm16
  | .ptest rs1 => formatR 0x41 0 rs1 0 0
  | .primegen rd imm16 => formatI 0x42 rd imm16
  | .genkey imm16 => formatI 0x48 0 imm16
  | .encode rd => formatR 0x50 rd 0 0 0
  | .decode rs1 => formatR 0x51 0 rs1 0 0
  | .crt rd rs1 rs2 => formatR 0x60 rd rs1 rs2 0
  | .encrypt rd rs1 => formatR 0x61 rd rs1 0 0
  | .decrypt rd rs1 => formatR 0x62 rd rs1 0 0

/-- The command word that an `nbits`-bit row of the opcode table stands for when its bits are `w`: bits from `nbits` up are 0. -/
def tableWord (nbits w : Nat) : Word := BitVec.ofNat 32 (w % 2 ^ nbits)

/-- What the decoder reads from that word; `none` where it is no command. -/
def decodeTableWord (nbits w : Nat) : Option Instr :=
  match decode (tableWord nbits w) with
  | .command i => some i
  | .illegal _ => none

end Sys2Proof
end

