-- ==== Sys2Proof/Machine/Arith.lean ====
section
/-! DEFINITION. The exact integer commands (41_arith.md R140 to R147): the exact mathematical result is stored, or the command
faults and writes nothing. -/

namespace Sys2Proof.Machine

/-- Store an exact result, or `E_OVERFLOW` when it is `≥ 2^W` (00_scope.md R8, 41_arith.md R140). -/
def State.deliverExact (s : State) (rd : RegId) (r : Nat) : Result :=
  if s.bound ≤ r then s.trap .overflow 0 else s.deliver rd r

/-- `ADD rd, rs1, rs2` (41_arith.md R141). -/
def execAdd (rd rs1 rs2 : RegId) (s : State) : Result := s.deliverExact rd (s.reg rs1 + s.reg rs2)

/-- `SUB rd, rs1, rs2` (41_arith.md R142). -/
def execSub (rd rs1 rs2 : RegId) (s : State) : Result :=
  if s.reg rs1 < s.reg rs2 then s.trap .negative 0 else s.deliver rd (s.reg rs1 - s.reg rs2)

/-- `MUL rd, rs1, rs2` (41_arith.md R143). -/
def execMul (rd rs1 rs2 : RegId) (s : State) : Result := s.deliverExact rd (s.reg rs1 * s.reg rs2)

/-- `MOD rd, rs1, rs2` (41_arith.md R144). -/
def execMod (rd rs1 rs2 : RegId) (s : State) : Result :=
  if s.reg rs2 = 0 then s.trap .divZero (regInfo rs2) else s.deliver rd (s.reg rs1 % s.reg rs2)

/-- `GCD rd, rs1, rs2` (41_arith.md R145). -/
def execGcd (rd rs1 rs2 : RegId) (s : State) : Result := s.deliver rd (Nat.gcd (s.reg rs1) (s.reg rs2))

/-- `MODINV rd, rs1, rs2` (41_arith.md R146). -/
def execModinv (rd rs1 rs2 : RegId) (s : State) : Result :=
  if s.reg rs2 = 0 then s.trap .divZero (regInfo rs2)
  else if Nat.gcd (s.reg rs1) (s.reg rs2) ≠ 1 then s.trap .notInvertible 0
  else s.deliver rd (inv (s.reg rs1) (s.reg rs2))

/-- `BITLEN rd, rs1` (41_arith.md R147). -/
def execBitlen (rd rs1 : RegId) (s : State) : Result := s.deliver rd (Machine.bitlen (s.reg rs1))

end Sys2Proof.Machine
end

