-- ==== Sys2Proof/Machine/Cipher.lean ====
section
/-! DEFINITION. The CRT recombination unit and the cipher: CRT, ENCRYPT, DECRYPT (47_cipher_crt.md R256 to R266). -/

namespace Sys2Proof.Machine

/-- `Crt(m1, m2, P, Q, QINV, N)`: the difference is reduced into `[0, P)` by a floor-mod before the multiply
(47_cipher_crt.md R256). -/
def crtValue (m1 m2 P Q QINV N : Nat) : Nat :=
  (m2 + Q * (QINV * floorMod ((m1 : Int) - (m2 : Int)) P % P)) % N

/-- `CRT rd, rs1, rs2` (47_cipher_crt.md R257). -/
def execCrt (rd rs1 rs2 : RegId) (s : State) : Result :=
  if s.p = 0 then s.trap .divZero (regInfo RegId.p)
  else if s.n = 0 then s.trap .divZero (regInfo RegId.n)
  else s.deliver rd (crtValue (s.reg rs1) (s.reg rs2) s.p s.q s.qinv s.n)

/-- `CTRL.RANGECHK = 1` and the operand is `≥ n` (47_cipher_crt.md R262, R263, R266). -/
def State.tooLarge (s : State) (rs1 : RegId) : Bool := s.rangeChk && decide (s.n ≤ s.reg rs1)

/-- `ENCRYPT rd, rs1` (47_cipher_crt.md R262). -/
def execEncrypt (rd rs1 : RegId) (s : State) : Result :=
  if s.n % 2 = 0 then s.trap .evenModulus (regInfo RegId.n)
  else if s.tooLarge rs1 then s.trap .msgTooLarge 0
  else s.clearCtx.deliver rd (modExp (s.reg rs1) s.e s.n)

/-- The plaintext of a ciphertext integer under the key bank: two exponentiations and the recombination (47_cipher_crt.md R266). -/
def State.plaintext (s : State) (c : Nat) : Nat :=
  crtValue (modExp c s.dp s.p) (modExp c s.dq s.q) s.p s.q s.qinv s.n

/-- `DECRYPT rd, rs1` (47_cipher_crt.md R266). -/
def execDecrypt (rd rs1 : RegId) (s : State) : Result :=
  if s.p % 2 = 0 then s.trap .evenModulus (regInfo RegId.p)
  else if s.q % 2 = 0 then s.trap .evenModulus (regInfo RegId.q)
  else if s.n = 0 then s.trap .divZero (regInfo RegId.n)
  else if s.tooLarge rs1 then s.trap .msgTooLarge 0
  else s.clearCtx.deliver rd (s.plaintext (s.reg rs1))

end Sys2Proof.Machine
end

