-- ==== Sys2Proof/Machine/Codec.lean ====
section
/-! DEFINITION. The big-endian codec: ENCODE, DECODE (46_codec.md R240 to R244). -/

namespace Sys2Proof.Machine

/-- `Encode(b)`: the first byte is the most significant (46_codec.md R240). -/
def encodeBytes (b : List Byte) : Nat := b.foldl (fun v x => v * 256 + x.toNat) 0

/-- `L = ceil(bitlen(v) / 8)`, the length of `Decode(v)` (46_codec.md R241). -/
def byteLen (v : Nat) : Nat := ceilDiv (bitlen v) 8

/-- Byte `i` of `Decode(v)`, of length `L` (46_codec.md R241). -/
def decodedByte (v L i : Nat) : Byte := BitVec.ofNat 8 (v / 256 ^ (L - 1 - i) % 256)

/-- `Decode(v)` (46_codec.md R241). -/
def decodeBytes (v : Nat) : List Byte := (List.range (byteLen v)).map (decodedByte v (byteLen v))

/-- The message: `BUF[0], ..., BUF[LEN-1]` (10_state.md R44). -/
def State.message (s : State) : List Byte := (List.range s.lenBytes).map s.buf.read

/-- `STATUS.LZ` of an `ENCODE` (46_codec.md R242). -/
def State.leadingZero (s : State) : Bool := decide (0 < s.lenBytes) && s.buf.read 0 == 0

/-- `ENCODE rd` (46_codec.md R242). -/
def execEncode (rd : RegId) (s : State) : Result :=
  if s.cfg.bufBytes < s.lenBytes then s.trap .param 3
  else .next ({ s.setReg rd (encodeBytes s.message) with lz := s.leadingZero } : State).complete

/-- The byte that `DECODE` of `v` writes at index `i`: the message, then zeros (46_codec.md R244). -/
def decodedAt (v i : Nat) : Byte := if i < byteLen v then decodedByte v (byteLen v) i else 0

/-- `DECODE rs1` (46_codec.md R244): every byte of `BUF` is written. -/
def execDecode (rs1 : RegId) (s : State) : Result :=
  .next ({ s with buf := s.buf.fill (decodedAt (s.reg rs1)) s.cfg.bufBytes,
                  len := BitVec.ofNat 16 (byteLen (s.reg rs1)) } : State).complete

end Sys2Proof.Machine
end

