-- ==== Sys2Proof/Machine/PrimeGen.lean ====
section
/-! DEFINITION. The prime candidate generator and the probable-prime tester: CAND, PTEST, PRIMEGEN (44_primegen.md). The
candidate and trial blocks that `GENKEY` repeats (45_keygen.md R221) are here, once. -/

namespace Sys2Proof.Machine

/-- `Candidate(k, u) = u | 1 | 2^(k-1)` (44_primegen.md R190). -/
def candidate (k u : Nat) : Nat := u ||| 1 ||| 2 ^ (k - 1)

/-- What `PtBegin` answers (44_primegen.md R201). -/
inductive PtClass where
  | decided (v : Verdict)
  | trials (s t : Nat)
  deriving DecidableEq, Repr

/-- `(s, t)` with the factors of two of `n` moved into `s`, at most `fuel` of them. -/
def takeTwos : Nat → Nat → Nat → Nat × Nat
  | 0, s, n => (s, n)
  | fuel + 1, s, n => if n % 2 = 0 then takeTwos fuel (s + 1) (n / 2) else (s, n)

/-- `PtBegin(x)`, the classification that needs no draw (44_primegen.md R201). -/
def ptBegin (x : Nat) : PtClass :=
  if x < 2 then .decided .composite
  else if x = 2 ∨ x = 3 then .decided .prime
  else if x % 2 = 0 then .decided .composite
  else .trials (takeTwos (bitlen x) 0 (x - 1)).1 (takeTwos (bitlen x) 0 (x - 1)).2

/-- The squarings of a trial: `fuel` times `y <- y*y mod x`, passing at `x-1`, failing at 1 (44_primegen.md R202). -/
def squareLoop (x : Nat) : Nat → Nat → Bool
  | 0, _ => false
  | fuel + 1, y =>
    if y * y % x = x - 1 then true
    else if y * y % x = 1 then false
    else squareLoop x fuel (y * y % x)

/-- `PtTrial(x, s, t, a)`: `true` is `pass` (44_primegen.md R202). -/
def ptTrial (x s t a : Nat) : Bool :=
  if modExp a t x = 1 ∨ modExp a t x = x - 1 then true else squareLoop x (s - 1) (modExp a t x)

/-! ### The blocks that PTEST, PRIMEGEN and GENKEY share -/

/-- Start testing `h.cand`: decided at once, or `h.s, h.t, h.i` set for the trials (44_primegen.md R204, R207). -/
def State.beginTest (s : State) (trials : Phase) (decided : Verdict → State → Result) : Result :=
  match ptBegin s.h.cand with
  | .decided v => decided v s
  | .trials e t => .next { s with h := { s.h with s := e, t := t, i := 0 }, phase := trials }

/-- A block that draws a candidate of `k` bits and starts its test; a verdict that needs no trial goes to `h.v` and the label
`check` (44_primegen.md R207 block `PG_CAND`). -/
def State.candBlock (s : State) (k : Nat) (trials check : Phase) : Result :=
  s.withDraw k fun u s =>
    ({ s with h := { s.h with cand := candidate k u } } : State).beginTest trials
      fun v s => .next { s with h := { s.h with v := v }, phase := check }

/-- A block that runs one trial: a draw outside `[2, cand-2]` is discarded; a failing trial decides composite; the `ROUNDS`-th
passing one decides probably prime (44_primegen.md R204 block `PT_TRIAL`). -/
def State.trialBlock (s : State) (again : Phase) (decided : Verdict → State → Result) : Result :=
  s.withDraw (bitlen s.h.cand) fun u s =>
    if u < 2 ∨ s.h.cand - 2 < u then s.goto again
    else if ptTrial s.h.cand s.h.s s.h.t u = false then decided .composite s
    else if s.h.i + 1 = s.roundCount then decided .probablyPrime { s with h := { s.h with i := s.h.i + 1 } }
    else .next { s with h := { s.h with i := s.h.i + 1 }, phase := again }

/-- A trial block whose decision goes to `h.v` and the label `check` (44_primegen.md R207 block `PG_TRIAL`). -/
def State.trialThenCheck (s : State) (again check : Phase) : Result :=
  s.trialBlock again fun v s => .next { s with h := { s.h with v := v }, phase := check }

/-- The parameter checks of `PRIMEGEN` and `GENKEY` before any draw: the bit length, then `ROUNDS` (60_exceptions.md R285). -/
def State.checkGenerator (s : State) (lengthOk : Bool) (first : Phase) : Result :=
  if lengthOk = false then s.trap .param 1
  else if s.roundCount = 0 then s.trap .param 2
  else s.clearCtx.goto first

/-! ### The commands -/

/-- `CAND rd, imm16` (44_primegen.md R191). -/
def execCand (rd : RegId) (imm16 : Nat) (s : State) : Result :=
  if imm16 = 0 ∨ s.cfg.w < imm16 then s.trap .param 1
  else s.withDraw imm16 fun u s => s.deliver rd (candidate imm16 u)

/-- `STATUS.VERDICT <- v; complete` (44_primegen.md R204). -/
def State.giveVerdict (v : Verdict) (s : State) : Result := .next ({ s with verdict := v } : State).complete

/-- `PTEST`, block `EXEC` (44_primegen.md R204). -/
def ptestExec (rs1 : RegId) (s : State) : Result :=
  if s.roundCount = 0 then s.trap .param 2
  else ({ s.clearCtx with h := { s.h with cand := s.reg rs1 } } : State).beginTest .ptTrial State.giveVerdict

/-- `PTEST rs1`: the block that `PHASE` names (44_primegen.md R204). -/
def execPtest (rs1 : RegId) (s : State) : Result :=
  match s.phase with
  | .exec => ptestExec rs1 s
  | .ptTrial => s.trialBlock .ptTrial State.giveVerdict
  | _ => .fault .strayPhase

/-- `PRIMEGEN`, block `PG_DECIDE` (44_primegen.md R207): accept on any positive result, else resample. -/
def primegenDecide (rd : RegId) (s : State) : Result :=
  if s.h.v ≠ .composite then s.deliver rd s.h.cand else s.goto .pgCand

/-- `PRIMEGEN rd, imm16`: the block that `PHASE` names (44_primegen.md R207). -/
def execPrimegen (rd : RegId) (imm16 : Nat) (s : State) : Result :=
  match s.phase with
  | .exec => s.checkGenerator (decide (1 ≤ imm16 ∧ imm16 ≤ s.cfg.w)) .pgCand
  | .pgCand => s.candBlock imm16 .pgTrial .pgDecide
  | .pgTrial => s.trialThenCheck .pgTrial .pgDecide
  | .pgDecide => primegenDecide rd s
  | _ => .fault .strayPhase

end Sys2Proof.Machine
end

