-- ==== Sys2Proof/Machine/KeyGen.lean ====
section
/-! DEFINITION. The RSA key-pair generator orchestrator, GENKEY (45_keygen.md R221). -/

namespace Sys2Proof.Machine

/-- `pb = bits div 2` (45_keygen.md R222). -/
def pBits (bits : Nat) : Nat := bits / 2

/-- `qb = bits - pb` (45_keygen.md R222). -/
def qBits (bits : Nat) : Nat := bits - pBits bits

/-- Block `GP_CHECK` (45_keygen.md R221): accept `p` only if it is a probable prime with `gcd(e, p-1) = 1`. -/
def genkeyCheckP (s : State) : Result :=
  if s.h.v = .composite then s.goto .gpCand
  else if Nat.gcd s.e (s.h.cand - 1) ≠ 1 then s.goto .gpCand
  else .next { s with h := { s.h with p := s.h.cand }, phase := .gqCand }

/-- Block `GQ_CHECK` (45_keygen.md R221): as for `p`, and reject `q = p`. -/
def genkeyCheckQ (s : State) : Result :=
  if s.h.v = .composite then s.goto .gqCand
  else if s.h.cand = s.h.p then s.goto .gqCand
  else if Nat.gcd s.e (s.h.cand - 1) ≠ 1 then s.goto .gqCand
  else .next { s with h := { s.h with q := s.h.cand }, phase := .gkDerive }

/-- `φ = (p-1)*(q-1)` (45_keygen.md R221). -/
def phi (p q : Nat) : Nat := (p - 1) * (q - 1)

/-- `d = inv(e, φ)` (45_keygen.md R221 step 4). -/
def privExp (e p q : Nat) : Nat := inv e (phi p q)

/-- The key pair of `p`, `q`, `e` in the key bank, all seven registers in one step; `x1` is left as it is; `KEYSRC <- 1`
(45_keygen.md R221 steps 4 to 7, R224). -/
def State.commitKey (s : State) (p q : Nat) : State :=
  { (((((((s.setReg RegId.n (p * q)).setReg RegId.d (privExp s.e p q)).setReg RegId.p p).setReg RegId.q q).setReg
      RegId.dp (privExp s.e p q % (p - 1))).setReg RegId.dq (privExp s.e p q % (q - 1))).setReg RegId.qinv (inv q p))
    with keysrc := .generated }

/-- Block `GK_DERIVE` (45_keygen.md R221 steps 4 to 7, R228). -/
def genkeyDerive (s : State) : Result :=
  if Nat.gcd s.e (phi s.h.p s.h.q) ≠ 1 then s.trap .invariant 1
  else if Nat.gcd s.h.q s.h.p ≠ 1 then s.trap .invariant 2
  else .next (s.commitKey s.h.p s.h.q).complete

/-- `GENKEY imm16`: the block that `PHASE` names (45_keygen.md R221). -/
def execGenkey (imm16 : Nat) (s : State) : Result :=
  match s.phase with
  | .exec => s.checkGenerator (decide (2 ≤ imm16 ∧ imm16 ≤ s.cfg.w)) .gpCand
  | .gpCand => s.candBlock (pBits imm16) .gpTrial .gpCheck
  | .gpTrial => s.trialThenCheck .gpTrial .gpCheck
  | .gpCheck => genkeyCheckP s
  | .gqCand => s.candBlock (qBits imm16) .gqTrial .gqCheck
  | .gqTrial => s.trialThenCheck .gqTrial .gqCheck
  | .gqCheck => genkeyCheckQ s
  | .gkDerive => genkeyDerive s
  | _ => .fault .strayPhase

end Sys2Proof.Machine
end

