-- ==== Sys2Proof/Machine/Modexp.lean ====
section
/-! DEFINITION. The modular exponentiation engine, MODEXP (43_modexp.md R181). -/

namespace Sys2Proof.Machine

/-- `MODEXP rd, rs1, rs2, rs3` (43_modexp.md R181): base, exponent, modulus. -/
def execModexp (rd rs1 rs2 rs3 : RegId) (s : State) : Result :=
  if s.reg rs3 % 2 = 0 then s.trap .evenModulus (regInfo rs3)
  else s.clearCtx.deliver rd (modExp (s.reg rs1) (s.reg rs2) (s.reg rs3))

end Sys2Proof.Machine
end

