-- ==== Sys2Proof/Machine/Montgomery.lean ====
section
/-! DEFINITION. The Montgomery multiplier: MSETUP, MMUL, MTO, MFROM (42_montgomery.md R160 to R164). -/

namespace Sys2Proof.Machine

/-- `s = max(1, ceil(bitlen(N) / 32))`, the length of `N` in limbs (42_montgomery.md R160). -/
def limbs (N : Nat) : Nat := max 1 (ceilDiv (bitlen N) Config.limb)

/-- `R = 2^(32*s)` (42_montgomery.md R160). -/
def montR (s : Nat) : Nat := 2 ^ (Config.limb * s)

/-- `N0INV = (-inv(N mod 2^32, 2^32)) mod 2^32` (42_montgomery.md R160). -/
def n0inv (N : Nat) : Nat := floorMod (-(inv (N % 2 ^ 32) (2 ^ 32) : Int)) (2 ^ 32)

/-- `MontMul(a, b) = (a * b * Rinv) mod N` for `R = 2^(32*s)` (42_montgomery.md R160). -/
def montMul (s N a b : Nat) : Nat := a * b * inv (montR s % N) N % N

/-- The context of an odd modulus (42_montgomery.md R161). -/
def MontCtx.of (N : Nat) : MontCtx where
  mn     := N
  mrr    := 2 ^ (64 * limbs N) % N
  mlen   := BitVec.ofNat 16 (limbs N)
  mn0inv := BitVec.ofNat 32 (n0inv N)
  valid  := true

/-- `MSETUP rs1` (42_montgomery.md R161). -/
def execMsetup (rs1 : RegId) (s : State) : Result :=
  if s.reg rs1 % 2 = 0 then s.trap .evenModulus (regInfo rs1)
  else .next ({ s with ctx := MontCtx.of (s.reg rs1) } : State).complete

/-- `MMUL rd, rs1, rs2` (42_montgomery.md R162). -/
def execMmul (rd rs1 rs2 : RegId) (s : State) : Result :=
  if s.ctx.valid = false then s.trap .noMctx 0
  else if s.ctx.mn ≤ s.reg rs1 then s.trap .operandRange 1
  else if s.ctx.mn ≤ s.reg rs2 then s.trap .operandRange 2
  else s.deliver rd (montMul s.ctx.mlen.toNat s.ctx.mn (s.reg rs1) (s.reg rs2))

/-- `MTO rd, rs1` (42_montgomery.md R163). -/
def execMto (rd rs1 : RegId) (s : State) : Result :=
  if s.ctx.valid = false then s.trap .noMctx 0
  else if s.ctx.mn ≤ s.reg rs1 then s.trap .operandRange 1
  else s.deliver rd (s.reg rs1 * montR s.ctx.mlen.toNat % s.ctx.mn)

/-- `MFROM rd, rs1` (42_montgomery.md R164). -/
def execMfrom (rd rs1 : RegId) (s : State) : Result :=
  if s.ctx.valid = false then s.trap .noMctx 0
  else if s.ctx.mn ≤ s.reg rs1 then s.trap .operandRange 1
  else s.deliver rd (s.reg rs1 * inv (montR s.ctx.mlen.toNat % s.ctx.mn) s.ctx.mn % s.ctx.mn)

end Sys2Proof.Machine
end

