-- ==== Sys2Proof/Machine/SystemMove.lean ====
section
/-! DEFINITION. The commands NOP, MOV, LDI, CMP (40_system_move.md R125 to R128). -/

namespace Sys2Proof.Machine

/-- `NOP` (40_system_move.md R125). -/
def execNop (s : State) : Result := .next s.complete

/-- `MOV rd, rs1` (40_system_move.md R126). -/
def execMov (rd rs1 : RegId) (s : State) : Result := s.deliver rd (s.reg rs1)

/-- `LDI rd, imm16` (40_system_move.md R127): all `W` bits are written. -/
def execLdi (rd : RegId) (imm16 : Nat) (s : State) : Result := s.deliver rd imm16

/-- `CMP rs1, rs2` (40_system_move.md R128). -/
def execCmp (rs1 rs2 : RegId) (s : State) : Result :=
  .next ({ s with cmp := cmpFlag (s.reg rs1) (s.reg rs2) } : State).complete

end Sys2Proof.Machine
end

