-- ==== Sys2Proof/Machine/Dispatch.lean ====
section
/-! DEFINITION. One arm per command (30_encoding.md R104): the meaning of the command, which runs the block that `PHASE` names. -/

namespace Sys2Proof.Machine

def exec (i : Instr) (s : State) : Host.Outcome State Fault Refusal :=
  match i with
  | .nop => Sys2Proof.Machine.execNop s
  | .mov rd rs1 => Sys2Proof.Machine.execMov rd rs1 s
  | .ldi rd imm16 => Sys2Proof.Machine.execLdi rd imm16 s
  | .cmp rs1 rs2 => Sys2Proof.Machine.execCmp rs1 rs2 s
  | .add rd rs1 rs2 => Sys2Proof.Machine.execAdd rd rs1 rs2 s
  | .sub rd rs1 rs2 => Sys2Proof.Machine.execSub rd rs1 rs2 s
  | .mul rd rs1 rs2 => Sys2Proof.Machine.execMul rd rs1 rs2 s
  | .mod rd rs1 rs2 => Sys2Proof.Machine.execMod rd rs1 rs2 s
  | .gcd rd rs1 rs2 => Sys2Proof.Machine.execGcd rd rs1 rs2 s
  | .modinv rd rs1 rs2 => Sys2Proof.Machine.execModinv rd rs1 rs2 s
  | .bitlen rd rs1 => Sys2Proof.Machine.execBitlen rd rs1 s
  | .msetup rs1 => Sys2Proof.Machine.execMsetup rs1 s
  | .mmul rd rs1 rs2 => Sys2Proof.Machine.execMmul rd rs1 rs2 s
  | .mto rd rs1 => Sys2Proof.Machine.execMto rd rs1 s
  | .mfrom rd rs1 => Sys2Proof.Machine.execMfrom rd rs1 s
  | .modexp rd rs1 rs2 rs3 => Sys2Proof.Machine.execModexp rd rs1 rs2 rs3 s
  | .cand rd imm16 => Sys2Proof.Machine.execCand rd imm16 s
  | .ptest rs1 => Sys2Proof.Machine.execPtest rs1 s
  | .primegen rd imm16 => Sys2Proof.Machine.execPrimegen rd imm16 s
  | .genkey imm16 => Sys2Proof.Machine.execGenkey imm16 s
  | .encode rd => Sys2Proof.Machine.execEncode rd s
  | .decode rs1 => Sys2Proof.Machine.execDecode rs1 s
  | .crt rd rs1 rs2 => Sys2Proof.Machine.execCrt rd rs1 rs2 s
  | .encrypt rd rs1 => Sys2Proof.Machine.execEncrypt rd rs1 s
  | .decrypt rd rs1 => Sys2Proof.Machine.execDecrypt rd rs1 s

end Sys2Proof.Machine
end

