-- ==== Sys2Proof/Machine/Sequencer.lean ====
section
/-! DEFINITION. The sequencer's step (40_system_move.md R121, R124) and what it asks of the RNG port (20_memory.md R85). -/

namespace Sys2Proof.Machine

/-- The sequencer's step while `BUSY`: decode `IR` and run the block of the command that `PHASE` names; an illegal word raises
`E_ILLEGAL_CMD` in the step `EXEC` (40_system_move.md R121). `IR` does not change while a command runs, so decoding it again in a
later block reads the same command (log 10). -/
def State.runBlock (s : State) : Result :=
  match s.phase, decode s.ir with
  | .none, _ => .fault .strayPhase
  | .exec, .illegal why => s.trap .illegalCmd why.info
  | _, .illegal _ => .fault .strayPhase
  | _, .command i => exec i s

/-- The sequencer's step. It is enabled exactly when `STATE = BUSY`; otherwise nothing happens (40_system_move.md R124; log 5). -/
def State.sequencerStep (s : State) : Result :=
  match s.st with
  | .busy => s.runBlock
  | .idle | .error | .fatal => .next s

/-- The length of the draw that the block of this command asks for, if the block draws (44_primegen.md R191, R204, R207, 45_keygen.md R221). -/
def drawOf (i : Instr) (s : State) : Option Nat :=
  match i, s.phase with
  | .cand _ k, .exec => if k = 0 ∨ s.cfg.w < k then none else some k
  | .ptest _, .ptTrial => some (bitlen s.h.cand)
  | .primegen _ k, .pgCand => some k
  | .primegen _ _, .pgTrial => some (bitlen s.h.cand)
  | .genkey bits, .gpCand => some (pBits bits)
  | .genkey bits, .gqCand => some (qBits bits)
  | .genkey _, .gpTrial => some (bitlen s.h.cand)
  | .genkey _, .gqTrial => some (bitlen s.h.cand)
  | _, _ => none

/-- The request on the RNG port: `some k` when the enabled sequencer step contains `RngDraw(k)` (20_memory.md R85). -/
def State.rngRequest (s : State) : Option Nat :=
  match s.st, decode s.ir with
  | .busy, .command i => drawOf i s
  | _, _ => none

end Sys2Proof.Machine
end

