-- ==== Sys2Proof/Machine/Step.lean ====
section
/-! DEFINITION. One step of the block: the step of the agent whose turn it is (00_scope.md R7, 40_system_move.md R124). -/

namespace Sys2Proof.Machine

/-- Whose turn it is: the first of `turns`, else the sequencer (log 2). -/
def State.turn (s : State) : Turn := s.turns.headD .sequencer

/-- The state with that turn taken from the list. -/
def State.takeTurn (s : State) : State := { s with turns := s.turns.tail }

/-- One step: a host access (20_memory.md R72), a sequencer step (40_system_move.md R121) or the event `Reset`
(70_reset_and_hazards.md R320). -/
def step (s : State) : Host.Outcome State Fault Refusal :=
  match s.turn with
  | .host a => .next (s.takeTurn.hostAccess a)
  | .sequencer => s.takeTurn.sequencerStep
  | .reset => .next s.takeTurn.resetBlock

/-- The turns after which the sequencer moves next; inputs still to come stay behind it. -/
def turnsForSequencer : List Turn → List Turn
  | [] => []
  | t :: ts => .sequencer :: t :: ts

/-- `s` with the command word issued, as the host's write of it to `CMD` in `IDLE` does (40_system_move.md R120), and the sequencer to
move next. The block fetches nothing: this write is how a command comes to run (log 6). -/
def State.withFetchWord (s : State) (nbits w : Nat) : State :=
  { s.issue (tableWord nbits w) with turns := turnsForSequencer s.turns }

end Sys2Proof.Machine
end

