-- ==== Sys2Proof/Machine/Assembler.lean ====
section
/-! DEFINITION. The notation for commands (30_encoding.md R110 to R112): a line of characters to a command, and back. It is no part
of the block; the words it stands for are `encode` of the command. -/

namespace Sys2Proof.Machine

/-- The operands a command takes, in the order of R110. -/
inductive Shape where
  | z (i : Instr)
  | r1 (f : RegId → Instr)
  | r2 (f : RegId → RegId → Instr)
  | r3 (f : RegId → RegId → RegId → Instr)
  | r4 (f : RegId → RegId → RegId → RegId → Instr)
  | ri (f : RegId → Nat → Instr)
  | im (f : Nat → Instr)

/-- A mnemonic, in lower case, and the operands it takes. -/
structure Mnemonic where
  name  : String
  shape : Shape

/-- The commands of R104 up to the exponentiation engine. -/
def mnemonicsInteger : List Mnemonic :=
  [⟨"nop", .z .nop⟩, ⟨"mov", .r2 .mov⟩, ⟨"ldi", .ri .ldi⟩, ⟨"cmp", .r2 .cmp⟩, ⟨"add", .r3 .add⟩, ⟨"sub", .r3 .sub⟩,
   ⟨"mul", .r3 .mul⟩, ⟨"mod", .r3 .mod⟩, ⟨"gcd", .r3 .gcd⟩, ⟨"modinv", .r3 .modinv⟩, ⟨"bitlen", .r2 .bitlen⟩,
   ⟨"msetup", .r1 .msetup⟩, ⟨"mmul", .r3 .mmul⟩, ⟨"mto", .r2 .mto⟩, ⟨"mfrom", .r2 .mfrom⟩, ⟨"modexp", .r4 .modexp⟩]

/-- The generators, the codec, the cipher, and the pseudo-instructions of R112. -/
def mnemonicsEngine : List Mnemonic :=
  [⟨"cand", .ri .cand⟩, ⟨"ptest", .r1 .ptest⟩, ⟨"primegen", .ri .primegen⟩, ⟨"genkey", .im .genkey⟩,
   ⟨"encode", .r1 .encode⟩, ⟨"decode", .r1 .decode⟩, ⟨"crt", .r3 .crt⟩, ⟨"encrypt", .r2 .encrypt⟩,
   ⟨"decrypt", .r2 .decrypt⟩, ⟨"clr", .r1 fun rd => .ldi rd 0⟩, ⟨"enc", .z Instr.enc⟩, ⟨"dec", .z Instr.dec⟩]

/-- All mnemonics. -/
def mnemonics : List Mnemonic := mnemonicsInteger ++ mnemonicsEngine

/-- The register names: the number is the place in the list (R111). -/
def regNames : List String :=
  ["x0", "x1", "x2", "x3", "x4", "x5", "x6", "x7", "x8", "x9", "x10", "x11", "x12", "x13", "x14", "x15"]

/-- The aliases, in the same order (R111). -/
def regAliases : List String := ["n", "e", "d", "p", "q", "dp", "dq", "qinv", "m", "c", "t0", "t1", "t2", "t3", "t4", "t5"]

/-- A register by either spelling. -/
def readReg (t : List Char) : Option RegId :=
  match regNames.findIdx? (fun r => r.toList == t) with
  | some i => some (Fin.ofNat 16 i)
  | none => (regAliases.findIdx? (fun r => r.toList == t)).map (Fin.ofNat 16)

/-- The value of a digit in base 16. -/
def digit (c : Char) : Option Nat :=
  if '0' ≤ c ∧ c ≤ '9' then some (c.toNat - 48) else if 'a' ≤ c ∧ c ≤ 'f' then some (c.toNat - 87) else none

/-- Digits, most significant first, in base `b`. -/
def readDigits (b : Nat) : Nat → List Char → Option Nat
  | v, [] => some v
  | v, c :: cs =>
    match digit c with
    | some d => if d < b then readDigits b (v * b + d) cs else none
    | none => none

/-- An immediate: decimal, or hexadecimal after `0x`, in `0..65535` (R110). DESIGN CHOICE (log 16): leading zeros are read. -/
def readImm (t : List Char) : Option Nat :=
  let v := if t.length ≤ 2 ∨ t.take 2 ≠ "0x".toList then (if t = [] then none else readDigits 10 0 t)
    else readDigits 16 0 (t.drop 2)
  match v with
  | some n => if immFits n then some n else none
  | none => none

/-- Cut at a character. -/
def splitChars (sep : Char) : List Char → List (List Char)
  | [] => [[]]
  | c :: cs =>
    match splitChars sep cs with
    | [] => [[c]]
    | w :: ws => if c = sep then [] :: w :: ws else (c :: w) :: ws

/-- Without blanks at either end. DESIGN CHOICE (log 16): only the space character is a blank. -/
def trimChars (t : List Char) : List Char :=
  ((t.dropWhile (· == ' ')).reverse.dropWhile (· == ' ')).reverse

/-- The operands of a shape. -/
def Shape.read : Shape → List (List Char) → Option Instr
  | .z i, [] => some i
  | .r1 f, [a] => (readReg a).map f
  | .r2 f, [a, b] => match readReg a, readReg b with | some i, some j => some (f i j) | _, _ => none
  | .r3 f, [a, b, c] =>
    match readReg a, readReg b, readReg c with | some i, some j, some k => some (f i j k) | _, _, _ => none
  | .r4 f, [a, b, c, d] =>
    match readReg a, readReg b, readReg c, readReg d with
    | some i, some j, some k, some l => some (f i j k l)
    | _, _, _, _ => none
  | .ri f, [a, b] => match readReg a, readImm b with | some i, some v => some (f i v) | _, _ => none
  | .im f, [a] => (readImm a).map f
  | _, _ => none

/-- One line: a comment is dropped, the mnemonic in either case, operands separated by commas (R110). DESIGN CHOICE (log 16): R110 says of
mnemonics only that case does not matter; here the whole line is read without case, so register names and the `0x` prefix too (`X10`,
`0XFF`). -/
def assemble (line : List Char) : Option Instr :=
  let t := trimChars ((line.takeWhile (· != ';')).map Char.toLower)
  let name := t.takeWhile (· != ' ')
  let rest := trimChars (t.dropWhile (· != ' '))
  match mnemonics.find? (fun e => e.name.toList == name) with
  | none => none
  | some e => e.shape.read (if rest = [] then [] else (splitChars ',' rest).map trimChars)

/-- The name of a register. -/
def regName (i : RegId) : String := (regNames[i.val]?).getD "x0"

/-- The operands of a line, separated by commas. -/
def operandText (name : String) : List String → String
  | [] => name
  | t :: ts => ts.foldl (fun a b => a ++ ", " ++ b) (name ++ " " ++ t)

/-- A command whose operands are registers. -/
def regsText (name : String) (rs : List RegId) : String := operandText name (rs.map regName)

/-- A command in the notation of R110. -/
def commandText : Instr → String
  | .nop => "NOP"
  | .mov rd rs1 => regsText "MOV" [rd, rs1]
  | .ldi rd v => operandText "LDI" [regName rd, toString v]
  | .cmp rs1 rs2 => regsText "CMP" [rs1, rs2]
  | .add rd rs1 rs2 => regsText "ADD" [rd, rs1, rs2]
  | .sub rd rs1 rs2 => regsText "SUB" [rd, rs1, rs2]
  | .mul rd rs1 rs2 => regsText "MUL" [rd, rs1, rs2]
  | .mod rd rs1 rs2 => regsText "MOD" [rd, rs1, rs2]
  | .gcd rd rs1 rs2 => regsText "GCD" [rd, rs1, rs2]
  | .modinv rd rs1 rs2 => regsText "MODINV" [rd, rs1, rs2]
  | .bitlen rd rs1 => regsText "BITLEN" [rd, rs1]
  | .msetup rs1 => regsText "MSETUP" [rs1]
  | .mmul rd rs1 rs2 => regsText "MMUL" [rd, rs1, rs2]
  | .mto rd rs1 => regsText "MTO" [rd, rs1]
  | .mfrom rd rs1 => regsText "MFROM" [rd, rs1]
  | .modexp rd rs1 rs2 rs3 => regsText "MODEXP" [rd, rs1, rs2, rs3]
  | .cand rd k => operandText "CAND" [regName rd, toString k]
  | .ptest rs1 => regsText "PTEST" [rs1]
  | .primegen rd k => operandText "PRIMEGEN" [regName rd, toString k]
  | .genkey bits => operandText "GENKEY" [toString bits]
  | .encode rd => regsText "ENCODE" [rd]
  | .decode rs1 => regsText "DECODE" [rs1]
  | .crt rd rs1 rs2 => regsText "CRT" [rd, rs1, rs2]
  | .encrypt rd rs1 => regsText "ENCRYPT" [rd, rs1]
  | .decrypt rd rs1 => regsText "DECRYPT" [rd, rs1]

end Sys2Proof.Machine
end

