-- ==== Sys2Proof/Machine/Reference.lean ====
section
/-! DEFINITION. The reference algorithms that the spec gives as informative: the word-serial Montgomery product (42_montgomery.md
R166) and left-to-right exponentiation over it (43_modexp.md R183). No command calls them; they are here to be compared with the
results the rules fix. -/

namespace Sys2Proof.Machine

/-- One limb of the word-serial product: `T + a*b_i`, then the multiple `m_i` of `N` that clears the low 32 bits (R166). -/
def montStep (N n0 a bi T : Nat) : Nat :=
  (T + a * bi + (T + a * bi) % 2 ^ 32 * n0 % 2 ^ 32 * N) / 2 ^ 32

/-- `T` after `i` iterations of the loop of R166. -/
def montSerial (N n0 a b : Nat) : Nat → Nat
  | 0 => 0
  | i + 1 => montStep N n0 a (bitsFrom b (32 * i) 32) (montSerial N n0 a b i)

/-- The product as R166 computes it: the loop, then one conditional subtraction. -/
def montMulSerial (s N n0 a b : Nat) : Nat :=
  if N ≤ montSerial N n0 a b s then montSerial N n0 a b s - N else montSerial N n0 a b s

/-- The loop of R183 over the bits `i-1, ..., 0` of `e`. -/
def expSerial (s N n0 bm e : Nat) : Nat → Nat → Nat
  | 0, acc => acc
  | i + 1, acc =>
    expSerial s N n0 bm e i
      (if e / 2 ^ i % 2 = 1 then montMulSerial s N n0 (montMulSerial s N n0 acc acc) bm else montMulSerial s N n0 acc acc)

/-- `ModExp(b, e, N)` as R183 computes it, for odd `N`. -/
def modExpSerial (b e N : Nat) : Nat :=
  montMulSerial (limbs N) N (n0inv N)
    (expSerial (limbs N) N (n0inv N)
      (montMulSerial (limbs N) N (n0inv N) (b % N) (2 ^ (64 * limbs N) % N)) e (bitlen e) (montR (limbs N) % N)) 1

end Sys2Proof.Machine
end

