-- ==== Sys2Proof/Safety.lean ====
section
/-! DEFINITION. What claims mean by a safe state: the invariant of the block's state between two steps (10_state.md R20, R21, R43, R50;
60_exceptions.md R290), the validity of a key bank (10_state.md R25), and a run that never stops. -/

namespace Sys2Proof.Machine

/-- The Montgomery context is that of an odd modulus below `2^W`, or cleared (10_state.md R43, 42_montgomery.md R161). -/
def MontCtx.Ok (c : MontCtx) (bound : Nat) : Prop :=
  if c.valid then c.mn % 2 = 1 ∧ c.mn < bound ∧ c = MontCtx.of c.mn else c = MontCtx.empty

/-- `ERR` and the state of the sequencer belong together (60_exceptions.md R290, R294; 40_system_move.md R123). -/
def State.errOk (s : State) : Prop :=
  match s.st with
  | .idle | .busy => s.err = none
  | .error => ∃ r, s.err = some r ∧ r.cause.isFatal = false
  | .fatal => (∃ r, s.err = some r ∧ r.cause.isFatal = true) ∧ s.ctx = MontCtx.empty

/-- Every temporary fits its width (10_state.md R50). -/
def Temps.Fit (h : Temps) (bound : Nat) : Prop :=
  h.cand < bound ∧ h.t < bound ∧ h.p < bound ∧ h.q < bound ∧ h.s < 2 ^ 16 ∧ h.i < 2 ^ 16

/-- A test is under way: `h.cand` is odd and `≥ 5`, `h.cand - 1 = 2^h.s * h.t` with `h.t` odd, and fewer than `ROUNDS` trials have
passed (44_primegen.md R201, R204). -/
def State.testOk (s : State) : Prop :=
  5 ≤ s.h.cand ∧ s.h.cand % 2 = 1 ∧ s.h.cand - 1 = 2 ^ s.h.s * s.h.t ∧ s.h.t % 2 = 1 ∧ s.h.i < s.roundCount

/-- A number of exactly `k` bits, odd (44_primegen.md R190). -/
def candidateOk (k c : Nat) : Prop := c % 2 = 1 ∧ bitlen c = k

/-- A candidate and its verdict: a positive one is given to no number below 3 (44_primegen.md R201). -/
def State.decidedOk (s : State) (k : Nat) : Prop :=
  candidateOk k s.h.cand ∧ (s.h.v ≠ .composite → 3 ≤ s.h.cand)

/-- An accepted prime of `GENKEY` (45_keygen.md R221 blocks `GP_CHECK`, `GQ_CHECK`). -/
def acceptedOk (e k p : Nat) : Prop := candidateOk k p ∧ 3 ≤ p ∧ Nat.gcd e (p - 1) = 1

/-- The parameters that `PRIMEGEN` and `GENKEY` checked in `EXEC` (44_primegen.md R207, 45_keygen.md R221). -/
def State.paramsOk (s : State) (least bits : Nat) : Prop := least ≤ bits ∧ bits ≤ s.cfg.w ∧ s.roundCount ≠ 0

/-- What holds before each block of a multi-step command other than `EXEC`; no other block of the command exists
(44_primegen.md R208, 45_keygen.md R229). -/
def blockOk (i : Instr) (s : State) : Prop :=
  match i, s.phase with
  | .ptest _, .ptTrial => s.testOk
  | .primegen _ k, .pgCand => s.paramsOk 1 k
  | .primegen _ k, .pgTrial => s.paramsOk 1 k ∧ candidateOk k s.h.cand ∧ s.testOk
  | .primegen _ k, .pgDecide => s.paramsOk 1 k ∧ s.decidedOk k
  | .genkey b, .gpCand => s.paramsOk 2 b
  | .genkey b, .gpTrial => s.paramsOk 2 b ∧ candidateOk (pBits b) s.h.cand ∧ s.testOk
  | .genkey b, .gpCheck => s.paramsOk 2 b ∧ s.decidedOk (pBits b)
  | .genkey b, .gqCand => s.paramsOk 2 b ∧ acceptedOk s.e (pBits b) s.h.p
  | .genkey b, .gqTrial => s.paramsOk 2 b ∧ acceptedOk s.e (pBits b) s.h.p ∧ candidateOk (qBits b) s.h.cand ∧ s.testOk
  | .genkey b, .gqCheck => s.paramsOk 2 b ∧ acceptedOk s.e (pBits b) s.h.p ∧ s.decidedOk (qBits b)
  | .genkey b, .gkDerive =>
    s.paramsOk 2 b ∧ acceptedOk s.e (pBits b) s.h.p ∧ acceptedOk s.e (qBits b) s.h.q ∧ s.h.q ≠ s.h.p
  | _, _ => False

/-- `PHASE` and the temporaries belong to the state of the sequencer and to the command in `IR` (10_state.md R40, R50); past `EXEC` a
multi-step command has cleared the Montgomery context (10_state.md R43). -/
def State.phaseOk (s : State) : Prop :=
  match s.phase with
  | .none => s.st ≠ .busy ∧ s.h = Temps.zero
  | .exec => s.st = .busy ∧ s.h = Temps.zero
  | _ => s.st = .busy ∧ s.ctx = MontCtx.empty ∧ ∃ i, decode s.ir = .command i ∧ blockOk i s

/-- The invariant of the state of the block. -/
structure State.Inv (s : State) : Prop where
  /-- an admissible `W` (00_scope.md R6) -/
  cfg_ok   : s.cfg.Admissible
  /-- every register holds an integer in `[0, 2^W)` (10_state.md R21) -/
  regs_fit : ∀ i, s.reg i < s.bound
  /-- the buffer's canonical form -/
  buf_wf   : Memory.wf s.buf = true
  /-- the buffer has `BUFBYTES` bytes (10_state.md R44) -/
  buf_in   : ∀ c ∈ s.buf, c.1 < s.cfg.bufBytes
  ctx_ok   : s.ctx.Ok s.bound
  err_ok   : s.errOk
  temps_fit : s.h.Fit s.bound
  phase_ok : s.phaseOk

/-- The source's key invariants 1 to 5 without primality (10_state.md R25, 45_keygen.md R225). -/
structure State.KeyValid (s : State) : Prop where
  modulus  : s.n = s.p * s.q
  distinct : s.p ≠ s.q
  odd      : s.p % 2 = 1 ∧ s.q % 2 = 1
  coprime  : Nat.gcd s.e (s.p - 1) = 1 ∧ Nat.gcd s.e (s.q - 1) = 1
  exponent : s.d * s.e % ((s.p - 1) * (s.q - 1)) = 1
  crt      : s.dp = s.d % (s.p - 1) ∧ s.dq = s.d % (s.q - 1) ∧ s.qinv * s.q % s.p = 1
  bounds   : (0 < s.d ∧ s.d < s.n) ∧ (0 < s.dp ∧ s.dp < s.n) ∧ (0 < s.dq ∧ s.dq < s.n) ∧ (0 < s.qinv ∧ s.qinv < s.n)

/-- When the block vouches for the key bank, it is a valid key (10_state.md R25, R26). -/
def State.KeyOk (s : State) : Prop := s.keysrc = .generated → s.KeyValid

/-- A run that never stops: no number of steps ends in a fault or a refusal of the model. -/
def RunsOn (s : State) : Prop := ∀ k, ∃ t, Host.Core.run Sys2Proof.core k s = .next t

end Sys2Proof.Machine
end

