-- ==== Sys2Proof/Certificates/Slice0/Obligations.lean ====
section
/-! DEFINITION. The statements about the model. The words of a statement come first (namespace `Claims`): what a command that ends
leaves as it was and what it changes, written in the fields of State and not in the operations the meanings use; then one
`def Obligations.<Name> : Prop` per statement, in the order of OBLIGATIONS.json. -/

namespace Sys2Proof.Claims

open Sys2Proof.Machine

/-! ### What stays as it was -/

/-- Every big-integer register and `KEYSRC`. -/
def SameRegs (s t : State) : Prop := (∀ i, t.reg i = s.reg i) ∧ t.keysrc = s.keysrc

/-- Every byte of `BUF`, and `LEN`. -/
def SameBuffer (s t : State) : Prop := (∀ a, t.buf.read a = s.buf.read a) ∧ t.len = s.len

/-- The flags that single commands write. -/
def SameFlags (s t : State) : Prop := t.verdict = s.verdict ∧ t.cmp = s.cmp ∧ t.lz = s.lz

/-- The control registers, `IR` and `HOSTERR`: no command writes them. -/
def SameControl (s t : State) : Prop :=
  t.rangeChk = s.rangeChk ∧ t.rounds = s.rounds ∧ t.ir = s.ir ∧ t.ier = s.ier ∧ t.hosterr = s.hosterr

/-- The parameter, the turns to come and the last answer on the host bus. -/
def SameInputs (s t : State) : Prop := t.cfg = s.cfg ∧ t.turns = s.turns ∧ t.reply = s.reply

/-! ### The ends of a command, and going on -/

/-- The command ends normally, and `effect` holds of the state after it (40_system_move.md R123). -/
def Completes (i : Instr) (s : State) (effect : State → Prop) : Prop :=
  ∃ t, exec i s = .next t ∧ t.st = .idle ∧ t.phase = .none ∧ t.h = Temps.zero ∧ t.isr = s.isr ||| 1 ∧ t.err = s.err ∧
    SameControl s t ∧ SameInputs s t ∧ effect t

/-- Exactly register `rd` is written, and `KEYSRC` becomes 2 when it is a key register (10_state.md R26). -/
def Wrote (s t : State) (rd : RegId) (v : Nat) : Prop :=
  t.reg rd = v ∧ (∀ i, i ≠ rd → t.reg i = s.reg i) ∧ t.keysrc = if rd.val ≤ 7 then .modified else s.keysrc

/-- The command completes, writing `v` to `rd` and nothing else. -/
def Delivers (i : Instr) (s : State) (rd : RegId) (v : Nat) : Prop :=
  Completes i s fun t => Wrote s t rd v ∧ t.ctx = s.ctx ∧ t.rng = s.rng ∧ SameBuffer s t ∧ SameFlags s t

/-- The command completes, writing `v` to `rd` and clearing the Montgomery context, and nothing else (10_state.md R43). -/
def EngineDelivers (i : Instr) (s : State) (rd : RegId) (v : Nat) : Prop :=
  Completes i s fun t => Wrote s t rd v ∧ t.ctx = MontCtx.empty ∧ t.rng = s.rng ∧ SameBuffer s t ∧ SameFlags s t

/-- The command completes with a verdict, no register written (44_primegen.md R204). -/
def GivesVerdict (i : Instr) (s : State) (v : Verdict) (ctx : MontCtx) (rng : List RngAnswer) : Prop :=
  Completes i s fun t => t.verdict = v ∧ t.cmp = s.cmp ∧ t.lz = s.lz ∧ t.ctx = ctx ∧ t.rng = rng ∧ SameRegs s t ∧ SameBuffer s t

/-- The command ends in `ERROR` with a recoverable fault and has changed nothing else (60_exceptions.md R290, R291). -/
def Faults (i : Instr) (s : State) (c : Cause) (info : BitVec 8) : Prop :=
  ∃ t, exec i s = .next t ∧ t.err = some ⟨c, info⟩ ∧ t.st = .error ∧ t.phase = .none ∧ t.h = Temps.zero ∧ t.isr = s.isr ||| 2 ∧
    t.ctx = s.ctx ∧ t.rng = s.rng ∧ SameRegs s t ∧ SameBuffer s t ∧ SameFlags s t ∧ SameControl s t ∧ SameInputs s t

/-- The command ends in `FATAL`: as `Faults`, and the context is cleared (60_exceptions.md R290). -/
def FailsFatally (i : Instr) (s : State) (c : Cause) (info : BitVec 8) (rng : List RngAnswer) : Prop :=
  ∃ t, exec i s = .next t ∧ t.err = some ⟨c, info⟩ ∧ t.st = .fatal ∧ t.phase = .none ∧ t.h = Temps.zero ∧ t.isr = s.isr ||| 4 ∧
    t.ctx = MontCtx.empty ∧ t.rng = rng ∧ SameRegs s t ∧ SameBuffer s t ∧ SameFlags s t ∧ SameControl s t ∧ SameInputs s t

/-- The command goes on at the label `l` with the temporaries `h`; nothing the host can read has changed but `PHASE` and the context. -/
def GoesOn (i : Instr) (s : State) (l : Phase) (h : Temps) (ctx : MontCtx) (rng : List RngAnswer) : Prop :=
  ∃ t, exec i s = .next t ∧ t.phase = l ∧ t.h = h ∧ t.ctx = ctx ∧ t.rng = rng ∧ t.st = s.st ∧ t.isr = s.isr ∧ t.err = s.err ∧
    SameRegs s t ∧ SameBuffer s t ∧ SameFlags s t ∧ SameControl s t ∧ SameInputs s t

/-! ### The blocks that PRIMEGEN and GENKEY share (44_primegen.md R207, 45_keygen.md R221) -/

/-- A block that draws a candidate of `k` bits: wait, fail, or classify the candidate. The bits of an answer from bit `k` up are discarded
(log 4); that waiting for an answer is a step that changes nothing is the model's (log 3). -/
def CandidateBlock (i : Instr) (s : State) (k : Nat) (trials check : Phase) : Prop :=
  (s.rng = [] → exec i s = .next s) ∧
  (∀ rest, s.rng = .fail :: rest → FailsFatally i s .entropy 0 rest) ∧
  ∀ u rest, s.rng = .value u :: rest → ∀ c, c = (u % 2 ^ k) ||| 1 ||| 2 ^ (k - 1) →
    (c = 1 → GoesOn i s check { s.h with cand := c, v := .composite } s.ctx rest) ∧
    (c = 3 → GoesOn i s check { s.h with cand := c, v := .prime } s.ctx rest) ∧
    (5 ≤ c → ∃ e o, o % 2 = 1 ∧ c - 1 = 2 ^ e * o ∧ GoesOn i s trials { s.h with cand := c, s := e, t := o, i := 0 } s.ctx rest) ∧
    (c = 1 ∨ c = 3 ∨ 5 ≤ c)

/-- A trial's draw: wait, fail, or discard a base outside `[2, cand-2]`; `used` says what an accepted base does. The bits of an answer above
the length asked for are discarded (log 4); that waiting for an answer is a step that changes nothing is the model's (log 3). -/
def TrialDraw (i : Instr) (s : State) (again : Phase) (used : Nat → List RngAnswer → Prop) : Prop :=
  (s.rng = [] → exec i s = .next s) ∧
  (∀ rest, s.rng = .fail :: rest → FailsFatally i s .entropy 0 rest) ∧
  ∀ u rest, s.rng = .value u :: rest → ∀ a, a = u % 2 ^ bitlen s.h.cand →
    ((a < 2 ∨ s.h.cand < a + 2) → GoesOn i s again s.h s.ctx rest) ∧
    (2 ≤ a → a + 2 ≤ s.h.cand → used a rest)

/-- A trial block: the verdict goes to `h.v` and the label `check`. -/
def TrialBlock (i : Instr) (s : State) (again check : Phase) : Prop :=
  TrialDraw i s again fun a rest =>
    (ptTrial s.h.cand s.h.s s.h.t a = false → GoesOn i s check { s.h with v := .composite } s.ctx rest) ∧
    (ptTrial s.h.cand s.h.s s.h.t a = true → s.h.i + 1 = s.rounds.toNat →
      GoesOn i s check { s.h with i := s.h.i + 1, v := .probablyPrime } s.ctx rest) ∧
    (ptTrial s.h.cand s.h.s s.h.t a = true → s.h.i + 1 ≠ s.rounds.toNat →
      GoesOn i s again { s.h with i := s.h.i + 1 } s.ctx rest)

/-- The parameter checks before any draw: the bit length in `[least, W]`, then `ROUNDS` (60_exceptions.md R285). -/
def ChecksParameters (i : Instr) (s : State) (least bits : Nat) (first : Phase) : Prop :=
  ((bits < least ∨ s.cfg.w < bits) → Faults i s .param 1) ∧
  (least ≤ bits → bits ≤ s.cfg.w → s.rounds = 0 → Faults i s .param 2) ∧
  (least ≤ bits → bits ≤ s.cfg.w → s.rounds ≠ 0 → GoesOn i s first s.h MontCtx.empty s.rng)

/-! ### Commands as functions of their operands, for laws that combine several -/

/-- What register `rd` holds after the command. -/
def resultIn (rd : RegId) (i : Instr) (s : State) : Nat :=
  match exec i s with
  | .next t => t.reg rd
  | _ => 0

/-- `MMUL(a, b)` under the context of `s`. -/
def mmulOf (s : State) (a b : Nat) : Nat :=
  resultIn RegId.t2 (.mmul RegId.t2 RegId.t0 RegId.t1) ((s.setReg RegId.t0 a).setReg RegId.t1 b)

/-- `MTO(a)`. -/
def mtoOf (s : State) (a : Nat) : Nat := resultIn RegId.t1 (.mto RegId.t1 RegId.t0) (s.setReg RegId.t0 a)

/-- `MFROM(a)`. -/
def mfromOf (s : State) (a : Nat) : Nat := resultIn RegId.t1 (.mfrom RegId.t1 RegId.t0) (s.setReg RegId.t0 a)

/-! ### Keys -/

/-- The hypotheses of 47_cipher_crt.md R268, with the odd primes that `DECRYPT` accepts (R266). -/
structure PrimeKey (s : State) : Prop where
  modulus  : s.reg 0 = s.reg 3 * s.reg 4
  primes   : Nat.Prime (s.reg 3) ∧ Nat.Prime (s.reg 4)
  distinct : s.reg 3 ≠ s.reg 4
  odd      : s.reg 3 % 2 = 1 ∧ s.reg 4 % 2 = 1
  exponent : s.reg 2 * s.reg 1 % ((s.reg 3 - 1) * (s.reg 4 - 1)) = 1
  crt      : s.reg 5 = s.reg 2 % (s.reg 3 - 1) ∧ s.reg 6 = s.reg 2 % (s.reg 4 - 1) ∧ s.reg 7 * s.reg 4 % s.reg 3 = 1

/-- The postconditions 1 to 5 of a `GENKEY` of `bits` bits (45_keygen.md R225). -/
structure GeneratedKey (t : State) (bits : Nat) : Prop where
  modulus  : t.reg 0 = t.reg 3 * t.reg 4
  distinct : t.reg 3 ≠ t.reg 4
  odd      : t.reg 3 % 2 = 1 ∧ t.reg 4 % 2 = 1
  lengths  : bitlen (t.reg 3) = bits / 2 ∧ bitlen (t.reg 4) = bits - bits / 2
  coprime  : Nat.gcd (t.reg 1) (t.reg 3 - 1) = 1 ∧ Nat.gcd (t.reg 1) (t.reg 4 - 1) = 1
  exponent : t.reg 2 * t.reg 1 % ((t.reg 3 - 1) * (t.reg 4 - 1)) = 1
  crt      : t.reg 5 = t.reg 2 % (t.reg 3 - 1) ∧ t.reg 6 = t.reg 2 % (t.reg 4 - 1) ∧ t.reg 7 * t.reg 4 % t.reg 3 = 1
  bounds   : ∀ i ∈ ([2, 5, 6, 7] : List RegId), 0 < t.reg i ∧ t.reg i < t.reg 0

/-! ### Commands by what they write (10_state.md R22, R43, R51) -/

/-- The register that the command's rule names as its destination; `GENKEY` writes the key bank instead. -/
def dest : Instr → Option RegId
  | .mov rd _ | .ldi rd _ | .add rd _ _ | .sub rd _ _ | .mul rd _ _ | .mod rd _ _ | .gcd rd _ _ | .modinv rd _ _ | .bitlen rd _
  | .mmul rd _ _ | .mto rd _ | .mfrom rd _ | .modexp rd _ _ _ | .cand rd _ | .primegen rd _ | .encode rd | .crt rd _ _
  | .encrypt rd _ | .decrypt rd _ => some rd
  | .nop | .cmp _ _ | .msetup _ | .ptest _ | .genkey _ | .decode _ => none

/-- The commands that run the exponentiation engine and clear the context (10_state.md R43). -/
def usesEngine : Instr → Bool
  | .modexp _ _ _ _ | .ptest _ | .primegen _ _ | .genkey _ | .encrypt _ _ | .decrypt _ _ => true
  | .nop | .mov _ _ | .ldi _ _ | .cmp _ _ | .add _ _ _ | .sub _ _ _ | .mul _ _ _ | .mod _ _ _ | .gcd _ _ _ | .modinv _ _ _
  | .bitlen _ _ | .msetup _ | .mmul _ _ _ | .mto _ _ | .mfrom _ _ | .cand _ _ | .encode _ | .decode _ | .crt _ _ _ => false

/-! ### The two agents -/

/-- The sequencer moves next, on the command `i`. -/
def Runs (s : State) (i : Instr) : Prop := s.turn = .sequencer ∧ s.st = .busy ∧ decode s.ir = .command i

/-- The host moves next, with a legal access. -/
def HostReads (s : State) (a : Nat) : Prop := s.turn = .host ⟨a, 4, .read⟩ ∧ a % 4 = 0 ∧ a ≤ 0xFFFC
def HostWrites (s : State) (a : Nat) (v : Word) : Prop := s.turn = .host ⟨a, 4, .write v⟩ ∧ a % 4 = 0 ∧ a ≤ 0xFFFC

/-- The state after a host access that the block answers with `r`, and in which only `HOSTERR` may be new. -/
def answered (s : State) (r : BusReply) (hosterr : Bool) : State :=
  { s with turns := s.turns.tail, reply := r, hosterr := hosterr }

/-- The host's address of word `j` of `x[i]` (20_memory.md R71). -/
def xAddr (i : RegId) (j : Nat) : Nat := 0x4000 + 0x400 * i.val + 4 * j

/-- The words of the windows: registers, `MN`, `MRR`, `BUF` (20_memory.md R71). -/
def IsWindow (c : Config) (a : Nat) : Prop :=
  (∃ i j, j < c.wwords ∧ a = xAddr i j) ∨ ∃ j, j < c.wwords ∧ (a = 0x8000 + 4 * j ∨ a = 0x8400 + 4 * j ∨ a = 0xC000 + 4 * j)

/-- The words of the windows that the host may write (20_memory.md R71). -/
def IsWritableWindow (c : Config) (a : Nat) : Prop :=
  (∃ i j, j < c.wwords ∧ a = xAddr i j) ∨ ∃ j, j < c.wwords ∧ a = 0xC000 + 4 * j

/-- Two states that differ at most in the flags, the interrupt registers and `KEYSRC` (10_state.md R51). -/
def SameButFlags (s t : State) : Prop :=
  t = { s with verdict := t.verdict, cmp := t.cmp, lz := t.lz, keysrc := t.keysrc, hosterr := t.hosterr, ier := t.ier, isr := t.isr }

/-- Two states that differ at most in what a running command works on. -/
def SameButOperands (s t : State) : Prop :=
  t = { s with x := t.x, buf := t.buf, len := t.len, rangeChk := t.rangeChk, rounds := t.rounds, h := t.h,
               ctx := { t.ctx with valid := s.ctx.valid } }

/-- No reset is to come, and the port fails no draw. -/
def NeitherResetNorFail (s : State) : Prop := (∀ a ∈ s.turns, a ≠ .reset) ∧ ∀ a ∈ s.rng, a ≠ .fail

/-- The commands of 70_reset_and_hazards.md R332 that never end, by their parameters. -/
def NeverEnds (s : State) : Instr → Prop
  | .primegen _ k => k = 1
  | .genkey bits => s.reg 1 % 2 = 0 ∨ (2 ≤ bits ∧ bits ≤ 4)
  | _ => False

end Sys2Proof.Claims

open Sys2Proof Sys2Proof.Machine Sys2Proof.Claims

/-! ## Encoding -/

/-- Decoding the word of a well-formed command gives the command back, every operand at every value (30_encoding.md R101 to R105). -/
def Obligations.DecodeOfEncode : Prop := ∀ i : Instr, i.wellFormed = true → decode (encode i) = .command i

/-- Every word that decodes to a command is that command's word, and the command is well formed: no bit is ignored
(30_encoding.md R101, R104: a field that a command does not use must be 0). -/
def Obligations.EncodeOfDecode : Prop := ∀ (w : Word) (i : Instr), decode w = .command i → i.wellFormed = true ∧ encode i = w

/-- 30_encoding.md R105: at most one row matches; the row's command with its fields; else why the word is illegal; decoding happens in
the sequencer's first step, not at the `CMD` write. -/
def Obligations.DecodeFollowsTable : Prop :=
  (∀ w : Word, (opcodeTable.filter fun r => r.accepts w).length ≤ 1) ∧
  (∀ w : Word, ∀ r ∈ opcodeTable, w &&& r.mask = r.pattern → decode w = .command (r.build w)) ∧
  (∀ w : Word, (rdField w).val = w.toNat / 2 ^ 20 % 16 ∧ (rs1Field w).val = w.toNat / 2 ^ 16 % 16 ∧
    (rs2Field w).val = w.toNat / 2 ^ 12 % 16 ∧ (rs3Field w).val = w.toNat / 2 ^ 8 % 16 ∧ immField w = w.toNat % 2 ^ 16) ∧
  (∀ w : Word, (∀ r ∈ opcodeTable, w &&& r.mask ≠ r.pattern) →
    ((∀ r ∈ opcodeTable, r.opcode.toNat ≠ w.toNat / 2 ^ 24) → decode w = .illegal .unknownOpcode) ∧
    ((∃ r ∈ opcodeTable, r.opcode.toNat = w.toNat / 2 ^ 24) → decode w = .illegal .reservedField)) ∧
  Illegal.unknownOpcode.info = 1 ∧ Illegal.reservedField.info = 2 ∧
  (∀ (s : State) (w : Word), s.turn = .sequencer →
    s.issue w = { s with ir := w, st := .busy, phase := .exec } ∧
    ∀ why, decode w = .illegal why → step (s.issue w) = .next ((s.issue w).takeTurn.raise .illegalCmd why.info))

/-- The formats of 30_encoding.md R101 to R103: where the opcode, the register fields and the immediate of each command stand in its word. -/
def Obligations.WordLayout : Prop :=
  let r : Nat → RegId → RegId → RegId → RegId → Nat := fun op rd rs1 rs2 rs3 =>
    op * 2 ^ 24 + rd.val * 2 ^ 20 + rs1.val * 2 ^ 16 + rs2.val * 2 ^ 12 + rs3.val * 2 ^ 8
  (encode .nop).toNat = 0 ∧
  (∀ a b c d : RegId,
    (encode (.mov a b)).toNat = r 0x01 a b 0 0 ∧ (encode (.cmp b c)).toNat = r 0x03 0 b c 0 ∧
    (encode (.add a b c)).toNat = r 0x10 a b c 0 ∧ (encode (.sub a b c)).toNat = r 0x11 a b c 0 ∧
    (encode (.mul a b c)).toNat = r 0x12 a b c 0 ∧ (encode (.mod a b c)).toNat = r 0x13 a b c 0 ∧
    (encode (.gcd a b c)).toNat = r 0x14 a b c 0 ∧ (encode (.modinv a b c)).toNat = r 0x15 a b c 0 ∧
    (encode (.bitlen a b)).toNat = r 0x16 a b 0 0 ∧ (encode (.msetup b)).toNat = r 0x20 0 b 0 0 ∧
    (encode (.mmul a b c)).toNat = r 0x21 a b c 0 ∧ (encode (.mto a b)).toNat = r 0x22 a b 0 0 ∧
    (encode (.mfrom a b)).toNat = r 0x23 a b 0 0 ∧ (encode (.modexp a b c d)).toNat = r 0x30 a b c d ∧
    (encode (.ptest b)).toNat = r 0x41 0 b 0 0 ∧ (encode (.encode a)).toNat = r 0x50 a 0 0 0 ∧
    (encode (.decode b)).toNat = r 0x51 0 b 0 0 ∧ (encode (.crt a b c)).toNat = r 0x60 a b c 0 ∧
    (encode (.encrypt a b)).toNat = r 0x61 a b 0 0 ∧ (encode (.decrypt a b)).toNat = r 0x62 a b 0 0) ∧
  (∀ (a : RegId) (v : Nat), v < 2 ^ 16 →
    (encode (.ldi a v)).toNat = 0x02 * 2 ^ 24 + a.val * 2 ^ 20 + v ∧ (encode (.cand a v)).toNat = 0x40 * 2 ^ 24 + a.val * 2 ^ 20 + v ∧
    (encode (.primegen a v)).toNat = 0x42 * 2 ^ 24 + a.val * 2 ^ 20 + v ∧ (encode (.genkey v)).toNat = 0x48 * 2 ^ 24 + v)

/-- The encoding examples of 30_encoding.md R113: each line assembles to a command whose word is the one given, and which that word decodes
to; the five illegal words are illegal for the reason given. -/
def Obligations.EncodingExamples : Prop :=
  (∀ p ∈ ([("NOP", 0x00000000), ("MOV t0, p", 0x01A30000), ("MOV x10, x3", 0x01A30000), ("LDI t0, 1", 0x02A00001),
      ("CMP t0, t1", 0x030AB000), ("ADD t2, t0, t1", 0x10CAB000), ("SUB t0, p, t1", 0x11A3B000), ("SUB x10, x3, x11", 0x11A3B000),
      ("BITLEN t0, n", 0x16A00000), ("MSETUP n", 0x20000000), ("MMUL t2, t0, t1", 0x21CAB000), ("MTO t0, m", 0x22A80000)]
      : List (String × Word)),
    ∃ i, assemble p.1.toList = some i ∧ encode i = p.2 ∧ decode p.2 = .command i) ∧
  (∀ p ∈ ([("MFROM m, t0", 0x238A0000), ("MODEXP c, m, e, n", 0x30981000), ("MODEXP x9, x8, x1, x0", 0x30981000),
      ("CAND t0, 8", 0x40A00008), ("PTEST t0", 0x410A0000), ("PRIMEGEN t0, 6", 0x42A00006), ("GENKEY 12", 0x4800000C),
      ("GENKEY 2048", 0x48000800), ("ENCODE m", 0x50800000), ("DECODE m", 0x51080000), ("CRT m, t0, t1", 0x608AB000),
      ("ENCRYPT c, m", 0x61980000), ("DECRYPT m, c", 0x62890000)] : List (String × Word)),
    ∃ i, assemble p.1.toList = some i ∧ encode i = p.2 ∧ decode p.2 = .command i) ∧
  decode 0x04000000 = .illegal .unknownOpcode ∧ decode 0x00000001 = .illegal .reservedField ∧
  decode 0x01A30001 = .illegal .reservedField ∧ decode 0x48100800 = .illegal .reservedField ∧
  decode 0x03100000 = .illegal .reservedField

/-! ## Steps -/

/-- A step of the sequencer while it is `BUSY` runs the command that `IR` decodes to; only the turn is used up
(40_system_move.md R121, R124; 20_memory.md R83). The list of turns, and decoding `IR` again at each block, are the model's (log 2, 10). -/
def Obligations.StepRunsDecodedCommand : Prop :=
  ∀ (s : State) (i : Instr), s.turn = .sequencer → s.st = .busy → s.phase ≠ .none → decode s.ir = .command i →
    step s = exec i { s with turns := s.turns.tail }

/-- 30_encoding.md R106: an illegal word ends with `E_ILLEGAL_CMD` in the first step and changes nothing else; which words are illegal, those
of an unused opcode and those of a used one with a bit set that the command does not use (each opcode with its unused bits); no word but
`0x00000000` is a no-operation. -/
def Obligations.IllegalWordFaults : Prop :=
  (∀ (s : State) (why : Illegal), s.turn = .sequencer → s.st = .busy → s.phase = .exec → decode s.ir = .illegal why →
    ∃ t, step s = .next t ∧ t.err = some ⟨.illegalCmd, if why = .unknownOpcode then 1 else 2⟩ ∧ t.st = .error ∧ t.phase = .none ∧
      t.h = Temps.zero ∧ t.isr = s.isr ||| 2 ∧ t.ctx = s.ctx ∧ t.rng = s.rng ∧ t.cfg = s.cfg ∧ t.reply = s.reply ∧
      t.turns = s.turns.tail ∧ SameRegs s t ∧ SameBuffer s t ∧ SameFlags s t ∧ SameControl s t) ∧
  (∀ w : Word, decode w = .illegal .unknownOpcode ↔
    ∃ p ∈ ([(0x04, 0x0F), (0x17, 0x1F), (0x24, 0x2F), (0x31, 0x3F), (0x43, 0x47), (0x49, 0x4F), (0x52, 0x5F), (0x63, 0xFF)]
      : List (Nat × Nat)), p.1 ≤ w.toNat / 2 ^ 24 ∧ w.toNat / 2 ^ 24 ≤ p.2) ∧
  (∀ w : Word, decode w = .illegal .reservedField ↔
    ∃ p ∈ ([(0x00, 0x00FFFFFF), (0x01, 0x0000FFFF), (0x02, 0x000F0000), (0x03, 0x00F00FFF), (0x10, 0x00000FFF), (0x11, 0x00000FFF),
        (0x12, 0x00000FFF), (0x13, 0x00000FFF), (0x14, 0x00000FFF), (0x15, 0x00000FFF), (0x16, 0x0000FFFF), (0x20, 0x00F0FFFF),
        (0x21, 0x00000FFF), (0x22, 0x0000FFFF), (0x23, 0x0000FFFF), (0x30, 0x000000FF), (0x40, 0x000F0000), (0x41, 0x00F0FFFF),
        (0x42, 0x000F0000), (0x48, 0x00FF0000), (0x50, 0x000FFFFF), (0x51, 0x00F0FFFF), (0x60, 0x00000FFF), (0x61, 0x0000FFFF),
        (0x62, 0x0000FFFF)] : List (Nat × Word)), w.toNat / 2 ^ 24 = p.1 ∧ w &&& p.2 ≠ 0) ∧
  (∀ w : Word, decode w = .command .nop ↔ w = 0)

/-- 40_system_move.md R120: a host write to `0x0010` in `IDLE` issues the word, undecoded; in any other state it is dropped and sets
`HOSTERR`. -/
def Obligations.IssueLatchesWord : Prop :=
  ∀ (s : State) (v : Word), s.turn = .host ⟨0x0010, 4, .write v⟩ →
    (s.st = .idle → step s = .next { s with ir := v, st := .busy, phase := .exec, turns := s.turns.tail, reply := .done }) ∧
    (s.st ≠ .idle → step s = .next (answered s .done true))

/-- A sequencer that is not `BUSY` has no step, and a step that needs a draw has none until the port answers: the turn passes and the state
stays (00_scope.md R12, 40_system_move.md R124). That such a turn is a step of the model is the model's choice (log 3, 5). A step takes
exactly one answer from the port when it asks for a draw, and none otherwise (44_primegen.md R191, R204, R207, 45_keygen.md R223). That a
reset keeps the answers to come is the model's reading (log 13). -/
def Obligations.DrawsAndWaits : Prop :=
  ∀ s : State,
    (s.turn = .sequencer → s.st ≠ .busy → step s = .next { s with turns := s.turns.tail }) ∧
    (∀ k, s.turn = .sequencer → s.rngRequest = some k → s.rng = [] → step s = .next { s with turns := s.turns.tail }) ∧
    ∀ t, s.Inv → step s = .next t →
      (∀ k, s.turn = .sequencer → s.rngRequest = some k → t.rng = s.rng.tail) ∧
      (s.turn = .sequencer → s.rngRequest = none → t.rng = s.rng) ∧ (s.turn ≠ .sequencer → t.rng = s.rng)

/-! ## Move, compare and exact integers -/

/-- `NOP`, `CMP`, `MOV`, `LDI` (40_system_move.md R125 to R128): `NOP` and `CMP` change no register, no buffer byte and no context, and `CMP` sets
its flag; `MOV` and `LDI` write their destination and nothing else. -/
def Obligations.MoveAndCompare : Prop :=
  ∀ (s : State) (rd rs1 rs2 : RegId) (imm16 : Nat), imm16 < 2 ^ 16 →
    Completes .nop s (fun t => SameRegs s t ∧ t.ctx = s.ctx ∧ t.rng = s.rng ∧ SameBuffer s t ∧ SameFlags s t) ∧
    Completes (.cmp rs1 rs2) s (fun t => SameRegs s t ∧ t.ctx = s.ctx ∧ t.rng = s.rng ∧ SameBuffer s t ∧
      t.verdict = s.verdict ∧ t.lz = s.lz ∧
      t.cmp.code = if s.reg rs1 = s.reg rs2 then 0 else if s.reg rs1 < s.reg rs2 then 1 else 2) ∧
    Delivers (.mov rd rs1) s rd (s.reg rs1) ∧ Delivers (.ldi rd imm16) s rd imm16

/-- `ADD`, `SUB`, `MUL` (41_arith.md R140 to R143): the exact result; `E_OVERFLOW` or `E_NEGATIVE` with nothing written. -/
def Obligations.AddSubMul : Prop :=
  ∀ (s : State) (rd rs1 rs2 : RegId),
    (s.reg rs1 + s.reg rs2 < 2 ^ s.cfg.w → Delivers (.add rd rs1 rs2) s rd (s.reg rs1 + s.reg rs2)) ∧
    (2 ^ s.cfg.w ≤ s.reg rs1 + s.reg rs2 → Faults (.add rd rs1 rs2) s .overflow 0) ∧
    (∀ v, s.reg rs1 = s.reg rs2 + v → Delivers (.sub rd rs1 rs2) s rd v) ∧
    (s.reg rs1 < s.reg rs2 → Faults (.sub rd rs1 rs2) s .negative 0) ∧
    (s.reg rs1 * s.reg rs2 < 2 ^ s.cfg.w → Delivers (.mul rd rs1 rs2) s rd (s.reg rs1 * s.reg rs2)) ∧
    (2 ^ s.cfg.w ≤ s.reg rs1 * s.reg rs2 → Faults (.mul rd rs1 rs2) s .overflow 0)

/-- `MOD`, `GCD`, `BITLEN` (41_arith.md R144, R145, R147): the remainder in `[0, b)`, or `E_DIVZERO(rs2)`; the greatest common divisor, 0 for two
zeros; the `L` with `2^(L-1) ≤ v < 2^L`, 0 for 0. -/
def Obligations.ModGcdBitlen : Prop :=
  ∀ (s : State) (rd rs1 rs2 : RegId),
    (s.reg rs2 ≠ 0 → ∃ v q, v < s.reg rs2 ∧ s.reg rs1 = q * s.reg rs2 + v ∧ Delivers (.mod rd rs1 rs2) s rd v) ∧
    (s.reg rs2 = 0 → Faults (.mod rd rs1 rs2) s .divZero (BitVec.ofNat 8 rs2.val)) ∧
    (∃ g, Delivers (.gcd rd rs1 rs2) s rd g ∧ g ∣ s.reg rs1 ∧ g ∣ s.reg rs2 ∧ ∀ d, d ∣ s.reg rs1 → d ∣ s.reg rs2 → d ∣ g) ∧
    (s.reg rs1 = 0 → Delivers (.bitlen rd rs1) s rd 0) ∧
    (∀ L, 1 ≤ L → 2 ^ (L - 1) ≤ s.reg rs1 → s.reg rs1 < 2 ^ L → Delivers (.bitlen rd rs1) s rd L)

/-- `MODINV` (41_arith.md R146): the unique inverse in `[0, m)`; `E_DIVZERO(rs2)`, then `E_NOT_INVERTIBLE`. -/
def Obligations.ModinvCommand : Prop :=
  ∀ (s : State) (rd rs1 rs2 : RegId),
    (s.reg rs2 ≠ 0 → Nat.gcd (s.reg rs1) (s.reg rs2) = 1 →
      ∃ v, Delivers (.modinv rd rs1 rs2) s rd v ∧ v < s.reg rs2 ∧ s.reg rs1 * v % s.reg rs2 = 1 % s.reg rs2 ∧
        ∀ v', v' < s.reg rs2 → s.reg rs1 * v' % s.reg rs2 = 1 % s.reg rs2 → v' = v) ∧
    (s.reg rs2 = 0 → Faults (.modinv rd rs1 rs2) s .divZero (BitVec.ofNat 8 rs2.val)) ∧
    (s.reg rs2 ≠ 0 → Nat.gcd (s.reg rs1) (s.reg rs2) ≠ 1 → Faults (.modinv rd rs1 rs2) s .notInvertible 0)

/-! ## The Montgomery multiplier and the exponentiation engine -/

/-- `MSETUP` (42_montgomery.md R160, R161): the context of an odd modulus, or `E_EVEN_MODULUS(rs1)` with the old context kept. -/
def Obligations.MsetupCommand : Prop :=
  ∀ (s : State) (rs1 : RegId),
    (s.cfg.Admissible → s.reg rs1 < 2 ^ s.cfg.w → s.reg rs1 % 2 = 1 →
      Completes (.msetup rs1) s fun t => SameRegs s t ∧ t.rng = s.rng ∧ SameBuffer s t ∧ SameFlags s t ∧
        t.ctx.valid = true ∧ t.ctx.mn = s.reg rs1 ∧ 1 ≤ t.ctx.mlen.toNat ∧
        s.reg rs1 < 2 ^ (32 * t.ctx.mlen.toNat) ∧ (1 < t.ctx.mlen.toNat → 2 ^ (32 * (t.ctx.mlen.toNat - 1)) ≤ s.reg rs1) ∧
        s.reg rs1 * t.ctx.mn0inv.toNat % 2 ^ 32 = 2 ^ 32 - 1 ∧ t.ctx.mrr = 2 ^ (64 * t.ctx.mlen.toNat) % s.reg rs1) ∧
    (s.reg rs1 % 2 = 0 → Faults (.msetup rs1) s .evenModulus (BitVec.ofNat 8 rs1.val))

/-- `MMUL`, `MTO`, `MFROM` (42_montgomery.md R162 to R164): the `v` in `[0, N)` with `v*R ≡ a*b (mod N)`; `a*R mod N`; the `v` with `v*R ≡ a`;
the faults `E_NO_MCTX`, `E_OPERAND_RANGE(1)`, `E_OPERAND_RANGE(2)` in their order. -/
def Obligations.MontgomeryCommands : Prop :=
  ∀ (s : State) (rd rs1 rs2 : RegId),
    (s.ctx.valid = true → s.ctx.mn % 2 = 1 → s.reg rs1 < s.ctx.mn →
      (s.reg rs2 < s.ctx.mn → ∃ v, Delivers (.mmul rd rs1 rs2) s rd v ∧ v < s.ctx.mn ∧
        v * 2 ^ (32 * s.ctx.mlen.toNat) % s.ctx.mn = s.reg rs1 * s.reg rs2 % s.ctx.mn) ∧
      Delivers (.mto rd rs1) s rd (s.reg rs1 * 2 ^ (32 * s.ctx.mlen.toNat) % s.ctx.mn) ∧
      ∃ v, Delivers (.mfrom rd rs1) s rd v ∧ v < s.ctx.mn ∧ v * 2 ^ (32 * s.ctx.mlen.toNat) % s.ctx.mn = s.reg rs1) ∧
    (s.ctx.valid = false → Faults (.mmul rd rs1 rs2) s .noMctx 0 ∧ Faults (.mto rd rs1) s .noMctx 0 ∧ Faults (.mfrom rd rs1) s .noMctx 0) ∧
    (s.ctx.valid = true → s.ctx.mn ≤ s.reg rs1 → Faults (.mmul rd rs1 rs2) s .operandRange 1 ∧
      Faults (.mto rd rs1) s .operandRange 1 ∧ Faults (.mfrom rd rs1) s .operandRange 1) ∧
    (s.ctx.valid = true → s.reg rs1 < s.ctx.mn → s.ctx.mn ≤ s.reg rs2 → Faults (.mmul rd rs1 rs2) s .operandRange 2)

/-- The five laws of 42_montgomery.md R165, of the commands' results under any valid context. -/
def Obligations.MontgomeryLaws : Prop :=
  ∀ s : State, s.cfg.Admissible → s.ctx.Ok (2 ^ s.cfg.w) → s.ctx.valid = true →
    ∀ a b, a < s.ctx.mn → b < s.ctx.mn →
      mmulOf s a b = mmulOf s b a ∧
      mfromOf s (mtoOf s a) = a ∧ mtoOf s (mfromOf s a) = a ∧
      mmulOf s (mtoOf s a) (mtoOf s b) = mtoOf s (a * b % s.ctx.mn) ∧
      mfromOf s (mmulOf s (mtoOf s a) (mtoOf s b)) = a * b % s.ctx.mn ∧
      mtoOf s a = mmulOf s a s.ctx.mrr ∧ (1 < s.ctx.mn → mfromOf s a = mmulOf s a 1) ∧
      (s.ctx.mn = 1 → mtoOf s a = 0 ∧ mfromOf s a = 0 ∧ mmulOf s a b = 0) ∧
      mmulOf s a (mtoOf s b) = a * b % s.ctx.mn

/-- The word-serial algorithm of 42_montgomery.md R166 keeps its two invariants and computes the Montgomery product. -/
def Obligations.SerialProduct : Prop :=
  ∀ N a b : Nat, N % 2 = 1 → a < N → b < N →
    (∀ i, montSerial N (n0inv N) a b i * 2 ^ (32 * i) % N = a * (b % 2 ^ (32 * i)) % N ∧ montSerial N (n0inv N) a b i < a + N) ∧
    montMulSerial (limbs N) N (n0inv N) a b = montMul (limbs N) N a b

/-- `MODEXP` (43_modexp.md R180, R181): `b^e mod N` with `b^0 = 1`, the context cleared; `E_EVEN_MODULUS(rs3)`, the context kept. -/
def Obligations.ModexpCommand : Prop :=
  ∀ (s : State) (rd rs1 rs2 rs3 : RegId),
    (s.reg rs3 % 2 = 1 → EngineDelivers (.modexp rd rs1 rs2 rs3) s rd (s.reg rs1 ^ s.reg rs2 % s.reg rs3)) ∧
    (s.reg rs3 % 2 = 0 → Faults (.modexp rd rs1 rs2 rs3) s .evenModulus (BitVec.ofNat 8 rs3.val))

/-- The reference algorithm of 43_modexp.md R183, binary exponentiation over the word-serial product, gives `b^e mod N` for every odd `N`. -/
def Obligations.SerialExponentiation : Prop := ∀ b e N : Nat, N % 2 = 1 → modExpSerial b e N = b ^ e % N

/-! ## Primes -/

/-- 44_primegen.md R190: a candidate is odd, has exactly `k` bits, keeps the other bits of the draw. -/
def Obligations.CandidateShape : Prop :=
  ∀ k u : Nat, 1 ≤ k → u < 2 ^ k →
    candidate k u % 2 = 1 ∧ bitlen (candidate k u) = k ∧
    (2 ≤ k → 2 ^ (k - 1) + 1 ≤ candidate k u ∧ candidate k u ≤ 2 ^ k - 1) ∧
    (k = 1 → candidate k u = 1) ∧ (k = 2 → candidate k u = 3) ∧
    (∀ j, (candidate k u).testBit j = (u.testBit j || decide (j = 0) || decide (j = k - 1)))

/-- `CAND` (44_primegen.md R191). That a step without an answer waits, as a step that changes nothing, is the model's choice (log 3). -/
def Obligations.CandCommand : Prop :=
  ∀ (s : State) (rd : RegId) (k : Nat),
    ((k = 0 ∨ s.cfg.w < k) → Faults (.cand rd k) s .param 1) ∧
    (1 ≤ k → k ≤ s.cfg.w →
      (s.rng = [] → exec (.cand rd k) s = .next s) ∧
      (∀ rest, s.rng = .fail :: rest → FailsFatally (.cand rd k) s .entropy 0 rest) ∧
      ∀ u rest, s.rng = .value u :: rest → u < 2 ^ k →
        Completes (.cand rd k) s fun t =>
          Wrote s t rd (u ||| 1 ||| 2 ^ (k - 1)) ∧ t.rng = rest ∧ t.ctx = s.ctx ∧ SameBuffer s t ∧ SameFlags s t)

/-- `PTEST`, its two blocks (44_primegen.md R201, R204). `EXEC`: `E_PARAM(2)`; a verdict at once for 0 to 3 and even numbers; else the trials.
`PT_TRIAL`: one trial with an acceptable base; the first that fails decides composite, the `ROUNDS`-th that passes probably prime. The
waiting step and the bits discarded of an answer are the model's (log 3, 4). -/
def Obligations.PtestBlocks : Prop :=
  ∀ (s : State) (rs1 : RegId),
    (s.phase = .exec →
      (s.rounds = 0 → Faults (.ptest rs1) s .param 2) ∧
      (s.rounds ≠ 0 →
        (s.reg rs1 < 2 → GivesVerdict (.ptest rs1) s .composite MontCtx.empty s.rng) ∧
        ((s.reg rs1 = 2 ∨ s.reg rs1 = 3) → GivesVerdict (.ptest rs1) s .prime MontCtx.empty s.rng) ∧
        (3 < s.reg rs1 → s.reg rs1 % 2 = 0 → GivesVerdict (.ptest rs1) s .composite MontCtx.empty s.rng) ∧
        (3 < s.reg rs1 → s.reg rs1 % 2 = 1 → ∃ e o, o % 2 = 1 ∧ s.reg rs1 - 1 = 2 ^ e * o ∧
          GoesOn (.ptest rs1) s .ptTrial { s.h with cand := s.reg rs1, s := e, t := o, i := 0 } MontCtx.empty s.rng))) ∧
    (s.phase = .ptTrial →
      TrialDraw (.ptest rs1) s .ptTrial fun a rest =>
        (ptTrial s.h.cand s.h.s s.h.t a = false → GivesVerdict (.ptest rs1) s .composite s.ctx rest) ∧
        (ptTrial s.h.cand s.h.s s.h.t a = true → s.h.i + 1 = s.rounds.toNat →
          GivesVerdict (.ptest rs1) s .probablyPrime s.ctx rest) ∧
        (ptTrial s.h.cand s.h.s s.h.t a = true → s.h.i + 1 ≠ s.rounds.toNat →
          GoesOn (.ptest rs1) s .ptTrial { s.h with i := s.h.i + 1 } s.ctx rest))

/-- What one trial decides (44_primegen.md R202): it passes exactly when `a^t` is 1 or some `a^(2^r * t)`, `r < s`, is `x - 1`. -/
def Obligations.TrialMeaning : Prop :=
  ∀ x s t a : Nat, 3 ≤ x → 1 ≤ s →
    (ptTrial x s t a = true ↔ a ^ t % x = 1 ∨ ∃ r, r < s ∧ a ^ (2 ^ r * t) % x = x - 1)

/-- 44_primegen.md R203 item 1: a prime passes every trial, so `PTEST` never gives it the verdict composite, whatever is drawn. -/
def Obligations.PrimeNeverComposite : Prop :=
  (∀ x e o a : Nat, Nat.Prime x → x - 1 = 2 ^ e * o → o % 2 = 1 → 5 ≤ x → 2 ≤ a → a + 2 ≤ x → ptTrial x e o a = true) ∧
  ∀ (s t : State) (rs1 : RegId), s.Inv → Runs s (.ptest rs1) →
    (s.phase = .exec → Nat.Prime (s.reg rs1)) → (s.phase = .ptTrial → Nat.Prime s.h.cand) →
    step s = .next t → t.st = .idle → t.verdict ≠ .composite

/-- 44_primegen.md R203 items 2 and 4, R205: a composite can get the verdict probably prime (221 with base 174), and only 2 and 3 get the
verdict prime. -/
def Obligations.VerdictsAreWhatTheySay : Prop :=
  (∃ (s t : State), s.Inv ∧ Runs s (.ptest RegId.t0) ∧ s.phase = .ptTrial ∧ s.h.cand = 13 * 17 ∧ s.rng = [.value 174] ∧
    step s = .next t ∧ t.st = .idle ∧ t.verdict = .probablyPrime) ∧
  ∀ (s t : State) (rs1 : RegId), Runs s (.ptest rs1) → step s = .next t → t.st = .idle → t.verdict = .prime →
    s.phase = .exec ∧ (s.reg rs1 = 2 ∨ s.reg rs1 = 3)

/-- 44_primegen.md R209: a test under way ends within as many steps as it has trials left, when each draw is an acceptable base. -/
def Obligations.PtestEnds : Prop :=
  ∀ (s : State) (rs1 : RegId) (us : List Nat) (rest : List RngAnswer), s.Inv → s.st = .busy → s.phase = .ptTrial →
    decode s.ir = .command (.ptest rs1) → s.turns = [] → s.rng = us.map .value ++ rest →
    (∀ u ∈ us, 2 ≤ u ∧ u + 2 ≤ s.h.cand) → s.rounds.toNat - s.h.i ≤ us.length →
    ∃ k t, k ≤ s.rounds.toNat - s.h.i ∧ Host.Core.run Sys2Proof.core k s = .next t ∧ t.st = .idle

/-- `PRIMEGEN`, its four blocks (44_primegen.md R207): the checks, the candidate, the trials, accept or resample. The waiting step and the
bits discarded of an answer are the model's (log 3, 4). -/
def Obligations.PrimegenBlocks : Prop :=
  ∀ (s : State) (rd : RegId) (k : Nat),
    (s.phase = .exec → ChecksParameters (.primegen rd k) s 1 k .pgCand) ∧
    (s.phase = .pgCand → CandidateBlock (.primegen rd k) s k .pgTrial .pgDecide) ∧
    (s.phase = .pgTrial → TrialBlock (.primegen rd k) s .pgTrial .pgDecide) ∧
    (s.phase = .pgDecide →
      (s.h.v ≠ .composite → Delivers (.primegen rd k) s rd s.h.cand) ∧
      (s.h.v = .composite → GoesOn (.primegen rd k) s .pgCand s.h s.ctx s.rng))

/-- The postcondition of 44_primegen.md R207 on the result of a `PRIMEGEN` that completes: odd, of exactly `k` bits, at least 3. That it
passed its trials is the history of the run and not in the state. -/
def Obligations.PrimegenResult : Prop :=
  ∀ (s t : State) (rd : RegId) (k : Nat), s.Inv → Runs s (.primegen rd k) → step s = .next t → t.st = .idle →
    t.reg rd % 2 = 1 ∧ bitlen (t.reg rd) = k ∧ 3 ≤ t.reg rd

/-! ## Keys -/

/-- `GENKEY`, the blocks before the commit (45_keygen.md R221 steps 1 to 3): the checks, the candidates of `pb` and `qb` bits, their trials,
the accept tests for `p` and `q`. The waiting step and the bits discarded of an answer are the model's (log 3, 4). -/
def Obligations.GenkeySearches : Prop :=
  ∀ (s : State) (bits : Nat),
    (s.phase = .exec → ChecksParameters (.genkey bits) s 2 bits .gpCand) ∧
    (s.phase = .gpCand → CandidateBlock (.genkey bits) s (bits / 2) .gpTrial .gpCheck) ∧
    (s.phase = .gpTrial → TrialBlock (.genkey bits) s .gpTrial .gpCheck) ∧
    (s.phase = .gpCheck →
      (s.h.v ≠ .composite → Nat.gcd (s.reg 1) (s.h.cand - 1) = 1 →
        GoesOn (.genkey bits) s .gqCand { s.h with p := s.h.cand } s.ctx s.rng) ∧
      ((s.h.v = .composite ∨ Nat.gcd (s.reg 1) (s.h.cand - 1) ≠ 1) → GoesOn (.genkey bits) s .gpCand s.h s.ctx s.rng)) ∧
    (s.phase = .gqCand → CandidateBlock (.genkey bits) s (bits - bits / 2) .gqTrial .gqCheck) ∧
    (s.phase = .gqTrial → TrialBlock (.genkey bits) s .gqTrial .gqCheck) ∧
    (s.phase = .gqCheck →
      (s.h.v ≠ .composite → s.h.cand ≠ s.h.p → Nat.gcd (s.reg 1) (s.h.cand - 1) = 1 →
        GoesOn (.genkey bits) s .gkDerive { s.h with q := s.h.cand } s.ctx s.rng) ∧
      ((s.h.v = .composite ∨ s.h.cand = s.h.p ∨ Nat.gcd (s.reg 1) (s.h.cand - 1) ≠ 1) →
        GoesOn (.genkey bits) s .gqCand s.h s.ctx s.rng))

/-- `GENKEY`, block `GK_DERIVE` (45_keygen.md R221 steps 4 to 7, R224): all seven registers in one step, `x1` and `x8` to `x15` kept, `KEYSRC`
1; or `F_INVARIANT(1)`, then `F_INVARIANT(2)`, with no register written. -/
def Obligations.GenkeyCommits : Prop :=
  ∀ (s : State) (bits : Nat), s.phase = .gkDerive → 2 ≤ s.h.p → 2 ≤ s.h.q →
    (Nat.gcd (s.reg 1) ((s.h.p - 1) * (s.h.q - 1)) = 1 → Nat.gcd s.h.q s.h.p = 1 →
      Completes (.genkey bits) s fun t =>
        t.reg 0 = s.h.p * s.h.q ∧ t.reg 3 = s.h.p ∧ t.reg 4 = s.h.q ∧
        t.reg 2 < (s.h.p - 1) * (s.h.q - 1) ∧
        s.reg 1 * t.reg 2 % ((s.h.p - 1) * (s.h.q - 1)) = 1 % ((s.h.p - 1) * (s.h.q - 1)) ∧
        t.reg 5 = t.reg 2 % (s.h.p - 1) ∧ t.reg 6 = t.reg 2 % (s.h.q - 1) ∧
        t.reg 7 < s.h.p ∧ s.h.q * t.reg 7 % s.h.p = 1 % s.h.p ∧
        t.reg 1 = s.reg 1 ∧ (∀ i : RegId, 8 ≤ i.val → t.reg i = s.reg i) ∧ t.keysrc = .generated ∧
        t.ctx = s.ctx ∧ t.rng = s.rng ∧ SameBuffer s t ∧ SameFlags s t) ∧
    (Nat.gcd (s.reg 1) ((s.h.p - 1) * (s.h.q - 1)) ≠ 1 → FailsFatally (.genkey bits) s .invariant 1 s.rng) ∧
    (Nat.gcd (s.reg 1) ((s.h.p - 1) * (s.h.q - 1)) = 1 → Nat.gcd s.h.q s.h.p ≠ 1 → FailsFatally (.genkey bits) s .invariant 2 s.rng)

/-- The postconditions of 45_keygen.md R225, but item 6, which is the history of the run, and R226: a `GENKEY` that completes leaves a valid key
whose modulus has `bits` bits or one less, the context cleared, and no register but `x0`, `x2` to `x7` changed. -/
def Obligations.GenkeyPostconditions : Prop :=
  ∀ (s t : State) (bits : Nat), s.Inv → Runs s (.genkey bits) → step s = .next t → t.st = .idle →
    GeneratedKey t bits ∧ t.keysrc = .generated ∧ t.ctx.valid = false ∧ t.isr.getLsbD 0 = true ∧
    t.reg 1 = s.reg 1 ∧ (∀ i : RegId, 8 ≤ i.val → t.reg i = s.reg i) ∧
    2 ^ (bits - 2) < t.reg 0 ∧ t.reg 0 < 2 ^ bits ∧ (bitlen (t.reg 0) = bits ∨ bitlen (t.reg 0) = bits - 1)

/-- 45_keygen.md R228: `F_INVARIANT(1)` is unreachable, `F_INVARIANT(2)` is not: `p = 49`, `q = 91` of the draw script of R232 item 8 raise it. -/
def Obligations.InvariantFaults : Prop :=
  (∀ s t : State, s.Inv → step s = .next t → t.err = some ⟨.invariant, 1⟩ → s.err = some ⟨.invariant, 1⟩) ∧
  ∃ s t : State, s.Inv ∧ Runs s (.genkey 13) ∧ s.reg 1 = 7 ∧ s.h.p = 49 ∧ s.h.q = 91 ∧ step s = .next t ∧
    t.err = some ⟨.invariant, 2⟩ ∧ t.st = .fatal

/-- 70_reset_and_hazards.md R332, 45_keygen.md R230: `PRIMEGEN rd, 1`, `GENKEY` with an even exponent and `GENKEY` of 2, 3 or 4 bits, past their
parameter checks, stay `BUSY` for ever, whatever numbers the port answers, until reset. -/
def Obligations.CommandsThatNeverEnd : Prop :=
  ∀ (s : State) (i : Instr), s.Inv → s.st = .busy → decode s.ir = .command i → NeverEnds s i →
    s.rounds ≠ 0 → (∀ b, i = .genkey b → 2 ≤ b ∧ b ≤ s.cfg.w) → NeitherResetNorFail s →
    ∀ k, ∃ t, Host.Core.run Sys2Proof.core k s = .next t ∧ t.st = .busy

/-! ## The codec -/

/-- `ENCODE` (46_codec.md R240, R242): the big-endian sum of the message, `LZ`; `E_PARAM(3)` with `LZ` unchanged. -/
def Obligations.EncodeCommand : Prop :=
  ∀ (s : State) (rd : RegId),
    (s.len.toNat ≤ s.cfg.bufBytes →
      Completes (.encode rd) s fun t =>
        Wrote s t rd (∑ i ∈ Finset.range s.len.toNat, (s.buf.read i).toNat * 256 ^ (s.len.toNat - 1 - i)) ∧
        (t.lz = true ↔ 0 < s.len.toNat ∧ s.buf.read 0 = 0) ∧ t.verdict = s.verdict ∧ t.cmp = s.cmp ∧
        t.ctx = s.ctx ∧ t.rng = s.rng ∧ SameBuffer s t) ∧
    (s.cfg.bufBytes < s.len.toNat → Faults (.encode rd) s .param 3)

/-- `DECODE` (46_codec.md R241, R244): the least number of bytes, most significant first, then zeros over the whole buffer. -/
def Obligations.DecodeCommand : Prop :=
  ∀ (s : State) (rs1 : RegId), s.cfg.Admissible → Memory.wf s.buf = true → s.reg rs1 < 2 ^ s.cfg.w →
    Completes (.decode rs1) s fun t =>
      s.reg rs1 < 256 ^ t.len.toNat ∧ (t.len.toNat ≠ 0 → 256 ^ (t.len.toNat - 1) ≤ s.reg rs1) ∧ t.len.toNat ≤ s.cfg.bufBytes ∧
      (∀ a, a < t.len.toNat → (t.buf.read a).toNat = s.reg rs1 / 256 ^ (t.len.toNat - 1 - a) % 256) ∧
      (∀ a, t.len.toNat ≤ a → a < s.cfg.bufBytes → t.buf.read a = 0) ∧
      (∀ a, s.cfg.bufBytes ≤ a → t.buf.read a = s.buf.read a) ∧
      t.ctx = s.ctx ∧ t.rng = s.rng ∧ SameRegs s t ∧ SameFlags s t

/-- 46_codec.md R245, R246: `DECODE rs1` then `ENCODE rd` gives the integer back, with `LZ = 0`; `ENCODE rd` then `DECODE rd` gives the message
without its `z` leading zero bytes, and `LZ` says whether any was lost. -/
def Obligations.CodecRoundTrips : Prop :=
  ∀ (s : State) (rd rs1 : RegId), s.cfg.Admissible → Memory.wf s.buf = true →
    (s.reg rs1 < 2 ^ s.cfg.w →
      ∃ t u, exec (.decode rs1) s = .next t ∧ exec (.encode rd) t = .next u ∧ u.reg rd = s.reg rs1 ∧ u.lz = false ∧ u.st = .idle) ∧
    (s.len.toNat ≤ s.cfg.bufBytes → ∀ z, z ≤ s.len.toNat → (∀ i, i < z → s.buf.read i = 0) →
      (z < s.len.toNat → s.buf.read z ≠ 0) →
      ∃ t u, exec (.encode rd) s = .next t ∧ exec (.decode rd) t = .next u ∧ u.len.toNat = s.len.toNat - z ∧
        (∀ i, i < s.len.toNat - z → u.buf.read i = s.buf.read (z + i)) ∧ (u.lz = true ↔ 0 < z))

/-! ## The cipher -/

/-- `CRT` (47_cipher_crt.md R256, R257): the difference reduced into `[0, P)` before the multiply; `E_DIVZERO(3)`, then `E_DIVZERO(0)`. -/
def Obligations.CrtCommand : Prop :=
  ∀ (s : State) (rd rs1 rs2 : RegId),
    (s.reg 3 ≠ 0 → s.reg 0 ≠ 0 →
      ∃ d : Nat, (d : Int) = ((s.reg rs1 : Int) - s.reg rs2) % s.reg 3 ∧
        Delivers (.crt rd rs1 rs2) s rd ((s.reg rs2 + s.reg 4 * (s.reg 7 * d % s.reg 3)) % s.reg 0)) ∧
    (s.reg 3 = 0 → Faults (.crt rd rs1 rs2) s .divZero 3) ∧
    (s.reg 3 ≠ 0 → s.reg 0 = 0 → Faults (.crt rd rs1 rs2) s .divZero 0)

/-- 47_cipher_crt.md R258: when `n = p*q` and `qinv*q mod p = 1`, `CRT` delivers the `v < n` that has the two residues. No primality. -/
def Obligations.CrtRecombines : Prop :=
  ∀ (s : State) (rd rs1 rs2 : RegId) (v : Nat), s.reg 0 = s.reg 3 * s.reg 4 → s.reg 7 * s.reg 4 % s.reg 3 = 1 → v < s.reg 0 →
    s.reg rs1 % s.reg 3 = v % s.reg 3 → s.reg rs2 = v % s.reg 4 → Delivers (.crt rd rs1 rs2) s rd v

/-- `ENCRYPT` (47_cipher_crt.md R262, R263): `m^e mod n`, no padding; `E_EVEN_MODULUS(0)`, then `E_MSG_TOO_LARGE` when `RANGECHK` is set. -/
def Obligations.EncryptCommand : Prop :=
  ∀ (s : State) (rd rs1 : RegId),
    (s.reg 0 % 2 = 1 → (s.rangeChk = true → s.reg rs1 < s.reg 0) →
      EngineDelivers (.encrypt rd rs1) s rd (s.reg rs1 ^ s.reg 1 % s.reg 0)) ∧
    (s.reg 0 % 2 = 0 → Faults (.encrypt rd rs1) s .evenModulus 0) ∧
    (s.reg 0 % 2 = 1 → s.rangeChk = true → s.reg 0 ≤ s.reg rs1 → Faults (.encrypt rd rs1) s .msgTooLarge 0)

/-- `DECRYPT` (47_cipher_crt.md R256, R266): two exponentiations and the recombination, from the registers as they were; four faults in their order. -/
def Obligations.DecryptCommand : Prop :=
  ∀ (s : State) (rd rs1 : RegId),
    (s.reg 3 % 2 = 1 → s.reg 4 % 2 = 1 → s.reg 0 ≠ 0 → (s.rangeChk = true → s.reg rs1 < s.reg 0) →
      ∃ m1 m2 d : Nat, m1 = s.reg rs1 ^ s.reg 5 % s.reg 3 ∧ m2 = s.reg rs1 ^ s.reg 6 % s.reg 4 ∧
        (d : Int) = ((m1 : Int) - m2) % s.reg 3 ∧
        EngineDelivers (.decrypt rd rs1) s rd ((m2 + s.reg 4 * (s.reg 7 * d % s.reg 3)) % s.reg 0)) ∧
    (s.reg 3 % 2 = 0 → Faults (.decrypt rd rs1) s .evenModulus 3) ∧
    (s.reg 3 % 2 = 1 → s.reg 4 % 2 = 0 → Faults (.decrypt rd rs1) s .evenModulus 4) ∧
    (s.reg 3 % 2 = 1 → s.reg 4 % 2 = 1 → s.reg 0 = 0 → Faults (.decrypt rd rs1) s .divZero 0) ∧
    (s.reg 3 % 2 = 1 → s.reg 4 % 2 = 1 → s.reg 0 ≠ 0 → s.rangeChk = true → s.reg 0 ≤ s.reg rs1 →
      Faults (.decrypt rd rs1) s .msgTooLarge 0)

/-- 47_cipher_crt.md R268: under a key of distinct odd primes, `DECRYPT` and a direct exponentiation by `d` give the same value. -/
def Obligations.CrtEqualsDirect : Prop :=
  ∀ (s : State) (rd rs1 : RegId), PrimeKey s → s.reg rs1 < s.reg 0 →
    ∃ v, EngineDelivers (.decrypt rd rs1) s rd v ∧ EngineDelivers (.modexp rd rs1 2 0) s rd v ∧ v = s.reg rs1 ^ s.reg 2 % s.reg 0

/-- 47_cipher_crt.md R270: under such a key, `ENCRYPT` then `DECRYPT` gives back every `m < n`, for every register of the ciphertext that
`DECRYPT` does not read as part of the key. In any register the ciphertext is `m^e mod n`; one of `x0`, `x3` to `x7` then no longer holds the
key, and `KEYSRC` says so, as for every register of the key bank (10_state.md R26). -/
def Obligations.CipherRoundTrip : Prop :=
  ∀ (s : State) (rc rm rd : RegId), PrimeKey s → s.reg rm < s.reg 0 →
    ∃ t, exec (.encrypt rc rm) s = .next t ∧ t.st = .idle ∧ t.reg rc = s.reg rm ^ s.reg 1 % s.reg 0 ∧
      (rc.val ≤ 7 → t.keysrc = .modified) ∧
      (rc ∉ ([0, 3, 4, 5, 6, 7] : List RegId) → ∃ u, exec (.decrypt rd rc) t = .next u ∧ u.st = .idle ∧ u.reg rd = s.reg rm)

/-! ## Faults, interrupts, the host, reset -/

/-- 60_exceptions.md R290 and R292, 10_state.md R38: taking a fault, for every cause; and the return from it, the host's write of `v` to `ERRCLR`, in
each state. -/
def Obligations.FaultEntryAndReturn : Prop :=
  (∀ (s : State) (c : Cause) (info : BitVec 8),
    (c.code.toNat < 0x80 →
      s.raise c info = { s with err := some ⟨c, info⟩, h := Temps.zero, phase := .none, st := .error, isr := s.isr ||| 2 }) ∧
    (0x80 ≤ c.code.toNat →
      s.raise c info = { s with err := some ⟨c, info⟩, h := Temps.zero, phase := .none, ctx := MontCtx.empty, st := .fatal,
                                isr := s.isr ||| 4 }) ∧
    (s.raise c info).errWord.toNat = info.toNat * 256 + c.code.toNat) ∧
  ∀ (s : State) (v : Word), s.turn = .host ⟨0x001C, 4, .write v⟩ →
    (s.st = .error → v.getLsbD 0 = true →
      step s = .next { s with turns := s.turns.tail, reply := .done, st := .idle, err := none,
                              hosterr := if v.getLsbD 1 then false else s.hosterr }) ∧
    ((s.st = .idle ∨ (s.st = .error ∧ v.getLsbD 0 = false)) →
      step s = .next (answered s .done (if v.getLsbD 1 then false else s.hosterr))) ∧
    ((s.st = .busy ∨ s.st = .fatal) → step s = .next (answered s .done true))

/-- 60_exceptions.md R291: a step that ends in `ERROR` has changed nothing but `ERR`, `STATE`, `PHASE` and `ISR.ERR`; it is the first step of
the command. -/
def Obligations.FaultsArePrecise : Prop :=
  ∀ s t : State, s.Inv → s.turn = .sequencer → s.st = .busy → step s = .next t → t.st = .error →
    s.phase = .exec ∧ ∃ r, r.cause.code.toNat < 0x80 ∧
      t = { s with err := some r, st := .error, phase := .none, isr := s.isr ||| 2, turns := s.turns.tail }

/-- 60_exceptions.md R293, 10_state.md R48: only reset leaves `FATAL`; until then the state keeps everything but `IER`, `ISR` and `HOSTERR`. -/
def Obligations.FatalUntilReset : Prop :=
  ∀ s t : State, s.st = .fatal → s.turn ≠ .reset → step s = .next t →
    t = { s with ier := t.ier, isr := t.isr, hosterr := t.hosterr, reply := t.reply, turns := s.turns.tail }

/-- 40_system_move.md R122, 10_state.md R51: what a sequencer step may write. No control register; a register only as its destination or by
`GENKEY`; the buffer only by `DECODE`; each flag only by its one command. -/
def Obligations.CommandWritesOnly : Prop :=
  ∀ (s t : State) (i : Instr), Runs s i → step s = .next t →
    SameControl s t ∧ t.cfg = s.cfg ∧ t.reply = s.reply ∧
    (∀ r, t.reg r ≠ s.reg r → t.st = .idle ∧ (dest i = some r ∨ ((∃ b, i = .genkey b) ∧ r.val ≤ 7 ∧ r ≠ 1))) ∧
    ((t.len ≠ s.len ∨ ∃ a, t.buf.read a ≠ s.buf.read a) → ∃ r, i = .decode r) ∧
    (t.verdict ≠ s.verdict → ∃ r, i = .ptest r) ∧ (t.cmp ≠ s.cmp → ∃ a b, i = .cmp a b) ∧ (t.lz ≠ s.lz → ∃ r, i = .encode r) ∧
    (t.ctx ≠ s.ctx → (∃ r, i = .msetup r) ∨ (t.ctx = MontCtx.empty ∧ (usesEngine i = true ∨ t.st = .fatal)))

/-- 10_state.md R26: `KEYSRC` after every step: 0 by reset, 1 by the commit of `GENKEY`, 2 by any other accepted write of `x0` to `x7`, else as it was. -/
def Obligations.KeysrcProvenance : Prop :=
  ∀ s t : State, step s = .next t →
    (s.turn = .reset → t.keysrc = .none) ∧
    (∀ (i : RegId) (j : Nat) (v : Word), j < s.cfg.wwords → s.cfg.Admissible → HostWrites s (xAddr i j) v →
      t.keysrc = if i.val ≤ 7 ∧ (s.st = .idle ∨ s.st = .error) then .modified else s.keysrc) ∧
    (∀ a, s.turn = .host a → (∀ i j v, j < s.cfg.wwords → a ≠ ⟨xAddr i j, 4, .write v⟩) → t.keysrc = s.keysrc) ∧
    (∀ i, Runs s i → t.st ≠ .idle → t.keysrc = s.keysrc) ∧
    (∀ i, Runs s i → t.st = .idle → (∀ b, i ≠ .genkey b) →
      t.keysrc = if (∃ rd, dest i = some rd ∧ rd.val ≤ 7) then .modified else s.keysrc) ∧
    (∀ b, Runs s (.genkey b) → t.st = .idle → t.keysrc = .generated)

/-- 10_state.md R45 to R48: which host writes each state of the sequencer refuses. A refused one sets `HOSTERR` and does nothing else; one to a
read-only or reserved address does nothing; in `IDLE` and `ERROR`, `CTRL`, `ROUNDS` and `LEN` store their fields. -/
def Obligations.HostWritesByState : Prop :=
  ∀ (s : State) (a : Nat) (v : Word), s.cfg.Admissible → HostWrites s a v →
    ((s.st = .busy ∨ s.st = .fatal) → (a ∈ [0x0008, 0x000C, 0x0010, 0x001C, 0x0028] ∨ IsWritableWindow s.cfg a) →
      step s = .next (answered s .done true)) ∧
    (s.st = .error → a = 0x0010 → step s = .next (answered s .done true)) ∧
    (a ∉ [0x0008, 0x000C, 0x0010, 0x001C, 0x0020, 0x0024, 0x0028] → ¬ IsWritableWindow s.cfg a →
      step s = .next (answered s .done s.hosterr)) ∧
    ((s.st = .idle ∨ s.st = .error) → a = 0x0008 →
      step s = .next { s with rangeChk := v.getLsbD 0, turns := s.turns.tail, reply := .done }) ∧
    ((s.st = .idle ∨ s.st = .error) → a = 0x000C →
      step s = .next { s with rounds := BitVec.ofNat 16 v.toNat, turns := s.turns.tail, reply := .done }) ∧
    ((s.st = .idle ∨ s.st = .error) → a = 0x0028 →
      step s = .next { s with len := BitVec.ofNat 16 v.toNat, turns := s.turns.tail, reply := .done })

/-- 10_state.md R45 to R48: which host reads each state answers. While `BUSY` only eight registers do; the others and the windows read 0 and set
`HOSTERR`; in the other states every read is answered and changes nothing (20_memory.md R76). An access of another width or at an unaligned
address is not performed: the bus answers with its error, read data 0, and no register or flag changes (20_memory.md R75). -/
def Obligations.HostReadsByState : Prop :=
  (∀ (s : State) (a : HostAccess), s.turn = .host a → (a.bytes ≠ 4 ∨ a.addr % 4 ≠ 0) → step s = .next (answered s (.error 0) s.hosterr)) ∧
  ∀ (s : State) (a : Nat), s.cfg.Admissible → HostReads s a →
    (s.st = .busy → (a ∈ [0x0008, 0x000C, 0x001C, 0x0028, 0x0030, 0x0034] ∨ IsWindow s.cfg a) →
      step s = .next (answered s (.data 0) true)) ∧
    (s.st ≠ .busy → ∃ d, step s = .next (answered s (.data d) s.hosterr)) ∧
    (s.st = .busy → a ∈ [0x0000, 0x0004, 0x0010, 0x0014, 0x0018, 0x0020, 0x0024, 0x002C] →
      ∃ d, step s = .next (answered s (.data d) s.hosterr)) ∧
    (0x0038 ≤ a → ¬ IsWindow s.cfg a → step s = .next (answered s (.data 0) s.hosterr))

/-- The words of the control and status registers, bit by bit (10_state.md R31 to R42), as a host reads them: all fourteen when the sequencer is not
`BUSY`, and the eight of R46 while it is. Before them the numbers of the codes: `STATE`, `VERDICT`, `CMP`, `KEYSRC` (R36), `PHASE` (R40) and
`ERR.CODE` (60_exceptions.md R281). -/
def Obligations.ControlRegisterWords : Prop :=
  [SeqState.idle, .busy, .error, .fatal].map (fun c => c.code.toNat) = [0, 1, 2, 3] ∧
  [Verdict.composite, .probablyPrime, .prime].map (fun c => c.code.toNat) = [0, 1, 2] ∧
  [CmpFlag.equal, .less, .greater].map (fun c => c.code.toNat) = [0, 1, 2] ∧
  [KeySrc.none, .generated, .modified].map (fun c => c.code.toNat) = [0, 1, 2] ∧
  [Phase.none, .exec, .ptTrial, .pgCand, .pgTrial, .pgDecide, .gpCand, .gpTrial, .gpCheck, .gqCand, .gqTrial, .gqCheck, .gkDerive].map
    (fun c => c.code.toNat) = [0x00, 0x01, 0x12, 0x20, 0x22, 0x23, 0x30, 0x32, 0x33, 0x40, 0x42, 0x43, 0x50] ∧
  [Cause.illegalCmd, .param, .overflow, .negative, .divZero, .notInvertible, .evenModulus, .noMctx, .operandRange, .msgTooLarge, .entropy,
    .invariant].map (fun c => c.code.toNat) = [0x01, 0x02, 0x03, 0x04, 0x05, 0x06, 0x07, 0x08, 0x09, 0x0A, 0x81, 0x82] ∧
  ∀ (s : State) (a : Nat), s.cfg.Admissible → HostReads s a →
    (s.st ≠ .busy ∨ a ∈ [0x0000, 0x0004, 0x0010, 0x0014, 0x0018, 0x0020, 0x0024, 0x002C]) →
    ∃ d : Word, step s = .next (answered s (.data d) s.hosterr) ∧
    (a = 0x0000 → d = 0x4B525910) ∧ (a = 0x0004 → d.toNat = 0x00100000 + s.cfg.wwords) ∧
    (a = 0x0008 → d.toNat = s.rangeChk.toNat) ∧ (a = 0x000C → d.toNat = s.rounds.toNat) ∧ (a = 0x0010 → d = s.ir) ∧
    (a = 0x0014 → d.toNat = s.st.code.toNat + 4 * s.verdict.code.toNat + 16 * s.cmp.code.toNat + 64 * s.lz.toNat +
      128 * s.ctx.valid.toNat + 256 * s.keysrc.code.toNat + 1024 * s.hosterr.toNat) ∧
    (a = 0x0018 → (s.err = none → d = 0) ∧ ∀ r, s.err = some r → d.toNat = r.cause.code.toNat + 256 * r.info.toNat) ∧
    (a = 0x001C → d = 0) ∧ (a = 0x0020 → d.toNat = s.ier.toNat) ∧ (a = 0x0024 → d.toNat = s.isr.toNat) ∧
    (a = 0x0028 → d.toNat = s.len.toNat) ∧ (a = 0x002C → d.toNat = s.phase.code.toNat) ∧
    (a = 0x0030 → d.toNat = s.ctx.mlen.toNat) ∧ (a = 0x0034 → d = s.ctx.mn0inv)

/-- The register windows (20_memory.md R73): what a read gives; a write replaces exactly the 32 bits and leaves every other register. -/
def Obligations.RegisterWindows : Prop :=
  ∀ (s : State) (i : RegId) (j : Nat), s.cfg.Admissible → j < s.cfg.wwords → s.st ≠ .busy →
    (HostReads s (xAddr i j) → ∃ d, step s = .next (answered s (.data d) s.hosterr) ∧
      d.toNat = s.reg i / 2 ^ (32 * j) % 2 ^ 32) ∧
    (HostReads s (0x8000 + 4 * j) → ∃ d, step s = .next (answered s (.data d) s.hosterr) ∧
      d.toNat = s.ctx.mn / 2 ^ (32 * j) % 2 ^ 32) ∧
    (HostReads s (0x8400 + 4 * j) → ∃ d, step s = .next (answered s (.data d) s.hosterr) ∧
      d.toNat = s.ctx.mrr / 2 ^ (32 * j) % 2 ^ 32) ∧
    (∀ v, HostWrites s (0x8000 + 4 * j) v ∨ HostWrites s (0x8400 + 4 * j) v → step s = .next (answered s .done s.hosterr)) ∧
    (∀ v, HostWrites s (xAddr i j) v → s.st ≠ .fatal → ∃ t, step s = .next t ∧
      (∀ k, t.reg i / 2 ^ (32 * k) % 2 ^ 32 = if k = j then v.toNat else s.reg i / 2 ^ (32 * k) % 2 ^ 32) ∧
      (∀ r, r ≠ i → t.reg r = s.reg r) ∧ t.keysrc = (if i.val ≤ 7 then .modified else s.keysrc) ∧
      t = { s with x := t.x, keysrc := t.keysrc, turns := s.turns.tail, reply := .done })

/-- The buffer window (20_memory.md R74): four bytes a word, the least significant lane first; every other byte is kept. -/
def Obligations.BufferWindow : Prop :=
  ∀ (s : State) (j : Nat), s.cfg.Admissible → j < s.cfg.wwords → s.st ≠ .busy → Memory.wf s.buf = true →
    (HostReads s (0xC000 + 4 * j) → ∃ d, step s = .next (answered s (.data d) s.hosterr) ∧
      d.toNat = (s.buf.read (4 * j)).toNat + 2 ^ 8 * (s.buf.read (4 * j + 1)).toNat + 2 ^ 16 * (s.buf.read (4 * j + 2)).toNat +
        2 ^ 24 * (s.buf.read (4 * j + 3)).toNat) ∧
    (∀ v, HostWrites s (0xC000 + 4 * j) v → s.st ≠ .fatal → ∃ t, step s = .next t ∧
      (∀ k, k < 4 → (t.buf.read (4 * j + k)).toNat = v.toNat / 2 ^ (8 * k) % 2 ^ 8) ∧
      (∀ a, (∀ k, k < 4 → a ≠ 4 * j + k) → t.buf.read a = s.buf.read a) ∧
      t = { s with buf := t.buf, turns := s.turns.tail, reply := .done })

/-- 10_state.md R39, 60_exceptions.md R284: the interrupt registers. Each command end sets exactly one bit, whatever `IER` holds; the host clears the
bits it writes 1 to, in every state; `irq` is the masked or. -/
def Obligations.InterruptRegisters : Prop :=
  ∀ s : State,
    (s.irq = true ↔ ∃ k, k < 3 ∧ s.isr.getLsbD k = true ∧ s.ier.getLsbD k = true) ∧
    (∀ v, s.turn = .host ⟨0x0024, 4, .write v⟩ → ∃ t, step s = .next t ∧
      (∀ k, k < 3 → t.isr.getLsbD k = (s.isr.getLsbD k && !v.getLsbD k)) ∧
      t = { s with isr := t.isr, turns := s.turns.tail, reply := .done }) ∧
    (∀ v, s.turn = .host ⟨0x0020, 4, .write v⟩ → ∃ t, step s = .next t ∧ (∀ k, k < 3 → t.ier.getLsbD k = v.getLsbD k) ∧
      t = { s with ier := t.ier, turns := s.turns.tail, reply := .done }) ∧
    (∀ t, s.turn = .sequencer → step s = .next t → s.st = .busy →
      t.ier = s.ier ∧
      t.isr = match t.st with
        | .idle => s.isr ||| 1
        | .error => s.isr ||| 2
        | .fatal => s.isr ||| 4
        | .busy => s.isr)

/-- 70_reset_and_hazards.md R320, 10_state.md R52: reset in any state gives every piece of state its value. The turns and the answers still to come are
the environment's and stay (log 13). -/
def Obligations.ResetState : Prop :=
  (∀ s : State, s.turn = .reset →
    step s = .next { State.resetFor s.cfg with turns := s.turns.tail, rng := s.rng }) ∧
  ∀ c : Config,
    (∀ i, (State.resetFor c).reg i = 0) ∧ (∀ a, (State.resetFor c).buf.read a = 0) ∧ (State.resetFor c).len = 0 ∧
    (State.resetFor c).ctrlWord = 1 ∧ (State.resetFor c).rounds = 40 ∧ (State.resetFor c).ir = 0 ∧ (State.resetFor c).statusWord = 0 ∧
    (State.resetFor c).st = .idle ∧ (State.resetFor c).errWord = 0 ∧ (State.resetFor c).ier = 0 ∧ (State.resetFor c).isr = 0 ∧
    (State.resetFor c).irq = false ∧ (State.resetFor c).phaseWord = 0 ∧ (State.resetFor c).ctx = ⟨0, 0, 0, 0, false⟩ ∧
    (State.resetFor c).h = ⟨0, 0, 0, 0, .composite, 0, 0⟩

/-- 10_state.md R51: no command's result depends on `VERDICT`, `CMP`, `LZ`, `KEYSRC`, `HOSTERR`, `IER` or `ISR`. -/
def Obligations.FlagsDoNotFlowBack : Prop :=
  ∀ s s' t : State, SameButFlags s s' → s.turn = .sequencer → step s = .next t → ∃ t', step s' = .next t' ∧ SameButFlags t t'

/-- 10_state.md R46, 20_memory.md R80: while `BUSY`, what a host access answers and does to the rest of the state does not depend on the operands or the
intermediate values of the command. -/
def Obligations.BusyHidesOperands : Prop :=
  ∀ s s' t : State, SameButOperands s s' → s.st = .busy → (∃ a, s.turn = .host a) → step s = .next t →
    ∃ t', step s' = .next t' ∧ t'.reply = t.reply ∧ SameButOperands t t'

/-! ## Invariants -/

/-- The invariant of the state holds after reset, for every admissible parameter, whatever inputs are to come. -/
def Obligations.InvariantAtReset : Prop :=
  ∀ (c : Config) (turns : List Turn) (rng : List RngAnswer), c.Admissible →
    State.Inv { State.resetFor c with turns := turns, rng := rng } ∧ State.Inv State.reset

/-- Every step keeps the invariant of the state: registers fit `W` bits, the buffer keeps its canonical form and its bounds, the context is that of its
modulus, `ERR` and `PHASE` belong to `STATE`, the temporaries belong to the command in `IR`. -/
def Obligations.StepKeepsInvariant : Prop := ∀ s t : State, s.Inv → step s = .next t → t.Inv

/-- A state with the invariant runs on: no number of steps ends in the model's own fault (log 7) or in a refusal
(93_implementation_defined.md section 3: no behaviour is undefined). -/
def Obligations.RunsNeverStop : Prop := ∀ s : State, s.Inv → RunsOn s

/-- 10_state.md R25: whenever `KEYSRC` says generated, the key bank holds a valid key; every step keeps that. -/
def Obligations.GeneratedKeysStayValid : Prop := ∀ s t : State, s.Inv → s.KeyOk → step s = .next t → t.KeyOk
end

