-- ==== Sys2Proof/Laws/Integer.lean ====
section
/-! SUPPORT. What the functions on exact integers compute: the loops of `inv` and `modExp` give the values of 00_scope.md R11 and
43_modexp.md R180, `bitlen` is the length of R11, and a window write replaces exactly one word (20_memory.md R73). -/

namespace Sys2Proof.Machine

/-! ### Bit length -/

@[simp] theorem bitlen_zero : bitlen 0 = 0 := rfl

theorem lt_two_pow_bitlen (v : Nat) : v < 2 ^ bitlen v := by
  unfold bitlen
  split
  · simp_all
  · exact Nat.lt_log2_self

theorem two_pow_le_of_bitlen {v : Nat} (h : v ≠ 0) : 2 ^ (bitlen v - 1) ≤ v := by
  unfold bitlen
  rw [if_neg h]
  exact Nat.log2_self_le h

theorem bitlen_le_iff {v k : Nat} : bitlen v ≤ k ↔ v < 2 ^ k := by
  constructor
  · intro h
    exact lt_of_lt_of_le (lt_two_pow_bitlen v) (Nat.pow_le_pow_right (by omega) h)
  · intro h
    by_contra hk
    have h0 : v ≠ 0 := by rintro rfl; simp at hk
    have h1 := two_pow_le_of_bitlen h0
    have h2 : 2 ^ k ≤ 2 ^ (bitlen v - 1) := Nat.pow_le_pow_right (by omega) (by omega)
    omega

/-- The `L` with `2^(L-1) ≤ v < 2^L` (R11). -/
theorem bitlen_eq_iff {v k : Nat} (hk : 1 ≤ k) : bitlen v = k ↔ 2 ^ (k - 1) ≤ v ∧ v < 2 ^ k := by
  have h1 := bitlen_le_iff (v := v) (k := k)
  have h2 := bitlen_le_iff (v := v) (k := k - 1)
  omega

theorem bitlen_pos {v : Nat} (h : v ≠ 0) : 1 ≤ bitlen v := by
  unfold bitlen
  rw [if_neg h]
  omega

/-! ### Floor-mod and the inverse -/

theorem floorMod_cast (a : Int) {b : Nat} (hb : 0 < b) : (floorMod a b : Int) = a % b := by
  unfold floorMod
  exact Int.toNat_of_nonneg (Int.emod_nonneg a (by omega))

theorem floorMod_lt (a : Int) {b : Nat} (hb : 0 < b) : floorMod a b < b := by
  have h := floorMod_cast a hb
  have h' := Int.emod_lt_of_pos a (show (0 : Int) < b by omega)
  omega

theorem floorMod_modEq (a : Int) {b : Nat} (hb : 0 < b) : (floorMod a b : Int) ≡ a [ZMOD b] := by
  rw [floorMod_cast a hb]
  exact Int.mod_modEq a b

/-- Euclid's loop ends at a combination that gives the greatest common divisor. -/
theorem invLoop_spec (a m : Int) :
    ∀ (fuel r0 : Nat) (t0 : Int) (r1 : Nat) (t1 : Int), r1 < fuel →
      t0 * a ≡ r0 [ZMOD m] → t1 * a ≡ r1 [ZMOD m] →
      invLoop fuel r0 t0 r1 t1 * a ≡ (Nat.gcd r0 r1 : Nat) [ZMOD m] := by
  intro fuel
  induction fuel with
  | zero => intro r0 t0 r1 t1 h; omega
  | succ fuel ih =>
    intro r0 t0 r1 t1 h h0 h1
    unfold invLoop
    split
    · next hz => subst hz; simpa using h0
    · next hz =>
      have hlt : r0 % r1 < r1 := Nat.mod_lt _ (by omega)
      have hstep : (t0 - ((r0 / r1 : Nat) : Int) * t1) * a ≡ ((r0 % r1 : Nat) : Int) [ZMOD m] := by
        have e : ((r0 % r1 : Nat) : Int) = r0 - ((r0 / r1 : Nat) : Int) * r1 := by
          have h2 : ((r0 / r1 : Nat) : Int) * r1 + ((r0 % r1 : Nat) : Int) = r0 := by exact_mod_cast Nat.div_add_mod' r0 r1
          linarith
        rw [e, sub_mul, mul_assoc]
        exact h0.sub (h1.mul_left _)
      have := ih r1 t1 (r0 % r1) (t0 - ((r0 / r1 : Nat) : Int) * t1) (by omega) h1 hstep
      rwa [Nat.gcd_comm r1, ← Nat.gcd_rec, Nat.gcd_comm] at this

theorem inv_lt {m : Nat} (hm : 0 < m) (a : Nat) : inv a m < m := floorMod_lt _ hm

theorem mul_inv_modEq {a m : Nat} (hm : 0 < m) : a * inv a m ≡ Nat.gcd a m [MOD m] := by
  have h := invLoop_spec (a : Int) (m : Int) (m + 1) m 0 (a % m) 1 (by have := Nat.mod_lt a hm; omega)
    (by rw [Int.modEq_iff_dvd]; simp) (by push_cast; simpa using (Int.mod_modEq (a : Int) m).symm)
  have h' := (floorMod_modEq (invLoop (m + 1) m 0 (a % m) 1) hm).mul_right (a : Int)
  have h2 := h'.trans h
  rw [Nat.gcd_comm m, ← Nat.gcd_rec, Nat.gcd_comm] at h2
  rw [← Int.natCast_modEq_iff]
  push_cast
  rw [mul_comm]
  exact h2

/-- `a * inv(a, m) mod m = 1 mod m` when `a` is coprime to `m` (R11). -/
theorem mul_inv_mod {a m : Nat} (hm : 0 < m) (h : Nat.gcd a m = 1) : a * inv a m % m = 1 % m := by
  have := mul_inv_modEq (a := a) hm
  rwa [h] at this

/-- `inv(a, m)` is the only such `v` in `[0, m)` (R11). -/
theorem eq_inv {a m v : Nat} (hm : 0 < m) (h : Nat.gcd a m = 1) (hv : v < m) (e : a * v % m = 1 % m) : v = inv a m := by
  have h1 : a * v ≡ a * inv a m [MOD m] := Eq.trans e (mul_inv_mod hm h).symm
  have h2 : v ≡ inv a m [MOD m] := h1.cancel_left_of_coprime (by rw [Nat.gcd_comm]; exact h)
  exact h2.eq_of_lt_of_lt hv (inv_lt hm a)

/-! ### Modular exponentiation -/

theorem powLoop_spec (N : Nat) :
    ∀ (n b e acc : Nat), e < 2 ^ n → acc % N = acc → powLoop N n b e acc = acc * b ^ e % N := by
  intro n
  induction n with
  | zero =>
    intro b e acc he hacc
    have : e = 0 := by simpa using he
    subst this
    simp [powLoop, hacc]
  | succ n ih =>
    intro b e acc he hacc
    have he' : e / 2 < 2 ^ n := by omega
    have hsq : (b * b % N) ^ (e / 2) ≡ b ^ (2 * (e / 2)) [MOD N] := by
      rw [pow_mul, pow_two]
      exact (Nat.mod_modEq _ _).pow _
    rw [powLoop]
    split
    · next h1 =>
      rw [ih _ _ _ he' (Nat.mod_mod _ _)]
      have e2 : b ^ e = b * b ^ (2 * (e / 2)) := by
        conv_lhs => rw [show e = 2 * (e / 2) + 1 by omega]
        ring
      rw [e2, ← mul_assoc]
      exact (Nat.mod_modEq _ _).mul hsq
    · next h1 =>
      rw [ih _ _ _ he' hacc]
      have e2 : b ^ e = b ^ (2 * (e / 2)) := by
        conv_lhs => rw [show e = 2 * (e / 2) by omega]
      rw [e2]
      exact hsq.mul_left acc

/-- `ModExp(b, e, N) = b^e mod N` (43_modexp.md R180). -/
theorem modExp_eq (b e N : Nat) : modExp b e N = b ^ e % N := by
  unfold modExp
  rw [powLoop_spec N _ _ _ _ (lt_two_pow_bitlen e) (Nat.mod_mod _ _)]
  have h : 1 % N * (b % N) ^ e ≡ 1 * b ^ e [MOD N] := (Nat.mod_modEq _ _).mul ((Nat.mod_modEq _ _).pow e)
  rwa [one_mul] at h

theorem modExp_lt (b e : Nat) {N : Nat} (hN : 0 < N) : modExp b e N < N := by
  rw [modExp_eq]
  exact Nat.mod_lt _ hN

/-! ### Words of a big integer -/

theorem replaceWord_div (v j : Nat) (w : BitVec 32) :
    replaceWord v j w / 2 ^ (32 * (j + 1)) = v / 2 ^ (32 * (j + 1)) := by
  have hw := w.isLt
  have hv : v % 2 ^ (32 * j) < 2 ^ (32 * j) := Nat.mod_lt _ (by positivity)
  have hp : 2 ^ (32 * (j + 1)) = 2 ^ 32 * 2 ^ (32 * j) := by rw [← pow_add]; ring_nf
  have hlt : w.toNat * 2 ^ (32 * j) + v % 2 ^ (32 * j) < 2 ^ (32 * (j + 1)) := by
    have := Nat.mul_le_mul_right (2 ^ (32 * j)) (Nat.succ_le_of_lt hw)
    rw [Nat.succ_mul] at this
    omega
  unfold replaceWord
  rw [add_assoc, mul_comm, Nat.mul_add_div (by positivity), Nat.div_eq_of_lt hlt, add_zero]

theorem replaceWord_lt {v j n : Nat} (hv : v < 2 ^ (32 * n)) (hj : j < n) (w : BitVec 32) :
    replaceWord v j w < 2 ^ (32 * n) := by
  have h := replaceWord_div v j w
  have hp : 2 ^ (32 * n) = 2 ^ (32 * (j + 1)) * 2 ^ (32 * (n - (j + 1))) := by rw [← pow_add]; congr 1; omega
  rw [hp, mul_comm, ← Nat.div_lt_iff_lt_mul (by positivity)] at hv ⊢
  rwa [h]

theorem div_two_pow_mod (v a b : Nat) : v / 2 ^ a % 2 ^ b = v % 2 ^ (a + b) / 2 ^ a := by
  rw [pow_add, Nat.mod_mul_right_div_self]

theorem replaceWord_mod (v j : Nat) (w : BitVec 32) :
    replaceWord v j w % 2 ^ (32 * (j + 1)) = w.toNat * 2 ^ (32 * j) + v % 2 ^ (32 * j) := by
  have hw := w.isLt
  have hv : v % 2 ^ (32 * j) < 2 ^ (32 * j) := Nat.mod_lt _ (by positivity)
  have hp : 2 ^ (32 * (j + 1)) = 2 ^ 32 * 2 ^ (32 * j) := by rw [← pow_add]; ring_nf
  have hlt : w.toNat * 2 ^ (32 * j) + v % 2 ^ (32 * j) < 2 ^ (32 * (j + 1)) := by
    have := Nat.mul_le_mul_right (2 ^ (32 * j)) (Nat.succ_le_of_lt hw)
    rw [Nat.succ_mul] at this
    omega
  unfold replaceWord
  rw [add_assoc, Nat.mul_add_mod_self_right, Nat.mod_eq_of_lt hlt]

/-- A window write replaces word `j` and no other (20_memory.md R73). -/
theorem wordOf_replaceWord (v j k : Nat) (w : BitVec 32) :
    wordOf (replaceWord v j w) k = if k = j then w else wordOf v k := by
  unfold wordOf bitsFrom
  have hv : v % 2 ^ (32 * j) < 2 ^ (32 * j) := Nat.mod_lt _ (by positivity)
  split
  · next h =>
    subst h
    rw [div_two_pow_mod, show 32 * k + 32 = 32 * (k + 1) by ring, replaceWord_mod, mul_comm, Nat.mul_add_div (by positivity),
      Nat.div_eq_of_lt hv, add_zero, BitVec.ofNat_toNat, BitVec.setWidth_eq]
  · next h =>
    congr 1
    rcases Nat.lt_or_gt_of_ne h with h | h
    · rw [div_two_pow_mod, div_two_pow_mod]
      congr 1
      have hd : 2 ^ (32 * k + 32) ∣ 2 ^ (32 * j) := pow_dvd_pow 2 (by omega)
      have h1 : 32 * j ≤ 32 * (j + 1) := by omega
      have hd' : 2 ^ (32 * k + 32) ∣ 2 ^ (32 * (j + 1)) := hd.trans (pow_dvd_pow 2 h1)
      rw [← Nat.mod_mod_of_dvd _ hd', replaceWord_mod, Nat.add_mod, Nat.mod_mod_of_dvd _ hd,
        Nat.mod_eq_zero_of_dvd (Dvd.dvd.mul_left hd _), zero_add, Nat.mod_mod]
    · have hp : 2 ^ (32 * k) = 2 ^ (32 * (j + 1)) * 2 ^ (32 * k - 32 * (j + 1)) := by
        rw [← pow_add]; congr 1; omega
      rw [hp, ← Nat.div_div_eq_div_mul, ← Nat.div_div_eq_div_mul, replaceWord_div]

end Sys2Proof.Machine
end

