-- ==== Sys2Proof/Laws/Memory.lean ====
section
/-! SUPPORT. The laws of the message buffer: a read after a write, and that every operation keeps the canonical form and stays
inside the buffer. -/

namespace Sys2Proof.Machine

/-- Every listed index is below `n`. -/
def Memory.Below (m : Memory) (n : Nat) : Prop := ∀ c ∈ m, c.1 < n

theorem wf_cons {a : Nat} {b : Byte} {m : Memory} :
    Memory.wf ((a, b) :: m) = true ↔ b ≠ Memory.unlisted ∧ (∀ c ∈ m, a < c.1) ∧ Memory.wf m = true := by
  simp [Memory.wf, and_assoc]

theorem read_of_all_above {m : Memory} {i : Nat} (h : ∀ c ∈ m, i < c.1) : m.read i = Memory.unlisted := by
  induction m with
  | nil => rfl
  | cons c m ih =>
    have h0 := h c (by simp)
    simp only [Memory.read]
    rw [if_neg (by omega)]
    exact ih fun d hd => h d (by simp [hd])

@[simp] theorem read_write_other (m : Memory) {i j : Nat} (h : i ≠ j) (v : Byte) : (m.write i v).read j = m.read j := by
  induction m with
  | nil =>
    simp only [Memory.write]
    split <;> simp [Memory.read, h]
  | cons c m ih =>
    obtain ⟨a, b⟩ := c
    simp only [Memory.write]
    split
    · simp [Memory.read, ih]
    · split
      · next h' =>
        subst h'
        split <;> simp [Memory.read, h]
      · split <;> simp [Memory.read, h]

theorem read_write_same {m : Memory} (hm : Memory.wf m = true) (i : Nat) (v : Byte) : (m.write i v).read i = v := by
  induction m with
  | nil =>
    simp only [Memory.write]
    split
    · next h => simp [Memory.read, h]
    · simp [Memory.read]
  | cons c m ih =>
    obtain ⟨a, b⟩ := c
    obtain ⟨hb, ha, hm⟩ := wf_cons.1 hm
    simp only [Memory.write]
    split
    · next h => rw [Memory.read, if_neg (by omega), ih hm]
    · split
      · next h =>
        subst h
        split
        · next hv => rw [hv, read_of_all_above ha]
        · simp [Memory.read]
      · split
        · next hv =>
          rw [hv, Memory.read, if_neg (by omega), read_of_all_above]
          intro c hc
          have := ha c hc
          omega
        · simp [Memory.read]

theorem mem_write {m : Memory} {i : Nat} {v : Byte} {c : Host.Cell} (h : c ∈ m.write i v) : c ∈ m ∨ c = (i, v) := by
  induction m with
  | nil =>
    simp only [Memory.write] at h
    split at h <;> simp_all
  | cons d m ih =>
    obtain ⟨a, b⟩ := d
    simp only [Memory.write] at h
    split at h
    · rcases List.mem_cons.1 h with rfl | h
      · simp
      · rcases ih h with h | h <;> simp [h]
    · split at h
      · split at h
        · simp [h]
        · rcases List.mem_cons.1 h with rfl | h <;> simp_all
      · split at h
        · exact .inl h
        · rcases List.mem_cons.1 h with rfl | h <;> simp_all

theorem wf_write {m : Memory} (hm : Memory.wf m = true) (i : Nat) (v : Byte) : Memory.wf (m.write i v) = true := by
  induction m with
  | nil =>
    simp only [Memory.write]
    split <;> simp_all [Memory.wf]
  | cons c m ih =>
    obtain ⟨a, b⟩ := c
    obtain ⟨hb, ha, hm'⟩ := wf_cons.1 hm
    simp only [Memory.write]
    split
    · next h =>
      refine wf_cons.2 ⟨hb, fun c hc => ?_, ih hm'⟩
      rcases mem_write hc with hc | rfl
      · exact ha c hc
      · exact h
    · split
      · next h =>
        subst h
        split
        · exact hm'
        · next hv => exact wf_cons.2 ⟨hv, ha, hm'⟩
      · split
        · exact hm
        · next hv =>
          refine wf_cons.2 ⟨hv, fun c hc => ?_, hm⟩
          rcases List.mem_cons.1 hc with rfl | hc
          · simp only; omega
          · have := ha c hc
            omega

theorem below_write {m : Memory} {n i : Nat} (hm : m.Below n) (hi : i < n) (v : Byte) : (m.write i v).Below n := by
  intro c hc
  rcases mem_write hc with hc | rfl
  · exact hm c hc
  · exact hi

theorem wf_fill {m : Memory} (hm : Memory.wf m = true) (f : Nat → Byte) (n : Nat) : Memory.wf (m.fill f n) = true := by
  induction n with
  | zero => exact hm
  | succ n ih => exact wf_write ih n (f n)

theorem below_fill {m : Memory} {k : Nat} (hm : m.Below k) (f : Nat → Byte) {n : Nat} (hn : n ≤ k) :
    (m.fill f n).Below k := by
  induction n with
  | zero => exact hm
  | succ n ih => exact below_write (ih (by omega)) (by omega) (f n)

/-- `MemWrite(i, 1, f i)` for `i < n` writes exactly those bytes. -/
theorem read_fill {m : Memory} (hm : Memory.wf m = true) (f : Nat → Byte) (n j : Nat) :
    (m.fill f n).read j = if j < n then f j else m.read j := by
  induction n with
  | zero => simp [Memory.fill]
  | succ n ih =>
    simp only [Memory.fill]
    rcases Nat.lt_trichotomy j n with h | rfl | h
    · rw [read_write_other _ (by omega), ih, if_pos h, if_pos (by omega)]
    · rw [read_write_same (wf_fill hm f j), if_pos (by omega)]
    · rw [read_write_other _ (by omega), ih, if_neg (by omega), if_neg (by omega)]

theorem wf_writeWord {m : Memory} (hm : Memory.wf m = true) (j : Nat) (v : Word) : Memory.wf (m.writeWord j v) = true :=
  wf_write (wf_write (wf_write (wf_write hm _ _) _ _) _ _) _ _

theorem below_writeWord {m : Memory} {n j : Nat} (hm : m.Below n) (hj : 4 * j + 3 < n) (v : Word) :
    (m.writeWord j v).Below n :=
  below_write (below_write (below_write (below_write hm (by omega) _) (by omega) _) (by omega) _) hj _

/-- A window write changes the four bytes of its word and no other (20_memory.md R74). -/
theorem read_writeWord {m : Memory} (hm : Memory.wf m = true) (j i : Nat) (v : Word) :
    (m.writeWord j v).read i = if i / 4 = j then v.extractLsb' (8 * (i % 4)) 8 else m.read i := by
  unfold Memory.writeWord
  have h0 := wf_write hm (4 * j) (v.extractLsb' 0 8)
  have h1 := wf_write h0 (4 * j + 1) (v.extractLsb' 8 8)
  have h2 := wf_write h1 (4 * j + 2) (v.extractLsb' 16 8)
  split
  · next h =>
    obtain hi | hi | hi | hi : i = 4 * j ∨ i = 4 * j + 1 ∨ i = 4 * j + 2 ∨ i = 4 * j + 3 := by omega
    · rw [read_write_other _ (by omega), read_write_other _ (by omega), read_write_other _ (by omega), hi,
        read_write_same hm, show 4 * j % 4 = 0 by omega]
    · rw [read_write_other _ (by omega), read_write_other _ (by omega), hi, read_write_same h0,
        show (4 * j + 1) % 4 = 1 by omega]
    · rw [read_write_other _ (by omega), hi, read_write_same h1, show (4 * j + 2) % 4 = 2 by omega]
    · rw [hi, read_write_same h2, show (4 * j + 3) % 4 = 3 by omega]
  · next h =>
    rw [read_write_other _ (by omega), read_write_other _ (by omega), read_write_other _ (by omega),
      read_write_other _ (by omega)]

end Sys2Proof.Machine
end

