-- ==== Sys2Proof/Laws/Codec.lean ====
section
/-! SUPPORT. The codec's functions: the big-endian sum, the length and the bytes of an integer (46_codec.md R240, R241). -/

namespace Sys2Proof.Machine

/-- The big-endian value of `f 0, ..., f (n-1)`, one byte more at a time. -/
theorem encodeBytes_range_succ (f : Nat → Byte) (n : Nat) :
    encodeBytes ((List.range (n + 1)).map f) = encodeBytes ((List.range n).map f) * 256 + (f n).toNat := by
  simp [encodeBytes, List.range_succ]

theorem encodeBytes_range_lt (f : Nat → Byte) (n : Nat) : encodeBytes ((List.range n).map f) < 256 ^ n := by
  induction n with
  | zero => simp [encodeBytes]
  | succ n ih =>
    have := (f n).isLt
    rw [encodeBytes_range_succ, pow_succ]
    omega

/-- The sum of R240. -/
theorem encodeBytes_range_eq_sum (f : Nat → Byte) (n : Nat) :
    encodeBytes ((List.range n).map f) = ∑ i ∈ Finset.range n, (f i).toNat * 256 ^ (n - 1 - i) := by
  induction n with
  | zero => rfl
  | succ n ih =>
    rw [encodeBytes_range_succ, ih, Finset.sum_range_succ, Finset.sum_mul]
    congr 1
    · refine Finset.sum_congr rfl fun i hi => ?_
      have hi : i < n := Finset.mem_range.1 hi
      rw [show n + 1 - 1 - i = n - 1 - i + 1 by omega, pow_succ, mul_assoc]
    · simp

theorem lt_256_pow_byteLen (v : Nat) : v < 256 ^ byteLen v := by
  rw [show 256 = 2 ^ 8 from rfl, ← pow_mul]
  exact lt_of_lt_of_le (lt_two_pow_bitlen v) (Nat.pow_le_pow_right (by omega) (by unfold byteLen ceilDiv; omega))

/-- `ceil(bitlen(v) / 8)` bytes are enough for `v` exactly when it is below that power of 256. -/
theorem byteLen_le_iff {v n : Nat} : byteLen v ≤ n ↔ v < 256 ^ n := by
  rw [show 256 = 2 ^ 8 from rfl, ← pow_mul, ← bitlen_le_iff]
  unfold byteLen ceilDiv
  omega

/-- The bytes that `DECODE` writes encode the value. -/
theorem encodeBytes_decoded (v : Nat) :
    ∀ n, n ≤ byteLen v → encodeBytes ((List.range n).map (decodedByte v (byteLen v))) = v / 256 ^ (byteLen v - n) := by
  intro n
  induction n with
  | zero =>
    intro _
    rw [Nat.sub_zero, Nat.div_eq_of_lt (lt_256_pow_byteLen v)]
    rfl
  | succ n ih =>
    intro hn
    rw [encodeBytes_range_succ, ih (by omega)]
    have e : byteLen v - n = byteLen v - (n + 1) + 1 := by omega
    have hb : (decodedByte v (byteLen v) n).toNat = v / 256 ^ (byteLen v - (n + 1)) % 256 := by
      rw [decodedByte, BitVec.toNat_ofNat, Nat.sub_sub, Nat.add_comm 1 n]
      exact Nat.mod_mod _ _
    rw [hb, e, pow_succ, ← Nat.div_div_eq_div_mul]
    omega

end Sys2Proof.Machine
end

