-- ==== Sys2Proof/Laws/Decode.lean ====
section
/-! SUPPORT. What the decoder does with a word that a row of the table accepts, and the fields of a word that the encoder lays out
(30_encoding.md R101 to R105). -/

namespace Sys2Proof

/-- Each mask covers the opcode, and each pattern holds the row's opcode there (R104). -/
theorem mask_covers_opcode : ∀ r ∈ opcodeTable,
    r.mask.extractLsb' 24 8 = BitVec.allOnes 8 ∧ r.pattern.extractLsb' 24 8 = r.opcode := by
  simp [opcodeTable, rowsInteger, rowsEngine]

/-- No two rows have the same opcode (R104). -/
theorem opcodes_distinct : opcodeTable.Pairwise (fun a b => a.opcode ≠ b.opcode) := by
  simp [opcodeTable, rowsInteger, rowsEngine]

theorem accepts_opcode {r : Row} (hr : r ∈ opcodeTable) {w : Word} (h : r.accepts w = true) :
    opcodeField w = r.opcode := by
  obtain ⟨hm, hp⟩ := mask_covers_opcode r hr
  have h : w &&& r.mask = r.pattern := by simpa [Row.accepts] using h
  rw [← hp, ← h, BitVec.extractLsb'_and, hm, BitVec.and_allOnes, opcodeField]

theorem find_of_accepts {l : List Row} (hd : l.Pairwise (fun a b => a.opcode ≠ b.opcode)) {w : Word}
    (hop : ∀ r ∈ l, r.accepts w = true → opcodeField w = r.opcode) {r : Row} (hr : r ∈ l) (h : r.accepts w = true) :
    l.find? (fun r => r.accepts w) = some r := by
  induction l with
  | nil => cases hr
  | cons a l ih =>
    rw [List.find?_cons]
    rw [List.pairwise_cons] at hd
    rcases List.mem_cons.1 hr with rfl | hr'
    · simp [h]
    · have hne := hd.1 r hr'
      have : a.accepts w = false := by
        by_contra hc
        exact hne ((hop a (by simp) (by simpa using hc)).symm.trans (hop r hr h))
      simp only [this]
      exact ih hd.2 (fun r hr => hop r (List.mem_cons_of_mem _ hr)) hr'

/-- A word that a row accepts decodes to that row's command. -/
theorem decode_of_accepts {r : Row} (hr : r ∈ opcodeTable) {w : Word} (h : r.accepts w = true) :
    decode w = .command (r.build w) := by
  rw [decode, find_of_accepts opcodes_distinct (fun r hr => accepts_opcode hr) hr h]

/-- A word that no row accepts is illegal, and why. -/
theorem decode_of_none {w : Word} (h : ∀ r ∈ opcodeTable, r.accepts w = false) :
    decode w =
      .illegal (if opcodeTable.any (fun r => r.opcode == opcodeField w) then .reservedField else .unknownOpcode) := by
  rw [decode, List.find?_eq_none.2 (by simpa using h)]
  dsimp only
  split <;> rfl

/-- Every word is a row's command or illegal. -/
theorem decode_cases (w : Word) :
    (∃ r ∈ opcodeTable, r.accepts w = true ∧ decode w = .command (r.build w)) ∨ (∃ why, decode w = .illegal why) := by
  by_cases h : ∃ r ∈ opcodeTable, r.accepts w = true
  · obtain ⟨r, hr, ha⟩ := h
    exact .inl ⟨r, hr, ha, decode_of_accepts hr ha⟩
  · exact .inr ⟨_, decode_of_none (by simpa using h)⟩

/-! ### The fields of a laid out word -/

theorem regField_of {w : Word} {lo : Nat} {r : RegId} (h : w.extractLsb' lo 4 = BitVec.ofNat 4 r.val) :
    regField w lo = r := by
  apply Fin.ext
  show (w.extractLsb' lo 4).toNat = r.val
  rw [h, BitVec.toNat_ofNat]
  exact Nat.mod_eq_of_lt r.isLt

theorem extract_rd (op : BitVec 8) (a b c d : BitVec 4) (z : BitVec 8) :
    (op ++ a ++ b ++ c ++ d ++ z).extractLsb' 20 4 = a := by
  apply BitVec.eq_of_getLsbD_eq
  intro i hi
  simp only [BitVec.getLsbD_extractLsb', BitVec.getLsbD_append]
  interval_cases i <;> simp

theorem extract_rs1 (op : BitVec 8) (a b c d : BitVec 4) (z : BitVec 8) :
    (op ++ a ++ b ++ c ++ d ++ z).extractLsb' 16 4 = b := by
  apply BitVec.eq_of_getLsbD_eq
  intro i hi
  simp only [BitVec.getLsbD_extractLsb', BitVec.getLsbD_append]
  interval_cases i <;> simp

theorem extract_rs2 (op : BitVec 8) (a b c d : BitVec 4) (z : BitVec 8) :
    (op ++ a ++ b ++ c ++ d ++ z).extractLsb' 12 4 = c := by
  apply BitVec.eq_of_getLsbD_eq
  intro i hi
  simp only [BitVec.getLsbD_extractLsb', BitVec.getLsbD_append]
  interval_cases i <;> simp

theorem extract_rs3 (op : BitVec 8) (a b c d : BitVec 4) (z : BitVec 8) :
    (op ++ a ++ b ++ c ++ d ++ z).extractLsb' 8 4 = d := by
  apply BitVec.eq_of_getLsbD_eq
  intro i hi
  simp only [BitVec.getLsbD_extractLsb', BitVec.getLsbD_append]
  interval_cases i <;> simp

theorem extract_rd_imm (op : BitVec 8) (a z : BitVec 4) (v : BitVec 16) :
    (op ++ a ++ z ++ v).extractLsb' 20 4 = a := by
  apply BitVec.eq_of_getLsbD_eq
  intro i hi
  simp only [BitVec.getLsbD_extractLsb', BitVec.getLsbD_append]
  interval_cases i <;> simp

theorem extract_imm (op : BitVec 8) (a z : BitVec 4) (v : BitVec 16) :
    (op ++ a ++ z ++ v).extractLsb' 0 16 = v := by
  apply BitVec.eq_of_getLsbD_eq
  intro i hi
  simp only [BitVec.getLsbD_extractLsb', BitVec.getLsbD_append]
  interval_cases i <;> simp

@[simp] theorem rdField_formatR (op : BitVec 8) (rd rs1 rs2 rs3 : RegId) : rdField (formatR op rd rs1 rs2 rs3) = rd :=
  regField_of (extract_rd _ _ _ _ _ _)

@[simp] theorem rs1Field_formatR (op : BitVec 8) (rd rs1 rs2 rs3 : RegId) : rs1Field (formatR op rd rs1 rs2 rs3) = rs1 :=
  regField_of (extract_rs1 _ _ _ _ _ _)

@[simp] theorem rs2Field_formatR (op : BitVec 8) (rd rs1 rs2 rs3 : RegId) : rs2Field (formatR op rd rs1 rs2 rs3) = rs2 :=
  regField_of (extract_rs2 _ _ _ _ _ _)

@[simp] theorem rs3Field_formatR (op : BitVec 8) (rd rs1 rs2 rs3 : RegId) : rs3Field (formatR op rd rs1 rs2 rs3) = rs3 :=
  regField_of (extract_rs3 _ _ _ _ _ _)

@[simp] theorem rdField_formatI (op : BitVec 8) (rd : RegId) (v : Nat) : rdField (formatI op rd v) = rd :=
  regField_of (extract_rd_imm _ _ _ _)

@[simp] theorem immField_formatI (op : BitVec 8) (rd : RegId) (v : Nat) : immField (formatI op rd v) = v % 2 ^ 16 := by
  show ((formatI op rd v).extractLsb' 0 16).toNat = _
  rw [show (formatI op rd v).extractLsb' 0 16 = BitVec.ofNat 16 v from extract_imm _ _ _ _, BitVec.toNat_ofNat]

/-! ### A word whose unused fields are 0 meets its row's mask -/

theorem mask_r4 (op : BitVec 8) (a b c d : BitVec 4) :
    (op ++ a ++ b ++ c ++ d ++ 0#8 : Word) &&& 0xFF0000FF = op ++ 0#24 := by
  apply BitVec.eq_of_getLsbD_eq
  intro i hi
  simp only [BitVec.getLsbD_and, BitVec.getLsbD_append]
  interval_cases i <;> simp

theorem mask_r3 (op : BitVec 8) (a b c : BitVec 4) :
    (op ++ a ++ b ++ c ++ 0#4 ++ 0#8 : Word) &&& 0xFF000FFF = op ++ 0#24 := by
  apply BitVec.eq_of_getLsbD_eq
  intro i hi
  simp only [BitVec.getLsbD_and, BitVec.getLsbD_append]
  interval_cases i <;> simp

theorem mask_r2 (op : BitVec 8) (a b : BitVec 4) :
    (op ++ a ++ b ++ 0#4 ++ 0#4 ++ 0#8 : Word) &&& 0xFF00FFFF = op ++ 0#24 := by
  apply BitVec.eq_of_getLsbD_eq
  intro i hi
  simp only [BitVec.getLsbD_and, BitVec.getLsbD_append]
  interval_cases i <;> simp

theorem mask_cmp (op : BitVec 8) (b c : BitVec 4) :
    (op ++ 0#4 ++ b ++ c ++ 0#4 ++ 0#8 : Word) &&& 0xFFF00FFF = op ++ 0#24 := by
  apply BitVec.eq_of_getLsbD_eq
  intro i hi
  simp only [BitVec.getLsbD_and, BitVec.getLsbD_append]
  interval_cases i <;> simp

theorem mask_source (op : BitVec 8) (b : BitVec 4) :
    (op ++ 0#4 ++ b ++ 0#4 ++ 0#4 ++ 0#8 : Word) &&& 0xFFF0FFFF = op ++ 0#24 := by
  apply BitVec.eq_of_getLsbD_eq
  intro i hi
  simp only [BitVec.getLsbD_and, BitVec.getLsbD_append]
  interval_cases i <;> simp

theorem mask_dest (op : BitVec 8) (a : BitVec 4) :
    (op ++ a ++ 0#4 ++ 0#4 ++ 0#4 ++ 0#8 : Word) &&& 0xFF0FFFFF = op ++ 0#24 := by
  apply BitVec.eq_of_getLsbD_eq
  intro i hi
  simp only [BitVec.getLsbD_and, BitVec.getLsbD_append]
  interval_cases i <;> simp

theorem mask_imm (op : BitVec 8) (a : BitVec 4) (v : BitVec 16) :
    (op ++ a ++ 0#4 ++ v : Word) &&& 0xFF0F0000 = op ++ 0#24 := by
  apply BitVec.eq_of_getLsbD_eq
  intro i hi
  simp only [BitVec.getLsbD_and, BitVec.getLsbD_append]
  interval_cases i <;> simp

theorem mask_imm_only (op : BitVec 8) (v : BitVec 16) :
    (op ++ 0#4 ++ 0#4 ++ v : Word) &&& 0xFFFF0000 = op ++ 0#24 := by
  apply BitVec.eq_of_getLsbD_eq
  intro i hi
  simp only [BitVec.getLsbD_and, BitVec.getLsbD_append]
  interval_cases i <;> simp

/-- A row accepts a word that meets its mask. -/
theorem Row.accepts_of {r : Row} {w : Word} (op : BitVec 8) (h : w &&& r.mask = op ++ 0#24) (hp : r.pattern = op ++ 0#24) :
    r.accepts w = true := by
  rw [Row.accepts, h, hp]
  exact beq_self_eq_true _

end Sys2Proof
end

