-- ==== Sys2Proof/Laws/HostPort.lean ====
section
/-! SUPPORT. The host's side, said once: what the address map gives for each register and window and back (20_memory.md R71), and the
five things an access can do (R72, R75). Later proofs cite these and do not unfold the access. -/

namespace Sys2Proof.Machine

/-! ### The step of each agent -/

theorem step_host {s : State} {a : HostAccess} (h : s.turn = .host a) : step s = .next (s.takeTurn.hostAccess a) := by
  simp only [step, h]

theorem step_reset {s : State} (h : s.turn = .reset) : step s = .next s.takeTurn.resetBlock := by
  simp only [step, h]

theorem step_sequencer {s : State} (h : s.turn = .sequencer) : step s = s.takeTurn.sequencerStep := by
  simp only [step, h]

/-! ### The address map -/

theorem hostTarget_csr (c : Config) : ∀ e ∈ csrMap, hostTarget c e.1 = .csr e.2 := by
  simp [csrMap, hostTarget]

theorem hostTarget_xWord {c : Config} (i : RegId) {j : Nat} (h : j < c.wwords) (hj : j < 256) :
    hostTarget c (0x4000 + 0x400 * i.val + 4 * j) = .xWord i j := by
  have hi := i.isLt
  have e1 : windowWord (0x4000 + 0x400 * i.val + 4 * j) = j := by unfold windowWord; omega
  have e2 : (0x4000 + 0x400 * i.val + 4 * j - 0x4000) / 0x400 = i.val := by omega
  unfold hostTarget
  rw [if_neg (by omega), if_pos (by omega), windowTarget, e1, if_pos h, e2]
  simp

theorem hostTarget_mnWord {c : Config} {j : Nat} (h : j < c.wwords) (hj : j < 256) : hostTarget c (0x8000 + 4 * j) = .mnWord j := by
  have e1 : windowWord (0x8000 + 4 * j) = j := by unfold windowWord; omega
  unfold hostTarget
  rw [if_neg (by omega), if_neg (by omega), if_pos (by omega), windowTarget, e1, if_pos h]

theorem hostTarget_mrrWord {c : Config} {j : Nat} (h : j < c.wwords) (hj : j < 256) : hostTarget c (0x8400 + 4 * j) = .mrrWord j := by
  have e1 : windowWord (0x8400 + 4 * j) = j := by unfold windowWord; omega
  unfold hostTarget
  rw [if_neg (by omega), if_neg (by omega), if_neg (by omega), if_pos (by omega), windowTarget, e1, if_pos h]

theorem hostTarget_bufWord {c : Config} {j : Nat} (h : j < c.wwords) (hj : j < 256) : hostTarget c (0xC000 + 4 * j) = .bufWord j := by
  have e1 : windowWord (0xC000 + 4 * j) = j := by unfold windowWord; omega
  unfold hostTarget
  rw [if_neg (by omega), if_neg (by omega), if_neg (by omega), if_neg (by omega), if_neg (by omega), if_pos (by omega), windowTarget,
    e1, if_pos h]

/-- What an aligned address of the block names, and its form for each answer. -/
theorem hostTarget_cases (c : Config) {a : Nat} (ha : a % 4 = 0) :
    (∃ r, (a, r) ∈ csrMap ∧ hostTarget c a = .csr r) ∨
    (∃ (i : RegId) (j : Nat), j < c.wwords ∧ j < 256 ∧ a = 0x4000 + 0x400 * i.val + 4 * j ∧ hostTarget c a = .xWord i j) ∨
    (∃ j, j < c.wwords ∧ j < 256 ∧ a = 0x8000 + 4 * j ∧ hostTarget c a = .mnWord j) ∨
    (∃ j, j < c.wwords ∧ j < 256 ∧ a = 0x8400 + 4 * j ∧ hostTarget c a = .mrrWord j) ∨
    (∃ j, j < c.wwords ∧ j < 256 ∧ a = 0xC000 + 4 * j ∧ hostTarget c a = .bufWord j) ∨
    hostTarget c a = .reserved := by
  have hw : windowWord a < 256 := by unfold windowWord; omega
  have he : windowWord a = a % 0x400 / 4 := rfl
  by_cases h1 : a < 0x4000
  · rcases h : csrMap.find? (fun e => e.1 == a) with _ | e
    · simp [hostTarget, h1, h]
    · have hm := List.mem_of_find?_eq_some h
      have hp := List.find?_some h
      simp only [beq_iff_eq] at hp
      refine .inl ⟨e.2, by rw [← hp]; exact hm, by simp [hostTarget, h1, h]⟩
  · by_cases h6 : windowWord a < c.wwords
    · by_cases h2 : a < 0x8000
      · have hi : (a - 0x4000) / 0x400 < 16 := by omega
        refine .inr (.inl ⟨⟨_, hi⟩, windowWord a, h6, hw, by rw [he]; dsimp only; omega, ?_⟩)
        rw [hostTarget, if_neg h1, if_pos h2, windowTarget, if_pos h6]
        congr 1
        exact Fin.ext (Nat.mod_eq_of_lt hi)
      · by_cases h3 : a < 0x8400
        · exact .inr (.inr (.inl ⟨windowWord a, h6, hw, by rw [he]; omega, by
            rw [hostTarget, if_neg h1, if_neg h2, if_pos h3, windowTarget, if_pos h6]⟩))
        · by_cases h4 : a < 0x8800
          · exact .inr (.inr (.inr (.inl ⟨windowWord a, h6, hw, by rw [he]; omega, by
              rw [hostTarget, if_neg h1, if_neg h2, if_neg h3, if_pos h4, windowTarget, if_pos h6]⟩)))
          · by_cases h5 : a < 0xC000
            · exact .inr (.inr (.inr (.inr (.inr (by
                rw [hostTarget, if_neg h1, if_neg h2, if_neg h3, if_neg h4, if_pos h5])))))
            · by_cases h7 : a < 0xC400
              · exact .inr (.inr (.inr (.inr (.inl ⟨windowWord a, h6, hw, by rw [he]; omega, by
                  rw [hostTarget, if_neg h1, if_neg h2, if_neg h3, if_neg h4, if_neg h5, if_pos h7, windowTarget, if_pos h6]⟩))))
              · exact .inr (.inr (.inr (.inr (.inr (by
                  rw [hostTarget, if_neg h1, if_neg h2, if_neg h3, if_neg h4, if_neg h5, if_neg h7])))))
    · refine .inr (.inr (.inr (.inr (.inr ?_))))
      unfold hostTarget windowTarget
      simp [h1, h6]

/-! ### One access -/

theorem hostAccess_error (s : State) {a : HostAccess} (h : a.legal = false) : s.hostAccess a = { s with reply := .error 0 } := by
  simp [State.hostAccess, h]

theorem legal_of {a : Nat} (ha : a % 4 = 0) (hle : a ≤ 0xFFFC) (op : HostOp) : (⟨a, 4, op⟩ : HostAccess).legal = true := by
  simp [HostAccess.legal, ha, hle]

theorem hostAccess_read (s : State) {a : Nat} (hl : (⟨a, 4, .read⟩ : HostAccess).legal = true)
    (hr : (hostTarget s.cfg a).readable s.st = true) :
    s.hostAccess ⟨a, 4, .read⟩ = { s with reply := .data (s.targetWord (hostTarget s.cfg a)) } := by
  simp [State.hostAccess, hl, State.hostRead, hr]

theorem hostAccess_read_refused (s : State) {a : Nat} (hl : (⟨a, 4, .read⟩ : HostAccess).legal = true)
    (hr : (hostTarget s.cfg a).readable s.st = false) :
    s.hostAccess ⟨a, 4, .read⟩ = { s with reply := .data 0, hosterr := true } := by
  simp [State.hostAccess, hl, State.hostRead, hr]

theorem hostAccess_write (s : State) {a : Nat} {v : Word} (hl : (⟨a, 4, .write v⟩ : HostAccess).legal = true)
    (hw : (hostTarget s.cfg a).writable = true) (hc : (hostTarget s.cfg a).accepted s.st = true) :
    s.hostAccess ⟨a, 4, .write v⟩ = { s.writeTarget v (hostTarget s.cfg a) with reply := .done } := by
  simp [State.hostAccess, hl, State.hostWrite, hw, hc]

theorem hostAccess_write_refused (s : State) {a : Nat} {v : Word} (hl : (⟨a, 4, .write v⟩ : HostAccess).legal = true)
    (hw : (hostTarget s.cfg a).writable = true) (hc : (hostTarget s.cfg a).accepted s.st = false) :
    s.hostAccess ⟨a, 4, .write v⟩ = { s with reply := .done, hosterr := true } := by
  simp [State.hostAccess, hl, State.hostWrite, hw, hc]

theorem hostAccess_write_ignored (s : State) {a : Nat} {v : Word} (hl : (⟨a, 4, .write v⟩ : HostAccess).legal = true)
    (hw : (hostTarget s.cfg a).writable = false) : s.hostAccess ⟨a, 4, .write v⟩ = { s with reply := .done } := by
  simp [State.hostAccess, hl, State.hostWrite, hw]

end Sys2Proof.Machine
end

