-- ==== Sys2Proof/Laws/PerInstr.lean ====
section
/-! SUPPORT. Facts about each command as syntax, one lemma per constructor. -/

namespace Sys2Proof.Laws.TableRow

/-- The opcode of a command (30_encoding.md R104). -/
def opcode : Instr → BitVec 8
  | .nop => 0x00
  | .mov _ _ => 0x01
  | .ldi _ _ => 0x02
  | .cmp _ _ => 0x03
  | .add _ _ _ => 0x10
  | .sub _ _ _ => 0x11
  | .mul _ _ _ => 0x12
  | .mod _ _ _ => 0x13
  | .gcd _ _ _ => 0x14
  | .modinv _ _ _ => 0x15
  | .bitlen _ _ => 0x16
  | .msetup _ => 0x20
  | .mmul _ _ _ => 0x21
  | .mto _ _ => 0x22
  | .mfrom _ _ => 0x23
  | .modexp _ _ _ _ => 0x30
  | .cand _ _ => 0x40
  | .ptest _ => 0x41
  | .primegen _ _ => 0x42
  | .genkey _ => 0x48
  | .encode _ => 0x50
  | .decode _ => 0x51
  | .crt _ _ _ => 0x60
  | .encrypt _ _ => 0x61
  | .decrypt _ _ => 0x62

/-- A row of the table with the command's opcode accepts its word (30_encoding.md R104). -/
def Statement (i : Instr) : Prop := ∃ r ∈ opcodeTable, r.opcode = opcode i ∧ r.accepts (encode i) = true

theorem nop : Statement .nop :=
  ⟨opcodeTable[0], List.getElem_mem _, rfl, by decide⟩
theorem mov (rd rs1 : RegId) : Statement (.mov rd rs1) :=
  ⟨opcodeTable[1], List.getElem_mem _, rfl, Row.accepts_of _ (mask_r2 _ _ _) (by decide)⟩
theorem ldi (rd : RegId) (imm16 : Nat) : Statement (.ldi rd imm16) :=
  ⟨opcodeTable[2], List.getElem_mem _, rfl, Row.accepts_of _ (mask_imm _ _ _) (by decide)⟩
theorem cmp (rs1 rs2 : RegId) : Statement (.cmp rs1 rs2) :=
  ⟨opcodeTable[3], List.getElem_mem _, rfl, Row.accepts_of _ (mask_cmp _ _ _) (by decide)⟩
theorem add (rd rs1 rs2 : RegId) : Statement (.add rd rs1 rs2) :=
  ⟨opcodeTable[4], List.getElem_mem _, rfl, Row.accepts_of _ (mask_r3 _ _ _ _) (by decide)⟩
theorem sub (rd rs1 rs2 : RegId) : Statement (.sub rd rs1 rs2) :=
  ⟨opcodeTable[5], List.getElem_mem _, rfl, Row.accepts_of _ (mask_r3 _ _ _ _) (by decide)⟩
theorem mul (rd rs1 rs2 : RegId) : Statement (.mul rd rs1 rs2) :=
  ⟨opcodeTable[6], List.getElem_mem _, rfl, Row.accepts_of _ (mask_r3 _ _ _ _) (by decide)⟩
theorem mod (rd rs1 rs2 : RegId) : Statement (.mod rd rs1 rs2) :=
  ⟨opcodeTable[7], List.getElem_mem _, rfl, Row.accepts_of _ (mask_r3 _ _ _ _) (by decide)⟩
theorem gcd (rd rs1 rs2 : RegId) : Statement (.gcd rd rs1 rs2) :=
  ⟨opcodeTable[8], List.getElem_mem _, rfl, Row.accepts_of _ (mask_r3 _ _ _ _) (by decide)⟩
theorem modinv (rd rs1 rs2 : RegId) : Statement (.modinv rd rs1 rs2) :=
  ⟨opcodeTable[9], List.getElem_mem _, rfl, Row.accepts_of _ (mask_r3 _ _ _ _) (by decide)⟩
theorem bitlen (rd rs1 : RegId) : Statement (.bitlen rd rs1) :=
  ⟨opcodeTable[10], List.getElem_mem _, rfl, Row.accepts_of _ (mask_r2 _ _ _) (by decide)⟩
theorem msetup (rs1 : RegId) : Statement (.msetup rs1) :=
  ⟨opcodeTable[11], List.getElem_mem _, rfl, Row.accepts_of _ (mask_source _ _) (by decide)⟩
theorem mmul (rd rs1 rs2 : RegId) : Statement (.mmul rd rs1 rs2) :=
  ⟨opcodeTable[12], List.getElem_mem _, rfl, Row.accepts_of _ (mask_r3 _ _ _ _) (by decide)⟩
theorem mto (rd rs1 : RegId) : Statement (.mto rd rs1) :=
  ⟨opcodeTable[13], List.getElem_mem _, rfl, Row.accepts_of _ (mask_r2 _ _ _) (by decide)⟩
theorem mfrom (rd rs1 : RegId) : Statement (.mfrom rd rs1) :=
  ⟨opcodeTable[14], List.getElem_mem _, rfl, Row.accepts_of _ (mask_r2 _ _ _) (by decide)⟩
theorem modexp (rd rs1 rs2 rs3 : RegId) : Statement (.modexp rd rs1 rs2 rs3) :=
  ⟨opcodeTable[15], List.getElem_mem _, rfl, Row.accepts_of _ (mask_r4 _ _ _ _ _) (by decide)⟩
theorem cand (rd : RegId) (imm16 : Nat) : Statement (.cand rd imm16) :=
  ⟨opcodeTable[16], List.getElem_mem _, rfl, Row.accepts_of _ (mask_imm _ _ _) (by decide)⟩
theorem ptest (rs1 : RegId) : Statement (.ptest rs1) :=
  ⟨opcodeTable[17], List.getElem_mem _, rfl, Row.accepts_of _ (mask_source _ _) (by decide)⟩
theorem primegen (rd : RegId) (imm16 : Nat) : Statement (.primegen rd imm16) :=
  ⟨opcodeTable[18], List.getElem_mem _, rfl, Row.accepts_of _ (mask_imm _ _ _) (by decide)⟩
theorem genkey (imm16 : Nat) : Statement (.genkey imm16) :=
  ⟨opcodeTable[19], List.getElem_mem _, rfl, Row.accepts_of _ (mask_imm_only _ _) (by decide)⟩
theorem encode (rd : RegId) : Statement (.encode rd) :=
  ⟨opcodeTable[20], List.getElem_mem _, rfl, Row.accepts_of _ (mask_dest _ _) (by decide)⟩
theorem decode (rs1 : RegId) : Statement (.decode rs1) :=
  ⟨opcodeTable[21], List.getElem_mem _, rfl, Row.accepts_of _ (mask_source _ _) (by decide)⟩
theorem crt (rd rs1 rs2 : RegId) : Statement (.crt rd rs1 rs2) :=
  ⟨opcodeTable[22], List.getElem_mem _, rfl, Row.accepts_of _ (mask_r3 _ _ _ _) (by decide)⟩
theorem encrypt (rd rs1 : RegId) : Statement (.encrypt rd rs1) :=
  ⟨opcodeTable[23], List.getElem_mem _, rfl, Row.accepts_of _ (mask_r2 _ _ _) (by decide)⟩
theorem decrypt (rd rs1 : RegId) : Statement (.decrypt rd rs1) :=
  ⟨opcodeTable[24], List.getElem_mem _, rfl, Row.accepts_of _ (mask_r2 _ _ _) (by decide)⟩

end Sys2Proof.Laws.TableRow
end

