-- ==== Sys2Proof/Laws/State.lean ====
section
/-! SUPPORT. One lemma per field per update of the state, true by unfolding the update once, so that no later proof unfolds a
record update; and what a register reads after each update. -/

namespace Sys2Proof.Machine

/-! ### `setReg` -/

@[simp] theorem setReg_x (s : State) (i : RegId) (v : Nat) : (s.setReg i v).x = s.x.set i.val v := rfl
@[simp] theorem setReg_buf (s : State) (i : RegId) (v : Nat) : (s.setReg i v).buf = s.buf := rfl
@[simp] theorem setReg_len (s : State) (i : RegId) (v : Nat) : (s.setReg i v).len = s.len := rfl
@[simp] theorem setReg_rangeChk (s : State) (i : RegId) (v : Nat) : (s.setReg i v).rangeChk = s.rangeChk := rfl
@[simp] theorem setReg_rounds (s : State) (i : RegId) (v : Nat) : (s.setReg i v).rounds = s.rounds := rfl
@[simp] theorem setReg_ir (s : State) (i : RegId) (v : Nat) : (s.setReg i v).ir = s.ir := rfl
@[simp] theorem setReg_st (s : State) (i : RegId) (v : Nat) : (s.setReg i v).st = s.st := rfl
@[simp] theorem setReg_verdict (s : State) (i : RegId) (v : Nat) : (s.setReg i v).verdict = s.verdict := rfl
@[simp] theorem setReg_cmp (s : State) (i : RegId) (v : Nat) : (s.setReg i v).cmp = s.cmp := rfl
@[simp] theorem setReg_lz (s : State) (i : RegId) (v : Nat) : (s.setReg i v).lz = s.lz := rfl
@[simp] theorem setReg_keysrc (s : State) (i : RegId) (v : Nat) : (s.setReg i v).keysrc = keysrcAfterWrite i s.keysrc := rfl
@[simp] theorem setReg_hosterr (s : State) (i : RegId) (v : Nat) : (s.setReg i v).hosterr = s.hosterr := rfl
@[simp] theorem setReg_err (s : State) (i : RegId) (v : Nat) : (s.setReg i v).err = s.err := rfl
@[simp] theorem setReg_ier (s : State) (i : RegId) (v : Nat) : (s.setReg i v).ier = s.ier := rfl
@[simp] theorem setReg_isr (s : State) (i : RegId) (v : Nat) : (s.setReg i v).isr = s.isr := rfl
@[simp] theorem setReg_phase (s : State) (i : RegId) (v : Nat) : (s.setReg i v).phase = s.phase := rfl
@[simp] theorem setReg_ctx (s : State) (i : RegId) (v : Nat) : (s.setReg i v).ctx = s.ctx := rfl
@[simp] theorem setReg_h (s : State) (i : RegId) (v : Nat) : (s.setReg i v).h = s.h := rfl
@[simp] theorem setReg_cfg (s : State) (i : RegId) (v : Nat) : (s.setReg i v).cfg = s.cfg := rfl
@[simp] theorem setReg_turns (s : State) (i : RegId) (v : Nat) : (s.setReg i v).turns = s.turns := rfl
@[simp] theorem setReg_rng (s : State) (i : RegId) (v : Nat) : (s.setReg i v).rng = s.rng := rfl
@[simp] theorem setReg_reply (s : State) (i : RegId) (v : Nat) : (s.setReg i v).reply = s.reply := rfl

/-! ### `complete` -/

@[simp] theorem complete_x (s : State) : (s.complete).x = s.x := rfl
@[simp] theorem complete_buf (s : State) : (s.complete).buf = s.buf := rfl
@[simp] theorem complete_len (s : State) : (s.complete).len = s.len := rfl
@[simp] theorem complete_rangeChk (s : State) : (s.complete).rangeChk = s.rangeChk := rfl
@[simp] theorem complete_rounds (s : State) : (s.complete).rounds = s.rounds := rfl
@[simp] theorem complete_ir (s : State) : (s.complete).ir = s.ir := rfl
@[simp] theorem complete_st (s : State) : (s.complete).st = .idle := rfl
@[simp] theorem complete_verdict (s : State) : (s.complete).verdict = s.verdict := rfl
@[simp] theorem complete_cmp (s : State) : (s.complete).cmp = s.cmp := rfl
@[simp] theorem complete_lz (s : State) : (s.complete).lz = s.lz := rfl
@[simp] theorem complete_keysrc (s : State) : (s.complete).keysrc = s.keysrc := rfl
@[simp] theorem complete_hosterr (s : State) : (s.complete).hosterr = s.hosterr := rfl
@[simp] theorem complete_err (s : State) : (s.complete).err = s.err := rfl
@[simp] theorem complete_ier (s : State) : (s.complete).ier = s.ier := rfl
@[simp] theorem complete_isr (s : State) : (s.complete).isr = s.isr ||| isrDone := rfl
@[simp] theorem complete_phase (s : State) : (s.complete).phase = .none := rfl
@[simp] theorem complete_ctx (s : State) : (s.complete).ctx = s.ctx := rfl
@[simp] theorem complete_h (s : State) : (s.complete).h = Temps.zero := rfl
@[simp] theorem complete_cfg (s : State) : (s.complete).cfg = s.cfg := rfl
@[simp] theorem complete_turns (s : State) : (s.complete).turns = s.turns := rfl
@[simp] theorem complete_rng (s : State) : (s.complete).rng = s.rng := rfl
@[simp] theorem complete_reply (s : State) : (s.complete).reply = s.reply := rfl

/-! ### `clearCtx` -/

@[simp] theorem clearCtx_x (s : State) : (s.clearCtx).x = s.x := rfl
@[simp] theorem clearCtx_buf (s : State) : (s.clearCtx).buf = s.buf := rfl
@[simp] theorem clearCtx_len (s : State) : (s.clearCtx).len = s.len := rfl
@[simp] theorem clearCtx_rangeChk (s : State) : (s.clearCtx).rangeChk = s.rangeChk := rfl
@[simp] theorem clearCtx_rounds (s : State) : (s.clearCtx).rounds = s.rounds := rfl
@[simp] theorem clearCtx_ir (s : State) : (s.clearCtx).ir = s.ir := rfl
@[simp] theorem clearCtx_st (s : State) : (s.clearCtx).st = s.st := rfl
@[simp] theorem clearCtx_verdict (s : State) : (s.clearCtx).verdict = s.verdict := rfl
@[simp] theorem clearCtx_cmp (s : State) : (s.clearCtx).cmp = s.cmp := rfl
@[simp] theorem clearCtx_lz (s : State) : (s.clearCtx).lz = s.lz := rfl
@[simp] theorem clearCtx_keysrc (s : State) : (s.clearCtx).keysrc = s.keysrc := rfl
@[simp] theorem clearCtx_hosterr (s : State) : (s.clearCtx).hosterr = s.hosterr := rfl
@[simp] theorem clearCtx_err (s : State) : (s.clearCtx).err = s.err := rfl
@[simp] theorem clearCtx_ier (s : State) : (s.clearCtx).ier = s.ier := rfl
@[simp] theorem clearCtx_isr (s : State) : (s.clearCtx).isr = s.isr := rfl
@[simp] theorem clearCtx_phase (s : State) : (s.clearCtx).phase = s.phase := rfl
@[simp] theorem clearCtx_ctx (s : State) : (s.clearCtx).ctx = MontCtx.empty := rfl
@[simp] theorem clearCtx_h (s : State) : (s.clearCtx).h = s.h := rfl
@[simp] theorem clearCtx_cfg (s : State) : (s.clearCtx).cfg = s.cfg := rfl
@[simp] theorem clearCtx_turns (s : State) : (s.clearCtx).turns = s.turns := rfl
@[simp] theorem clearCtx_rng (s : State) : (s.clearCtx).rng = s.rng := rfl
@[simp] theorem clearCtx_reply (s : State) : (s.clearCtx).reply = s.reply := rfl

/-! ### `raise` -/

@[simp] theorem raise_x (s : State) (c : Cause) (info : BitVec 8) : (s.raise c info).x = s.x := rfl
@[simp] theorem raise_buf (s : State) (c : Cause) (info : BitVec 8) : (s.raise c info).buf = s.buf := rfl
@[simp] theorem raise_len (s : State) (c : Cause) (info : BitVec 8) : (s.raise c info).len = s.len := rfl
@[simp] theorem raise_rangeChk (s : State) (c : Cause) (info : BitVec 8) : (s.raise c info).rangeChk = s.rangeChk := rfl
@[simp] theorem raise_rounds (s : State) (c : Cause) (info : BitVec 8) : (s.raise c info).rounds = s.rounds := rfl
@[simp] theorem raise_ir (s : State) (c : Cause) (info : BitVec 8) : (s.raise c info).ir = s.ir := rfl
@[simp] theorem raise_st (s : State) (c : Cause) (info : BitVec 8) : (s.raise c info).st = if c.isFatal then .fatal else .error := rfl
@[simp] theorem raise_verdict (s : State) (c : Cause) (info : BitVec 8) : (s.raise c info).verdict = s.verdict := rfl
@[simp] theorem raise_cmp (s : State) (c : Cause) (info : BitVec 8) : (s.raise c info).cmp = s.cmp := rfl
@[simp] theorem raise_lz (s : State) (c : Cause) (info : BitVec 8) : (s.raise c info).lz = s.lz := rfl
@[simp] theorem raise_keysrc (s : State) (c : Cause) (info : BitVec 8) : (s.raise c info).keysrc = s.keysrc := rfl
@[simp] theorem raise_hosterr (s : State) (c : Cause) (info : BitVec 8) : (s.raise c info).hosterr = s.hosterr := rfl
@[simp] theorem raise_err (s : State) (c : Cause) (info : BitVec 8) : (s.raise c info).err = some ⟨c, info⟩ := rfl
@[simp] theorem raise_ier (s : State) (c : Cause) (info : BitVec 8) : (s.raise c info).ier = s.ier := rfl
@[simp] theorem raise_isr (s : State) (c : Cause) (info : BitVec 8) : (s.raise c info).isr = s.isr ||| (if c.isFatal then isrFatal else isrErr) := rfl
@[simp] theorem raise_phase (s : State) (c : Cause) (info : BitVec 8) : (s.raise c info).phase = .none := rfl
@[simp] theorem raise_ctx (s : State) (c : Cause) (info : BitVec 8) : (s.raise c info).ctx = if c.isFatal then MontCtx.empty else s.ctx := rfl
@[simp] theorem raise_h (s : State) (c : Cause) (info : BitVec 8) : (s.raise c info).h = Temps.zero := rfl
@[simp] theorem raise_cfg (s : State) (c : Cause) (info : BitVec 8) : (s.raise c info).cfg = s.cfg := rfl
@[simp] theorem raise_turns (s : State) (c : Cause) (info : BitVec 8) : (s.raise c info).turns = s.turns := rfl
@[simp] theorem raise_rng (s : State) (c : Cause) (info : BitVec 8) : (s.raise c info).rng = s.rng := rfl
@[simp] theorem raise_reply (s : State) (c : Cause) (info : BitVec 8) : (s.raise c info).reply = s.reply := rfl

/-! ### `issue` -/

@[simp] theorem issue_x (s : State) (v : Word) : (s.issue v).x = s.x := rfl
@[simp] theorem issue_buf (s : State) (v : Word) : (s.issue v).buf = s.buf := rfl
@[simp] theorem issue_len (s : State) (v : Word) : (s.issue v).len = s.len := rfl
@[simp] theorem issue_rangeChk (s : State) (v : Word) : (s.issue v).rangeChk = s.rangeChk := rfl
@[simp] theorem issue_rounds (s : State) (v : Word) : (s.issue v).rounds = s.rounds := rfl
@[simp] theorem issue_ir (s : State) (v : Word) : (s.issue v).ir = v := rfl
@[simp] theorem issue_st (s : State) (v : Word) : (s.issue v).st = .busy := rfl
@[simp] theorem issue_verdict (s : State) (v : Word) : (s.issue v).verdict = s.verdict := rfl
@[simp] theorem issue_cmp (s : State) (v : Word) : (s.issue v).cmp = s.cmp := rfl
@[simp] theorem issue_lz (s : State) (v : Word) : (s.issue v).lz = s.lz := rfl
@[simp] theorem issue_keysrc (s : State) (v : Word) : (s.issue v).keysrc = s.keysrc := rfl
@[simp] theorem issue_hosterr (s : State) (v : Word) : (s.issue v).hosterr = s.hosterr := rfl
@[simp] theorem issue_err (s : State) (v : Word) : (s.issue v).err = s.err := rfl
@[simp] theorem issue_ier (s : State) (v : Word) : (s.issue v).ier = s.ier := rfl
@[simp] theorem issue_isr (s : State) (v : Word) : (s.issue v).isr = s.isr := rfl
@[simp] theorem issue_phase (s : State) (v : Word) : (s.issue v).phase = .exec := rfl
@[simp] theorem issue_ctx (s : State) (v : Word) : (s.issue v).ctx = s.ctx := rfl
@[simp] theorem issue_h (s : State) (v : Word) : (s.issue v).h = s.h := rfl
@[simp] theorem issue_cfg (s : State) (v : Word) : (s.issue v).cfg = s.cfg := rfl
@[simp] theorem issue_turns (s : State) (v : Word) : (s.issue v).turns = s.turns := rfl
@[simp] theorem issue_rng (s : State) (v : Word) : (s.issue v).rng = s.rng := rfl
@[simp] theorem issue_reply (s : State) (v : Word) : (s.issue v).reply = s.reply := rfl

/-! ### `errClr` -/

@[simp] theorem errClr_x (s : State) (v : Word) : (s.errClr v).x = s.x := rfl
@[simp] theorem errClr_buf (s : State) (v : Word) : (s.errClr v).buf = s.buf := rfl
@[simp] theorem errClr_len (s : State) (v : Word) : (s.errClr v).len = s.len := rfl
@[simp] theorem errClr_rangeChk (s : State) (v : Word) : (s.errClr v).rangeChk = s.rangeChk := rfl
@[simp] theorem errClr_rounds (s : State) (v : Word) : (s.errClr v).rounds = s.rounds := rfl
@[simp] theorem errClr_ir (s : State) (v : Word) : (s.errClr v).ir = s.ir := rfl
@[simp] theorem errClr_st (s : State) (v : Word) : (s.errClr v).st = if v.getLsbD 0 = true ∧ s.st = .error then .idle else s.st := rfl
@[simp] theorem errClr_verdict (s : State) (v : Word) : (s.errClr v).verdict = s.verdict := rfl
@[simp] theorem errClr_cmp (s : State) (v : Word) : (s.errClr v).cmp = s.cmp := rfl
@[simp] theorem errClr_lz (s : State) (v : Word) : (s.errClr v).lz = s.lz := rfl
@[simp] theorem errClr_keysrc (s : State) (v : Word) : (s.errClr v).keysrc = s.keysrc := rfl
@[simp] theorem errClr_hosterr (s : State) (v : Word) : (s.errClr v).hosterr = if v.getLsbD 1 then false else s.hosterr := rfl
@[simp] theorem errClr_err (s : State) (v : Word) : (s.errClr v).err = if v.getLsbD 0 = true ∧ s.st = .error then none else s.err := rfl
@[simp] theorem errClr_ier (s : State) (v : Word) : (s.errClr v).ier = s.ier := rfl
@[simp] theorem errClr_isr (s : State) (v : Word) : (s.errClr v).isr = s.isr := rfl
@[simp] theorem errClr_phase (s : State) (v : Word) : (s.errClr v).phase = s.phase := rfl
@[simp] theorem errClr_ctx (s : State) (v : Word) : (s.errClr v).ctx = s.ctx := rfl
@[simp] theorem errClr_h (s : State) (v : Word) : (s.errClr v).h = s.h := rfl
@[simp] theorem errClr_cfg (s : State) (v : Word) : (s.errClr v).cfg = s.cfg := rfl
@[simp] theorem errClr_turns (s : State) (v : Word) : (s.errClr v).turns = s.turns := rfl
@[simp] theorem errClr_rng (s : State) (v : Word) : (s.errClr v).rng = s.rng := rfl
@[simp] theorem errClr_reply (s : State) (v : Word) : (s.errClr v).reply = s.reply := rfl

/-! ### `takeTurn` -/

@[simp] theorem takeTurn_x (s : State) : (s.takeTurn).x = s.x := rfl
@[simp] theorem takeTurn_buf (s : State) : (s.takeTurn).buf = s.buf := rfl
@[simp] theorem takeTurn_len (s : State) : (s.takeTurn).len = s.len := rfl
@[simp] theorem takeTurn_rangeChk (s : State) : (s.takeTurn).rangeChk = s.rangeChk := rfl
@[simp] theorem takeTurn_rounds (s : State) : (s.takeTurn).rounds = s.rounds := rfl
@[simp] theorem takeTurn_ir (s : State) : (s.takeTurn).ir = s.ir := rfl
@[simp] theorem takeTurn_st (s : State) : (s.takeTurn).st = s.st := rfl
@[simp] theorem takeTurn_verdict (s : State) : (s.takeTurn).verdict = s.verdict := rfl
@[simp] theorem takeTurn_cmp (s : State) : (s.takeTurn).cmp = s.cmp := rfl
@[simp] theorem takeTurn_lz (s : State) : (s.takeTurn).lz = s.lz := rfl
@[simp] theorem takeTurn_keysrc (s : State) : (s.takeTurn).keysrc = s.keysrc := rfl
@[simp] theorem takeTurn_hosterr (s : State) : (s.takeTurn).hosterr = s.hosterr := rfl
@[simp] theorem takeTurn_err (s : State) : (s.takeTurn).err = s.err := rfl
@[simp] theorem takeTurn_ier (s : State) : (s.takeTurn).ier = s.ier := rfl
@[simp] theorem takeTurn_isr (s : State) : (s.takeTurn).isr = s.isr := rfl
@[simp] theorem takeTurn_phase (s : State) : (s.takeTurn).phase = s.phase := rfl
@[simp] theorem takeTurn_ctx (s : State) : (s.takeTurn).ctx = s.ctx := rfl
@[simp] theorem takeTurn_h (s : State) : (s.takeTurn).h = s.h := rfl
@[simp] theorem takeTurn_cfg (s : State) : (s.takeTurn).cfg = s.cfg := rfl
@[simp] theorem takeTurn_turns (s : State) : (s.takeTurn).turns = s.turns.tail := rfl
@[simp] theorem takeTurn_rng (s : State) : (s.takeTurn).rng = s.rng := rfl
@[simp] theorem takeTurn_reply (s : State) : (s.takeTurn).reply = s.reply := rfl

/-! ### `resetBlock` -/

@[simp] theorem resetBlock_x (s : State) : (s.resetBlock).x = (State.resetFor s.cfg).x := rfl
@[simp] theorem resetBlock_buf (s : State) : (s.resetBlock).buf = (State.resetFor s.cfg).buf := rfl
@[simp] theorem resetBlock_len (s : State) : (s.resetBlock).len = (State.resetFor s.cfg).len := rfl
@[simp] theorem resetBlock_rangeChk (s : State) : (s.resetBlock).rangeChk = (State.resetFor s.cfg).rangeChk := rfl
@[simp] theorem resetBlock_rounds (s : State) : (s.resetBlock).rounds = (State.resetFor s.cfg).rounds := rfl
@[simp] theorem resetBlock_ir (s : State) : (s.resetBlock).ir = (State.resetFor s.cfg).ir := rfl
@[simp] theorem resetBlock_st (s : State) : (s.resetBlock).st = (State.resetFor s.cfg).st := rfl
@[simp] theorem resetBlock_verdict (s : State) : (s.resetBlock).verdict = (State.resetFor s.cfg).verdict := rfl
@[simp] theorem resetBlock_cmp (s : State) : (s.resetBlock).cmp = (State.resetFor s.cfg).cmp := rfl
@[simp] theorem resetBlock_lz (s : State) : (s.resetBlock).lz = (State.resetFor s.cfg).lz := rfl
@[simp] theorem resetBlock_keysrc (s : State) : (s.resetBlock).keysrc = (State.resetFor s.cfg).keysrc := rfl
@[simp] theorem resetBlock_hosterr (s : State) : (s.resetBlock).hosterr = (State.resetFor s.cfg).hosterr := rfl
@[simp] theorem resetBlock_err (s : State) : (s.resetBlock).err = (State.resetFor s.cfg).err := rfl
@[simp] theorem resetBlock_ier (s : State) : (s.resetBlock).ier = (State.resetFor s.cfg).ier := rfl
@[simp] theorem resetBlock_isr (s : State) : (s.resetBlock).isr = (State.resetFor s.cfg).isr := rfl
@[simp] theorem resetBlock_phase (s : State) : (s.resetBlock).phase = (State.resetFor s.cfg).phase := rfl
@[simp] theorem resetBlock_ctx (s : State) : (s.resetBlock).ctx = (State.resetFor s.cfg).ctx := rfl
@[simp] theorem resetBlock_h (s : State) : (s.resetBlock).h = (State.resetFor s.cfg).h := rfl
@[simp] theorem resetBlock_cfg (s : State) : (s.resetBlock).cfg = s.cfg := rfl
@[simp] theorem resetBlock_turns (s : State) : (s.resetBlock).turns = s.turns := rfl
@[simp] theorem resetBlock_rng (s : State) : (s.resetBlock).rng = s.rng := rfl
@[simp] theorem resetBlock_reply (s : State) : (s.resetBlock).reply = (State.resetFor s.cfg).reply := rfl

/-! ### Registers -/

@[simp] theorem reg_setReg_same (s : State) (i : RegId) (v : Nat) : (s.setReg i v).reg i = v := by
  simp [State.reg]

theorem reg_setReg (s : State) (i j : RegId) (v : Nat) : (s.setReg i v).reg j = if i = j then v else s.reg j := by
  simp [State.reg, Vector.getElem_set, Fin.ext_iff]

@[simp] theorem reg_setReg_other (s : State) {i j : RegId} (h : i ≠ j) (v : Nat) : (s.setReg i v).reg j = s.reg j := by
  simp [reg_setReg, h]

@[simp] theorem reg_complete (s : State) (i : RegId) : s.complete.reg i = s.reg i := rfl

@[simp] theorem reg_clearCtx (s : State) (i : RegId) : s.clearCtx.reg i = s.reg i := rfl

@[simp] theorem reg_raise (s : State) (c : Cause) (info : BitVec 8) (i : RegId) : (s.raise c info).reg i = s.reg i := by
  simp [State.reg]

@[simp] theorem reg_issue (s : State) (v : Word) (i : RegId) : (s.issue v).reg i = s.reg i := rfl

@[simp] theorem reg_errClr (s : State) (v : Word) (i : RegId) : (s.errClr v).reg i = s.reg i := by
  simp [State.reg]

@[simp] theorem reg_takeTurn (s : State) (i : RegId) : s.takeTurn.reg i = s.reg i := rfl

@[simp] theorem reg_resetBlock (s : State) (i : RegId) : s.resetBlock.reg i = 0 := by
  simp [State.reg, State.resetFor]

/-! ### The bound of a register after each update -/

@[simp] theorem bound_setReg (s : State) (i : RegId) (v : Nat) : (s.setReg i v).bound = s.bound := rfl

@[simp] theorem bound_complete (s : State) : s.complete.bound = s.bound := rfl

@[simp] theorem bound_clearCtx (s : State) : s.clearCtx.bound = s.bound := rfl

@[simp] theorem bound_raise (s : State) (c : Cause) (info : BitVec 8) : (s.raise c info).bound = s.bound := rfl

@[simp] theorem bound_takeTurn (s : State) : s.takeTurn.bound = s.bound := rfl

/-- A register read depends on the register file alone. -/
theorem reg_congr {s t : State} (h : t.x = s.x) (i : RegId) : t.reg i = s.reg i := by simp [State.reg, h]

/-- Two register files that read alike are one. -/
theorem x_ext {s t : State} (h : ∀ i, t.reg i = s.reg i) : t.x = s.x :=
  Vector.ext fun k hk => h ⟨k, hk⟩

end Sys2Proof.Machine
end

