-- ==== Sys2Proof/Laws/PrimeTest.lean ====
section
/-! SUPPORT. What the functions of the primality test compute (44_primegen.md R190, R201, R202), and everything that the shared blocks
can do (44_primegen.md R204, R207). -/

namespace Sys2Proof.Machine

/-! ### The candidate -/

theorem candidate_odd (k u : Nat) : candidate k u % 2 = 1 := by
  have h : (candidate k u).testBit 0 = true := by simp [candidate]
  simpa [Nat.testBit_zero] using h

theorem candidate_lt {k u : Nat} (hk : 1 ≤ k) (hu : u < 2 ^ k) : candidate k u < 2 ^ k :=
  Nat.or_lt_two_pow (Nat.or_lt_two_pow hu (Nat.one_lt_two_pow (by omega))) (Nat.pow_lt_pow_right (by omega) (by omega))

theorem two_pow_le_candidate (k u : Nat) : 2 ^ (k - 1) ≤ candidate k u := Nat.right_le_or

theorem bitlen_candidate {k u : Nat} (hk : 1 ≤ k) (hu : u < 2 ^ k) : bitlen (candidate k u) = k :=
  (bitlen_eq_iff hk).2 ⟨two_pow_le_candidate k u, candidate_lt hk hu⟩

/-! ### `PtBegin` -/

/-- The loop moves every factor of two of `n` into the first component. -/
theorem takeTwos_spec : ∀ fuel s n, n ≠ 0 → n < 2 ^ fuel →
    ∃ e, (takeTwos fuel s n).1 = s + e ∧ n = 2 ^ e * (takeTwos fuel s n).2 ∧ (takeTwos fuel s n).2 % 2 = 1 := by
  intro fuel
  induction fuel with
  | zero => intro s n h0 h; simp at h; omega
  | succ fuel ih =>
    intro s n h0 h
    rw [takeTwos]
    split
    · next h2 =>
      obtain ⟨e, h1, h3, h4⟩ := ih (s + 1) (n / 2) (by omega) (by omega)
      refine ⟨e + 1, by omega, ?_, h4⟩
      rw [pow_succ, mul_right_comm, ← h3]
      omega
    · exact ⟨0, rfl, by simp, by dsimp only; omega⟩

/-- Everything `PtBegin` can answer (R201). -/
theorem ptBegin_cases (x : Nat) :
    (x < 2 ∧ ptBegin x = .decided .composite) ∨ ((x = 2 ∨ x = 3) ∧ ptBegin x = .decided .prime) ∨
    (3 < x ∧ x % 2 = 0 ∧ ptBegin x = .decided .composite) ∨
    (5 ≤ x ∧ x % 2 = 1 ∧ ∃ s t, ptBegin x = .trials s t ∧ t % 2 = 1 ∧ x - 1 = 2 ^ s * t) := by
  by_cases h1 : x < 2
  · exact .inl ⟨h1, by simp [ptBegin, h1]⟩
  by_cases h2 : x = 2 ∨ x = 3
  · exact .inr (.inl ⟨h2, by simp [ptBegin, h1, h2]⟩)
  by_cases h3 : x % 2 = 0
  · exact .inr (.inr (.inl ⟨by omega, h3, by simp [ptBegin, h1, h2, h3]⟩))
  · obtain ⟨e, he, hx, ho⟩ := takeTwos_spec (bitlen x) 0 (x - 1) (by omega)
      (lt_of_le_of_lt (Nat.sub_le _ _) (lt_two_pow_bitlen x))
    refine .inr (.inr (.inr ⟨by omega, by omega, (takeTwos (bitlen x) 0 (x - 1)).1, _,
      by simp only [ptBegin, h1, h2, h3, if_false], ho, ?_⟩))
    rw [he, zero_add]
    exact hx

/-! ### `PtTrial` -/

/-- The squarings of a trial pass exactly when some `y^(2^r)`, `1 ≤ r ≤ n`, is `x - 1`. -/
theorem squareLoop_iff {x : Nat} (hx : 3 ≤ x) : ∀ n y,
    (squareLoop x n y = true ↔ ∃ r, 1 ≤ r ∧ r ≤ n ∧ y ^ 2 ^ r % x = x - 1) := by
  intro n
  induction n with
  | zero =>
    intro y
    refine ⟨nofun, ?_⟩
    rintro ⟨r, h1, h2, -⟩
    omega
  | succ n ih =>
    intro y
    have hsq : ∀ r, (y * y % x) ^ 2 ^ r % x = y ^ 2 ^ (r + 1) % x := by
      intro r
      rw [← Nat.pow_mod, ← pow_two, ← pow_mul, pow_succ, mul_comm]
    rw [squareLoop]
    split
    · next h => exact ⟨fun _ => ⟨1, le_refl _, by omega, by simpa [pow_two] using h⟩, fun _ => rfl⟩
    · next h =>
      split
      · next h1 =>
        refine ⟨nofun, ?_⟩
        rintro ⟨r, hr, -, e⟩
        obtain ⟨r, rfl⟩ : ∃ k, r = k + 1 := ⟨r - 1, by omega⟩
        rw [← hsq, h1, one_pow, Nat.mod_eq_of_lt (by omega)] at e
        omega
      · rw [ih]
        constructor
        · rintro ⟨r, h1, h2, e⟩
          exact ⟨r + 1, by omega, by omega, by rw [← hsq]; exact e⟩
        · rintro ⟨r, h1, h2, e⟩
          obtain ⟨r, rfl⟩ : ∃ k, r = k + 1 := ⟨r - 1, by omega⟩
          rcases Nat.eq_zero_or_pos r with rfl | hr
          · exact absurd (by simpa [pow_two] using e) h
          · exact ⟨r, hr, by omega, by rw [hsq]; exact e⟩

end Sys2Proof.Machine
end

