-- ==== Sys2Proof/Laws/Safety.lean ====
section
/-! SUPPORT. What the shared operations do to the invariant of the block (Safety.lean), once per operation, and how a run of steps
unfolds. -/

namespace Sys2Proof.Machine

/-! ### Runs -/

/-- One step of a run. -/
theorem run_succ (M : Host.Core) {s t : M.State} (h : M.step s = .next t) (k : Nat) : M.run (k + 1) s = M.run k t := by
  rw [Host.Core.run, h]

/-! ### The parts of the invariant that belong to no command -/

theorem bound_pos (s : State) : 0 < s.bound := Nat.two_pow_pos _

theorem two_pow_le_bound {s : State} {k : Nat} (hk : k ≤ s.cfg.w) : 2 ^ k ≤ s.bound := Nat.pow_le_pow_right (by omega) hk

theorem fit_zero {b : Nat} (hb : 0 < b) : Temps.zero.Fit b := by simp [Temps.Fit, Temps.zero, hb]

theorem empty_ok (b : Nat) : MontCtx.empty.Ok b := by simp [MontCtx.Ok, MontCtx.empty]

/-- The parameter, the registers, the buffer and the context are as the invariant says. -/
structure State.Stored (s : State) : Prop where
  cfg_ok   : s.cfg.Admissible
  regs_fit : ∀ i, s.reg i < s.bound
  buf_wf   : Memory.wf s.buf = true
  buf_in   : ∀ c ∈ s.buf, c.1 < s.cfg.bufBytes
  ctx_ok   : s.ctx.Ok s.bound

theorem State.Inv.stored {s : State} (h : s.Inv) : s.Stored := ⟨h.1, h.2, h.3, h.4, h.5⟩

theorem State.Stored.clearCtx {s : State} (h : s.Stored) : s.clearCtx.Stored := ⟨h.1, h.2, h.3, h.4, empty_ok _⟩

theorem State.Stored.setReg {s : State} (h : s.Stored) (i : RegId) {v : Nat} (hv : v < s.bound) : (s.setReg i v).Stored :=
  ⟨h.1, fun j => by rw [reg_setReg]; split; exacts [hv, h.2 j], h.3, h.4, h.5⟩

theorem State.Stored.setRng {s : State} (h : s.Stored) (r : List RngAnswer) : State.Stored { s with rng := r } :=
  ⟨h.1, h.2, h.3, h.4, h.5⟩

/-- A command that ends normally leaves a state with the invariant. -/
theorem State.Stored.complete {s : State} (h : s.Stored) (he : s.err = none) : s.complete.Inv where
  cfg_ok := h.1
  regs_fit := h.2
  buf_wf := h.3
  buf_in := h.4
  ctx_ok := h.5
  err_ok := by simp [State.errOk, he]
  temps_fit := fit_zero (bound_pos _)
  phase_ok := by simp [State.phaseOk]

/-- The fault entry leaves a state with the invariant, for every cause. -/
theorem State.Stored.raise {s : State} (h : s.Stored) (c : Cause) (info : BitVec 8) : (s.raise c info).Inv where
  cfg_ok := h.1
  regs_fit := by simpa using h.2
  buf_wf := by simpa using h.3
  buf_in := by simpa using h.4
  ctx_ok := by
    by_cases hc : c.isFatal <;> simp [State.raise, hc, State.bound]
    · exact empty_ok _
    · exact h.5
  err_ok := by by_cases hc : c.isFatal <;> simp [State.errOk, State.raise, hc]
  temps_fit := fit_zero (bound_pos _)
  phase_ok := by by_cases hc : c.isFatal <;> simp [State.phaseOk, State.raise, hc]

/-- While `BUSY` no fault is recorded. -/
theorem State.Inv.err_of_busy {s : State} (h : s.Inv) (hb : s.st = .busy) : s.err = none := by
  simpa [State.errOk, hb] using h.err_ok

/-- Past `EXEC`, the block's own invariant. -/
theorem State.Inv.block {s : State} (h : s.Inv) {i : Instr} (hd : decode s.ir = .command i) (h1 : s.phase ≠ .none)
    (h2 : s.phase ≠ .exec) : s.st = .busy ∧ s.ctx = MontCtx.empty ∧ blockOk i s := by
  have := h.phase_ok
  unfold State.phaseOk at this
  split at this
  · contradiction
  · contradiction
  · obtain ⟨a, b, j, hj, hb⟩ := this
    rw [hd] at hj
    injection hj with hj
    subst hj
    exact ⟨a, b, hb⟩

end Sys2Proof.Machine
end

