-- ==== Sys2Proof/Laws/Step.lean ====
section
/-! SUPPORT. Everything a step can do, said once per operation: the draw, the shared blocks of the generators, the sequencer's step and
the step of the block. Later proofs cite these and do not unfold the operations. -/

namespace Sys2Proof.Machine

/-! ### The draw (00_scope.md R12) -/

theorem withDraw_nil {s : State} (h : s.rng = []) (k : Nat) (use : Nat → State → Result) : s.withDraw k use = .next s := by
  simp [State.withDraw, h]

theorem withDraw_fail {s : State} {rest : List RngAnswer} (h : s.rng = .fail :: rest) (k : Nat) (use : Nat → State → Result) :
    s.withDraw k use = State.trap { s with rng := rest } .entropy 0 := by
  simp [State.withDraw, h]

theorem withDraw_value {s : State} {u : Nat} {rest : List RngAnswer} (h : s.rng = .value u :: rest) (k : Nat)
    (use : Nat → State → Result) : s.withDraw k use = use (u % 2 ^ k) { s with rng := rest } := by
  simp [State.withDraw, h]

/-- A step with a draw waits, fails, or uses a `u < 2^k`. -/
theorem withDraw_cases {s t : State} {k : Nat} {use : Nat → State → Result} (h : s.withDraw k use = .next t) :
    (s.rng = [] ∧ t = s) ∨ (∃ rest, s.rng = .fail :: rest ∧ t = ({ s with rng := rest } : State).raise .entropy 0) ∨
    ∃ u rest v, s.rng = .value v :: rest ∧ u = v % 2 ^ k ∧ u < 2 ^ k ∧ use u { s with rng := rest } = .next t := by
  rcases hr : s.rng with _ | ⟨a, rest⟩
  · rw [withDraw_nil hr] at h
    exact .inl ⟨rfl, by injection h with h; exact h.symm⟩
  · cases a with
    | fail =>
      rw [withDraw_fail hr] at h
      injection h with h
      exact .inr (.inl ⟨rest, rfl, h.symm⟩)
    | value v =>
      rw [withDraw_value hr] at h
      exact .inr (.inr ⟨_, rest, v, rfl, rfl, Nat.mod_lt _ (by positivity), h⟩)

/-! ### The blocks of the generators (44_primegen.md R204, R207) -/

/-- The start of a test: decided at once, or the trials. -/
theorem beginTest_eq (s : State) (trials : Phase) (decided : Verdict → State → Result) :
    (s.h.cand < 2 ∧ s.beginTest trials decided = decided .composite s) ∨
    ((s.h.cand = 2 ∨ s.h.cand = 3) ∧ s.beginTest trials decided = decided .prime s) ∨
    (3 < s.h.cand ∧ s.h.cand % 2 = 0 ∧ s.beginTest trials decided = decided .composite s) ∨
    (5 ≤ s.h.cand ∧ s.h.cand % 2 = 1 ∧ ∃ e o, o % 2 = 1 ∧ s.h.cand - 1 = 2 ^ e * o ∧
      s.beginTest trials decided = .next { s with h := { s.h with s := e, t := o, i := 0 }, phase := trials }) := by
  rcases ptBegin_cases s.h.cand with ⟨h, hb⟩ | ⟨h, hb⟩ | ⟨h, h2, hb⟩ | ⟨h, h2, e, o, hb, ho, hx⟩
  · exact .inl ⟨h, by simp only [State.beginTest, hb]⟩
  · exact .inr (.inl ⟨h, by simp only [State.beginTest, hb]⟩)
  · exact .inr (.inr (.inl ⟨h, h2, by simp only [State.beginTest, hb]⟩))
  · exact .inr (.inr (.inr ⟨h, h2, e, o, ho, hx, by simp only [State.beginTest, hb]⟩))

/-- A candidate block: wait, fail, or classify a candidate of exactly `k` bits. -/
theorem candBlock_cases {s t : State} {k : Nat} {trials check : Phase} (h : s.candBlock k trials check = .next t) :
    (s.rng = [] ∧ t = s) ∨ (∃ rest, s.rng = .fail :: rest ∧ t = ({ s with rng := rest } : State).raise .entropy 0) ∨
    ∃ u rest v, s.rng = .value v :: rest ∧ u = v % 2 ^ k ∧ u < 2 ^ k ∧
      ((candidate k u = 1 ∧ t = { s with rng := rest, h := { s.h with cand := candidate k u, v := .composite }, phase := check }) ∨
       (candidate k u = 3 ∧ t = { s with rng := rest, h := { s.h with cand := candidate k u, v := .prime }, phase := check }) ∨
       (5 ≤ candidate k u ∧ ∃ e o, o % 2 = 1 ∧ candidate k u - 1 = 2 ^ e * o ∧
         t = { s with rng := rest, h := { s.h with cand := candidate k u, s := e, t := o, i := 0 }, phase := trials })) := by
  rcases withDraw_cases h with h | h | ⟨u, rest, v, hr, hu, hlt, h⟩
  · exact .inl h
  · exact .inr (.inl h)
  · refine .inr (.inr ⟨u, rest, v, hr, hu, hlt, ?_⟩)
    have hodd := candidate_odd k u
    rcases beginTest_eq ({ s with rng := rest, h := { s.h with cand := candidate k u } } : State) trials
        (fun v s => .next { s with h := { s.h with v := v }, phase := check }) with
      ⟨hc, e⟩ | ⟨hc, e⟩ | ⟨hc, h2, -⟩ | ⟨hc, -, x, o, ho, hx, e⟩
    · rw [e] at h
      injection h with h
      exact .inl ⟨by dsimp only at hc; omega, h.symm⟩
    · rw [e] at h
      injection h with h
      exact .inr (.inl ⟨by dsimp only at hc; omega, h.symm⟩)
    · dsimp only at h2; omega
    · rw [e] at h
      injection h with h
      exact .inr (.inr ⟨hc, x, o, ho, hx, h.symm⟩)

/-- A trial block: wait, fail, discard the draw, or run one trial. -/
theorem trialBlock_cases {s t : State} {again : Phase} {decided : Verdict → State → Result}
    (h : s.trialBlock again decided = .next t) :
    (s.rng = [] ∧ t = s) ∨ (∃ rest, s.rng = .fail :: rest ∧ t = ({ s with rng := rest } : State).raise .entropy 0) ∨
    ∃ u rest v, s.rng = .value v :: rest ∧ u = v % 2 ^ bitlen s.h.cand ∧
      (((u < 2 ∨ s.h.cand - 2 < u) ∧ t = { s with rng := rest, phase := again }) ∨
       (2 ≤ u ∧ u ≤ s.h.cand - 2 ∧ ptTrial s.h.cand s.h.s s.h.t u = false ∧ decided .composite { s with rng := rest } = .next t) ∨
       (2 ≤ u ∧ u ≤ s.h.cand - 2 ∧ ptTrial s.h.cand s.h.s s.h.t u = true ∧ s.h.i + 1 = s.roundCount ∧
         decided .probablyPrime { s with rng := rest, h := { s.h with i := s.h.i + 1 } } = .next t) ∨
       (2 ≤ u ∧ u ≤ s.h.cand - 2 ∧ ptTrial s.h.cand s.h.s s.h.t u = true ∧ s.h.i + 1 ≠ s.roundCount ∧
         t = { s with rng := rest, h := { s.h with i := s.h.i + 1 }, phase := again })) := by
  rcases withDraw_cases h with h | h | ⟨u, rest, v, hr, hu, -, h⟩
  · exact .inl h
  · exact .inr (.inl h)
  · refine .inr (.inr ⟨u, rest, v, hr, hu, ?_⟩)
    dsimp only at h
    split at h
    · next hc =>
      injection h with h
      exact .inl ⟨hc, h.symm⟩
    · next hc =>
      push Not at hc
      split at h
      · next hp => exact .inr (.inl ⟨hc.1, hc.2, hp, h⟩)
      · next hp =>
        have hp : ptTrial s.h.cand s.h.s s.h.t u = true := by simpa using hp
        split at h
        · next hi => exact .inr (.inr (.inl ⟨hc.1, hc.2, hp, hi, h⟩))
        · next hi =>
          injection h with h
          exact .inr (.inr (.inr ⟨hc.1, hc.2, hp, hi, h.symm⟩))

/-- The parameter checks: two faults, or the context cleared and the first block next. -/
theorem checkGenerator_cases {s t : State} {ok : Bool} {first : Phase} (h : s.checkGenerator ok first = .next t) :
    (ok = false ∧ t = s.raise .param 1) ∨ (ok = true ∧ s.roundCount = 0 ∧ t = s.raise .param 2) ∨
    (ok = true ∧ s.roundCount ≠ 0 ∧ t = { s.clearCtx with phase := first }) := by
  unfold State.checkGenerator at h
  split at h
  · next h1 =>
    injection h with h
    exact .inl ⟨h1, h.symm⟩
  · next h1 =>
    have h1 : ok = true := by simpa using h1
    split at h
    · next h2 =>
      injection h with h
      exact .inr (.inl ⟨h1, h2, h.symm⟩)
    · next h2 =>
      injection h with h
      exact .inr (.inr ⟨h1, h2, h.symm⟩)

/-! ### The sequencer and the block -/

/-- Everything the sequencer's step can do (40_system_move.md R121, R124). -/
theorem sequencerStep_cases {s t : State} (h : s.sequencerStep = .next t) :
    (s.st ≠ .busy ∧ t = s) ∨
    (s.st = .busy ∧ s.phase = .exec ∧ ∃ why, decode s.ir = .illegal why ∧ t = s.raise .illegalCmd why.info) ∨
    (s.st = .busy ∧ s.phase ≠ .none ∧ ∃ i, decode s.ir = .command i ∧ exec i s = .next t) := by
  unfold State.sequencerStep at h
  split at h
  · next hb =>
    unfold State.runBlock at h
    split at h
    · cases h
    · next why hp hd =>
      injection h with h
      exact .inr (.inl ⟨hb, hp, why, hd, h.symm⟩)
    · cases h
    · next i hd hp => exact .inr (.inr ⟨hb, hp, i, hd, h⟩)
  all_goals
    next hb =>
      injection h with h
      exact .inl ⟨by simp [hb], h.symm⟩

/-- Everything a step can do: the step of the agent whose turn it is. -/
theorem step_cases {s t : State} (h : step s = .next t) :
    (∃ a, s.turn = .host a ∧ t = s.takeTurn.hostAccess a) ∨ (s.turn = .reset ∧ t = s.takeTurn.resetBlock) ∨
    (s.turn = .sequencer ∧ s.takeTurn.sequencerStep = .next t) := by
  unfold step at h
  split at h
  · next a ht =>
    injection h with h
    exact .inl ⟨a, ht, h.symm⟩
  · next ht => exact .inr (.inr ⟨ht, h⟩)
  · next ht =>
    injection h with h
    exact .inr (.inl ⟨ht, h.symm⟩)

end Sys2Proof.Machine
end

