-- ==== Sys2Proof/Tests/Slice0.lean ====
section
/-! SUPPORT. Tests on fixed values. Expected words, results and faults are those of the spec's examples (30_encoding.md R113, the
`Example` lines of the command rules, 95_test_vectors.md), worked at `W = 64`. Then the witnesses: for every statement with
hypotheses, states and operands that meet them, each clause at a boundary value. -/

namespace Sys2Proof.Tests

/-! One theorem after the other: the many kernel evaluations below would else wait on each other in as many threads. -/

set_option Elab.async false

open Sys2Proof.Machine Sys2Proof.Claims

/-! ### Small states -/

/-- The block of `W = 64` after reset. -/
def base : State := State.resetFor ⟨2⟩

/-- `s` with registers loaded. -/
def load (l : List (RegId × Nat)) (s : State) : State :=
  { l.foldl (fun s p => s.setReg p.1 p.2) s with keysrc := s.keysrc }

/-- `s` with a command issued: `BUSY` at `EXEC`, the sequencer next. -/
def running (i : Instr) (s : State) : State := s.issue (encode i)

/-- `s` at a later block of a command. -/
def atBlock (l : Phase) (h : Temps) (s : State) : State := { s with phase := l, h := h, ctx := MontCtx.empty }

/-- `s` with the port's answers. -/
def answers (l : List RngAnswer) (s : State) : State := { s with rng := l }

/-- `s` with a host access next. -/
def hostNext (a : Nat) (op : HostOp) (s : State) : State := { s with turns := [.host ⟨a, 4, op⟩] }

/-- The state after one step. -/
def after (s : State) : State :=
  match step s with
  | .next t => t
  | _ => base

/-- The state after the first step of a command issued in `s`. -/
def run1 (i : Instr) (s : State) : State := after (running i s)

/-- The key of the spec's examples: `n = 3233, e = 17, d = 2753, p = 61, q = 53, dp = 53, dq = 49, qinv = 38`. -/
def keyed : State := load [(0, 3233), (1, 17), (2, 2753), (3, 61), (4, 53), (5, 53), (6, 49), (7, 38)] base

/-- A context loaded for `N`. -/
def context (N : Nat) (s : State) : State := { s with ctx := MontCtx.of N }

/-! ### Ill-formed terms are refused (WellFormed) -/

theorem test_wf_ldi : (Instr.ldi 0 65536).wellFormed = false ∧ (Instr.ldi 0 65535).wellFormed = true := by decide
theorem test_wf_cand : (Instr.cand 0 65536).wellFormed = false := by decide
theorem test_wf_primegen : (Instr.primegen 0 70000).wellFormed = false := by decide
theorem test_wf_genkey : (Instr.genkey 65536).wellFormed = false ∧ (Instr.genkey 0).wellFormed = true := by decide

/-! ### Decoding: words written out field by field (30_encoding.md R101 to R104) -/

theorem test_decode_system :
    decode (0x00#8 ++ 0#24) = .command .nop ∧
    decode (0x01#8 ++ 0xA#4 ++ 0x3#4 ++ 0x0#4 ++ 0x0#4 ++ 0x00#8) = .command (.mov 10 3) ∧
    decode (0x02#8 ++ 0xA#4 ++ 0x0#4 ++ 0x0001#16) = .command (.ldi 10 1) ∧
    decode (0x03#8 ++ 0x0#4 ++ 0xA#4 ++ 0xB#4 ++ 0x0#4 ++ 0x00#8) = .command (.cmp 10 11) := by decide +kernel

theorem test_decode_integer :
    decode (0x10#8 ++ 0xC#4 ++ 0xA#4 ++ 0xB#4 ++ 0x0#4 ++ 0x00#8) = .command (.add 12 10 11) ∧
    decode (0x11#8 ++ 0xA#4 ++ 0x3#4 ++ 0xB#4 ++ 0x0#4 ++ 0x00#8) = .command (.sub 10 3 11) ∧
    decode (0x12#8 ++ 0x0#4 ++ 0x3#4 ++ 0x4#4 ++ 0x0#4 ++ 0x00#8) = .command (.mul 0 3 4) ∧
    decode (0x13#8 ++ 0x5#4 ++ 0x2#4 ++ 0xA#4 ++ 0x0#4 ++ 0x00#8) = .command (.mod 5 2 10) ∧
    decode (0x14#8 ++ 0xB#4 ++ 0x1#4 ++ 0xA#4 ++ 0x0#4 ++ 0x00#8) = .command (.gcd 11 1 10) ∧
    decode (0x15#8 ++ 0x2#4 ++ 0x1#4 ++ 0xA#4 ++ 0x0#4 ++ 0x00#8) = .command (.modinv 2 1 10) ∧
    decode (0x16#8 ++ 0xA#4 ++ 0x0#4 ++ 0x0#4 ++ 0x0#4 ++ 0x00#8) = .command (.bitlen 10 0) := by decide +kernel

theorem test_decode_montgomery :
    decode (0x20#8 ++ 0x0#4 ++ 0x6#4 ++ 0x0#4 ++ 0x0#4 ++ 0x00#8) = .command (.msetup 6) ∧
    decode (0x21#8 ++ 0xC#4 ++ 0xA#4 ++ 0xB#4 ++ 0x0#4 ++ 0x00#8) = .command (.mmul 12 10 11) ∧
    decode (0x22#8 ++ 0xA#4 ++ 0x8#4 ++ 0x0#4 ++ 0x0#4 ++ 0x00#8) = .command (.mto 10 8) ∧
    decode (0x23#8 ++ 0x8#4 ++ 0xA#4 ++ 0x0#4 ++ 0x0#4 ++ 0x00#8) = .command (.mfrom 8 10) ∧
    decode (0x30#8 ++ 0x9#4 ++ 0x8#4 ++ 0x1#4 ++ 0x0#4 ++ 0x00#8) = .command (.modexp 9 8 1 0) := by decide +kernel

theorem test_decode_generators :
    decode (0x40#8 ++ 0xA#4 ++ 0x0#4 ++ 0x0008#16) = .command (.cand 10 8) ∧
    decode (0x41#8 ++ 0x0#4 ++ 0xA#4 ++ 0x0#4 ++ 0x0#4 ++ 0x00#8) = .command (.ptest 10) ∧
    decode (0x42#8 ++ 0xA#4 ++ 0x0#4 ++ 0x0006#16) = .command (.primegen 10 6) ∧
    decode (0x48#8 ++ 0x0#4 ++ 0x0#4 ++ 0x0800#16) = .command (.genkey 2048) := by decide +kernel

theorem test_decode_codec_cipher :
    decode (0x50#8 ++ 0x8#4 ++ 0x0#4 ++ 0x0#4 ++ 0x0#4 ++ 0x00#8) = .command (.encode 8) ∧
    decode (0x51#8 ++ 0x0#4 ++ 0x8#4 ++ 0x0#4 ++ 0x0#4 ++ 0x00#8) = .command (.decode 8) ∧
    decode (0x60#8 ++ 0x8#4 ++ 0xA#4 ++ 0xB#4 ++ 0x0#4 ++ 0x00#8) = .command (.crt 8 10 11) ∧
    decode (0x61#8 ++ 0x9#4 ++ 0x8#4 ++ 0x0#4 ++ 0x0#4 ++ 0x00#8) = .command (.encrypt 9 8) ∧
    decode (0x62#8 ++ 0x8#4 ++ 0x9#4 ++ 0x0#4 ++ 0x0#4 ++ 0x00#8) = .command (.decrypt 8 9) := by decide +kernel

theorem test_decode_illegal :
    decode (0x04#8 ++ 0#24) = .illegal .unknownOpcode ∧ decode (0xFF#8 ++ 0#24) = .illegal .unknownOpcode ∧
    decode (0x48#8 ++ 0x1#4 ++ 0x0#4 ++ 0x0800#16) = .illegal .reservedField ∧
    decode (0x16#8 ++ 0xA#4 ++ 0x0#4 ++ 0x1#4 ++ 0x0#4 ++ 0x00#8) = .illegal .reservedField ∧
    decode (0x30#8 ++ 0x9#4 ++ 0x8#4 ++ 0x1#4 ++ 0x0#4 ++ 0x01#8) = .illegal .reservedField := by decide +kernel

theorem test_table_word : decodeTableWord 32 0x01A30000 = some (.mov 10 3) ∧ decodeTableWord 32 0x04000000 = none := by
  decide +kernel

/-! ### The notation (30_encoding.md R110 to R112) -/

theorem test_assemble_pseudo :
    (assemble "CLR t5 ; clear".toList).map encode = some 0x02F00000 ∧ (assemble "enc".toList).map encode = some 0x61980000 ∧
    (assemble "Dec".toList).map encode = some 0x62890000 := by decide +kernel

theorem test_assemble_refused :
    assemble "LDI t0, 65536".toList = none ∧ assemble "MOV x16, x0".toList = none ∧ assemble "ADD t0, t1".toList = none ∧
    (assemble "LDI t0, 0xffff".toList).map encode = some 0x02A0FFFF := by decide +kernel

/-! ### System, move, compare (40_system_move.md) -/

theorem test_nop : (run1 .nop base).statusWord = 0 ∧ (run1 .nop base).isr = 1 := by decide +kernel

theorem test_mov : (run1 (.mov 10 3) keyed).reg 10 = 61 ∧ (run1 (.mov 10 3) keyed).reg 3 = 61 := by decide +kernel

theorem test_ldi : (run1 (.ldi 1 17) base).reg 1 = 17 ∧ (run1 (.ldi 1 17) base).statusWord = 0x200 := by decide +kernel

theorem test_cmp : (run1 (.cmp 3 4) keyed).statusWord = 0x20 ∧ (run1 (.cmp 4 3) keyed).statusWord = 0x10 := by decide +kernel

/-! ### Exact integers (41_arith.md) -/

theorem test_add : (run1 (.add 12 10 11) (load [(10, 60), (11, 52)] base)).reg 12 = 112 := by decide +kernel

theorem test_add_overflow :
    (run1 (.add 12 10 11) (load [(10, 2 ^ 64 - 1), (11, 1), (12, 5)] base)).errWord = 0x003 ∧
    (run1 (.add 12 10 11) (load [(10, 2 ^ 64 - 1), (11, 1), (12, 5)] base)).reg 12 = 5 := by decide +kernel

theorem test_sub : (run1 (.sub 10 3 11) (load [(3, 61), (11, 1)] base)).reg 10 = 60 := by decide +kernel

theorem test_sub_negative : (run1 (.sub 10 3 11) (load [(11, 1)] base)).errWord = 0x004 := by decide +kernel

theorem test_mul : (run1 (.mul 0 3 4) (load [(3, 61), (4, 53)] base)).reg 0 = 3233 ∧
    (run1 (.mul 0 3 4) (load [(3, 61), (4, 53)] base)).keysrc = .modified := by decide +kernel

theorem test_mul_overflow : (run1 (.mul 12 10 10) (load [(10, 2 ^ 32)] base)).errWord = 0x003 := by decide +kernel

theorem test_mod : (run1 (.mod 5 2 10) (load [(2, 2753), (10, 60)] base)).reg 5 = 53 := by decide +kernel

theorem test_mod_zero : (run1 (.mod 5 2 11) (load [(2, 2753)] base)).errWord = 0xB05 := by decide +kernel

theorem test_gcd : (run1 (.gcd 12 10 11) (load [(10, 48), (11, 18)] base)).reg 12 = 6 ∧ (run1 (.gcd 12 10 11) base).reg 12 = 0 := by
  decide +kernel

theorem test_modinv : (run1 (.modinv 2 1 10) (load [(1, 17), (10, 3120)] base)).reg 2 = 2753 := by decide +kernel

theorem test_modinv_none : (run1 (.modinv 2 10 11) (load [(10, 6), (11, 9)] base)).errWord = 0x006 := by decide +kernel

theorem test_bitlen : (run1 (.bitlen 10 0) keyed).reg 10 = 12 ∧
    (run1 (.bitlen 10 11) (load [(11, 2 ^ 64 - 1)] base)).reg 10 = 64 := by decide +kernel

/-! ### Montgomery and exponentiation (42_montgomery.md, 43_modexp.md) -/

theorem test_msetup : (run1 (.msetup 0) keyed).ctx = ⟨3233, 2029, 1, 0x669F289F, true⟩ := by decide +kernel

theorem test_msetup_two_limbs :
    (run1 (.msetup 10) (load [(10, 0x10000000F)] base)).ctx = ⟨0x10000000F, 0xC5C1, 2, 0x11111111, true⟩ := by decide +kernel

theorem test_mmul : (run1 (.mmul 12 10 10) (context 3233 (load [(10, 65)] base))).reg 12 = 2131 ∧
    (run1 (.mmul 12 10 11) (context 0x10000000F (load [(10, 0x12345678), (11, 0x9ABCDEF0)] base))).reg 12 = 0x64B07EC5 := by
  decide +kernel

theorem test_mmul_range : (run1 (.mmul 12 0 10) (context 3233 keyed)).errWord = 0x109 := by decide +kernel

theorem test_mto : (run1 (.mto 12 10) (context 3233 (load [(10, 65)] base))).reg 12 = 716 ∧
    (run1 (.mto 12 10) base).errWord = 0x008 := by decide +kernel

theorem test_mfrom : (run1 (.mfrom 12 10) (context 3233 (load [(10, 716)] base))).reg 12 = 65 ∧
    (run1 (.mfrom 12 10) (context 0x10000000F (load [(10, 0x12345678)] base))).reg 12 = 0xD71EF3EB := by decide +kernel

theorem test_modexp : (run1 (.modexp 9 8 1 0) (context 7 (load [(8, 65)] keyed))).reg 9 = 2790 ∧
    (run1 (.modexp 9 8 1 0) (context 7 (load [(8, 65)] keyed))).ctx.valid = false := by decide +kernel

theorem test_modexp_zero : (run1 (.modexp 9 10 10 11) (load [(11, 7)] base)).reg 9 = 1 ∧
    (run1 (.modexp 9 10 10 11) (load [(11, 3232)] base)).errWord = 0xB07 := by decide +kernel

/-! ### Primes and keys (44_primegen.md, 45_keygen.md) -/

theorem test_cand : (run1 (.cand 10 8) (answers [.value 0x7E] base)).reg 10 = 0xFF ∧
    (run1 (.cand 10 0) base).errWord = 0x102 := by decide +kernel

theorem test_cand_fail : (run1 (.cand 10 8) (answers [.fail] base)).errWord = 0x081 ∧
    (run1 (.cand 10 8) (answers [.fail] base)).st = .fatal := by decide +kernel

/-- A test of 221 with one round, its trials about to begin. -/
def testing221 : State := atBlock .ptTrial ⟨221, 2, 55, 0, .composite, 0, 0⟩ (running (.ptest 10) { load [(10, 221)] base with rounds := 1 })

theorem test_ptest_begins : run1 (.ptest 10) { load [(10, 221)] base with rounds := 1 } = testing221 := by decide +kernel

theorem test_ptest_trial : (after (answers [.value 174] testing221)).statusWord = 0x4 ∧
    (after (answers [.value 137] testing221)).statusWord = 0x0 := by decide +kernel

theorem test_primegen_cand :
    (after (answers [.value 28] (atBlock .pgCand Temps.zero (running (.primegen 10 6) base)))).h = ⟨61, 2, 15, 0, .composite, 0, 0⟩ := by
  decide +kernel

theorem test_primegen_decide :
    (after (atBlock .pgDecide ⟨61, 2, 15, 2, .probablyPrime, 0, 0⟩ (running (.primegen 10 6) base))).reg 10 = 61 := by decide +kernel

/-- `GENKEY 12` with `e = 17`, about to commit `p = 61`, `q = 53`. -/
def deriving12 : State := atBlock .gkDerive ⟨53, 2, 13, 2, .probablyPrime, 61, 53⟩ (running (.genkey 12) (load [(1, 17)] base))

theorem test_genkey_commit :
    (after deriving12).x = #v[3233, 17, 2753, 61, 53, 53, 49, 38, 0, 0, 0, 0, 0, 0, 0, 0] ∧
    (after deriving12).statusWord = 0x100 := by decide +kernel

theorem test_genkey_checks : (run1 (.genkey 1) base).errWord = 0x102 ∧ (run1 (.genkey 12) { base with rounds := 0 }).errWord = 0x202 := by
  decide +kernel

/-! ### Codec and cipher (46_codec.md, 47_cipher_crt.md) -/

theorem test_encode : (run1 (.encode 8) { base with buf := Memory.writeWord [] 0 0x73696854, len := 4 }).reg 8 = 0x54686973 := by
  decide +kernel

theorem test_encode_leading_zero :
    (run1 (.encode 8) { base with buf := [(2, 1)], len := 3 }).reg 8 = 1 ∧ (run1 (.encode 8) { base with buf := [(2, 1)], len := 3 }).lz = true := by
  decide +kernel

theorem test_decode_command :
    (run1 (.decode 8) { load [(8, 2790)] base with buf := [(5, 9)] }).buf = [(0, 0x0A), (1, 0xE6)] ∧
    (run1 (.decode 8) (load [(8, 2790)] base)).len = 2 := by decide +kernel

theorem test_crt : (run1 (.crt 8 10 11) (load [(10, 4), (11, 12)] keyed)).reg 8 = 65 ∧
    (run1 (.crt 8 10 11) (load [(10, 100), (11, 200)] keyed)).reg 8 = 2479 := by decide +kernel

theorem test_encrypt : (run1 (.encrypt 9 8) (load [(8, 65)] keyed)).reg 9 = 2790 ∧
    (run1 (.encrypt 9 8) (load [(8, 3233)] keyed)).errWord = 0x00A := by decide +kernel

theorem test_decrypt : (run1 (.decrypt 8 9) (load [(9, 2790)] keyed)).reg 8 = 65 ∧
    (run1 (.decrypt 8 9) (load [(9, 2000)] keyed)).reg 8 = 1356 := by decide +kernel

/-! ### Host, faults, reset (10_state.md, 20_memory.md, 60_exceptions.md) -/

theorem test_host_buffer_word :
    (after (hostNext 0xC000 .read (run1 (.decode 8) (load [(8, 2790)] base)))).reply = .data 0x0000E60A := by decide +kernel

theorem test_host_misaligned : (after { base with turns := [.host ⟨0x0009, 4, .write 0⟩] }).reply = .error 0 ∧
    (after { base with turns := [.host ⟨0x0008, 2, .write 0⟩] }).ctrlWord = 1 := by decide +kernel

theorem test_host_busy : (after (hostNext 0x4000 .read (running .nop keyed))).reply = .data 0 ∧
    (after (hostNext 0x4000 .read (running .nop keyed))).statusWord = 0x401 := by decide +kernel

theorem test_errclr :
    (after (hostNext 0x001C (.write 1) (run1 (.sub 10 3 11) (load [(11, 1)] base)))).st = .idle ∧
    (after (hostNext 0x001C (.write 1) (run1 (.sub 10 3 11) (load [(11, 1)] base)))).errWord = 0 := by decide +kernel

theorem test_first_step_after_reset : step (State.reset.withFetchWord 32 0x02100011) = step (State.reset.issue 0x02100011) ∧
    (after (State.reset.withFetchWord 32 0x02100011)).reg 1 = 17 := by
  refine ⟨rfl, by decide +kernel⟩

theorem test_serial_product :
    montMulSerial 1 3233 0x669F289F 716 716 = 1278 ∧ montMulSerial 2 0x10000000F 0x11111111 0x12345678 0x9ABCDEF0 = 0x64B07EC5 ∧
    modExpSerial 4 13 497 = 445 := by decide +kernel

/-! ## Witnesses of hypotheses -/

/-- Does the step give a next state? -/
def stepsOn (s : State) : Bool :=
  match step s with
  | .next _ => true
  | _ => false

theorem step_after {s : State} (h : stepsOn s = true) : step s = .next (after s) := by
  unfold stepsOn at h
  unfold after
  split at h
  · next t ht => rw [ht]
  · cases h

/-- A state of `W = 64` with an empty buffer, no context and no fault. -/
def Plain (s : State) : Prop := s.cfg = ⟨2⟩ ∧ s.buf = [] ∧ s.ctx = MontCtx.empty ∧ s.err = none ∧ ∀ i, s.reg i < 2 ^ 64

theorem bound_of {s : State} (h : s.cfg = ⟨2⟩) : s.bound = 2 ^ 64 := by unfold State.bound; rw [h]; rfl

theorem inv_of {s : State} (h : Plain s) (hs : s.st = .idle ∨ s.st = .busy) (hf : s.h.Fit (2 ^ 64)) (hp : s.phaseOk) : s.Inv := by
  obtain ⟨h1, h2, h3, h4, h5⟩ := h
  refine ⟨by rw [h1]; decide, by rw [bound_of h1]; exact h5, by rw [h2]; rfl, by rw [h2]; simp, by rw [h3]; simp [MontCtx.Ok, MontCtx.empty],
    ?_, by rw [bound_of h1]; exact hf, hp⟩
  unfold State.errOk
  rcases hs with hs | hs <;> rw [hs] <;> exact h4

theorem fit_zero64 : Temps.zero.Fit (2 ^ 64) := by unfold Temps.Fit; decide +kernel

theorem phase_idle {s : State} (h : s.phase = .none) (h1 : s.st ≠ .busy) (h2 : s.h = Temps.zero) : s.phaseOk := by
  unfold State.phaseOk
  rw [h]
  exact ⟨h1, h2⟩

theorem inv_running (i : Instr) {s : State} (h : Plain s) (hh : s.h = Temps.zero) : (running i s).Inv :=
  inv_of h (.inr rfl) (by show s.h.Fit _; rw [hh]; exact fit_zero64) ⟨rfl, hh⟩

theorem inv_block {i : Instr} {l : Phase} {h : Temps} {s : State} (hp : Plain s) (hl : l ≠ .none ∧ l ≠ .exec) (hf : h.Fit (2 ^ 64))
    (hd : decode (encode i) = .command i) (hb : blockOk i (atBlock l h (running i s))) : (atBlock l h (running i s)).Inv := by
  refine inv_of ⟨hp.1, hp.2.1, rfl, hp.2.2.2.1, hp.2.2.2.2⟩ (.inr rfl) hf ?_
  unfold State.phaseOk
  split
  · next h => exact absurd h hl.1
  · next h => exact absurd h hl.2
  · exact ⟨rfl, rfl, i, hd, hb⟩

theorem plain_base : Plain base := by unfold Plain; decide +kernel
theorem plain_load (l : List (RegId × Nat)) (h : ∀ i, (load l base).reg i < 2 ^ 64 := by decide +kernel)
    (hs : (load l base).cfg = ⟨2⟩ ∧ (load l base).buf = [] ∧ (load l base).ctx = MontCtx.empty ∧ (load l base).err = none := by decide +kernel) :
    Plain (load l base) := ⟨hs.1, hs.2.1, hs.2.2.1, hs.2.2.2, h⟩

/-! ### Encoding and steps -/

theorem witness_DecodeOfEncode : (Instr.cand 15 65535).wellFormed = true := by decide

theorem witness_EncodeOfDecode : decode 0x4800FFFF = .command (.genkey 65535) := by decide +kernel

theorem witness_DecodeFollowsTable :
    (∃ r ∈ opcodeTable, (0x62FF0000 : Word) &&& r.mask = r.pattern) ∧
    ((∀ r ∈ opcodeTable, (0x63000000 : Word) &&& r.mask ≠ r.pattern) ∧
      ∀ r ∈ opcodeTable, r.opcode.toNat ≠ (0x63000000 : Word).toNat / 2 ^ 24) ∧
    ((∀ r ∈ opcodeTable, (0x00000001 : Word) &&& r.mask ≠ r.pattern) ∧
      ∃ r ∈ opcodeTable, r.opcode.toNat = (0x00000001 : Word).toNat / 2 ^ 24) ∧
    base.turn = .sequencer ∧ decode 0x01A30001 = .illegal .reservedField := by decide +kernel

theorem witness_WordLayout : 65535 < 2 ^ 16 := by decide

theorem witness_StepRunsDecodedCommand :
    (running (.genkey 65535) base).turn = .sequencer ∧ (running (.genkey 65535) base).st = .busy ∧
    (running (.genkey 65535) base).phase ≠ .none ∧ decode (running (.genkey 65535) base).ir = .command (.genkey 65535) := by decide +kernel

theorem witness_IllegalWordFaults : ∀ p ∈ [((0xFFFFFFFF : Word), Illegal.unknownOpcode), (0x01A30001, Illegal.reservedField)],
    (base.issue p.1).turn = .sequencer ∧ (base.issue p.1).st = .busy ∧ (base.issue p.1).phase = .exec ∧
    decode (base.issue p.1).ir = .illegal p.2 := by decide +kernel

/-- Used opcodes with a bit set that the command does not use: the least and the greatest such bit of a formatted word. -/
theorem witness_IllegalWordFaults_reserved :
    (0x00000001 : Word).toNat / 2 ^ 24 = 0x00 ∧ (0x00000001 : Word) &&& 0x00FFFFFF ≠ 0 ∧
    (0x01A30001 : Word).toNat / 2 ^ 24 = 0x01 ∧ (0x01A30001 : Word) &&& 0x0000FFFF ≠ 0 ∧
    (0x03800000 : Word).toNat / 2 ^ 24 = 0x03 ∧ (0x03800000 : Word) &&& 0x00F00FFF ≠ 0 ∧
    (0x62008000 : Word).toNat / 2 ^ 24 = 0x62 ∧ (0x62008000 : Word) &&& 0x0000FFFF ≠ 0 := by decide +kernel

theorem witness_IssueLatchesWord :
    (hostNext 0x10 (.write 0xFFFFFFFF) base).turn = .host ⟨0x10, 4, .write 0xFFFFFFFF⟩ ∧ (hostNext 0x10 (.write 0xFFFFFFFF) base).st = .idle ∧
    (hostNext 0x10 (.write 0xFFFFFFFF) (running .nop base)).turn = .host ⟨0x10, 4, .write 0xFFFFFFFF⟩ ∧
    (hostNext 0x10 (.write 0xFFFFFFFF) (running .nop base)).st ≠ .idle := by decide +kernel

theorem witness_DrawsAndWaits_waits : (base.turn = .sequencer ∧ base.st ≠ .busy) ∧
    (running (.cand 10 64) base).turn = .sequencer ∧ (running (.cand 10 64) base).rngRequest = some 64 ∧
    (running (.cand 10 64) base).rng = [] := by decide +kernel

/-- `CAND t0, 64` with one answer to come. -/
def drawing : State := running (.cand 10 64) (answers [.value 0, .fail] base)

theorem witness_DrawsAndWaits_draws :
    (drawing.Inv ∧ step drawing = .next (after drawing) ∧ drawing.turn = .sequencer ∧ drawing.rngRequest = some 64) ∧
    ((running .nop base).Inv ∧ step (running .nop base) = .next (after (running .nop base)) ∧ (running .nop base).turn = .sequencer ∧
      (running .nop base).rngRequest = none) ∧
    ((hostNext 0 .read base).Inv ∧ step (hostNext 0 .read base) = .next (after (hostNext 0 .read base)) ∧
      (hostNext 0 .read base).turn ≠ .sequencer) :=
  ⟨⟨inv_running _ (by unfold Plain; decide +kernel) rfl, step_after (by decide +kernel), by decide +kernel, by decide +kernel⟩,
   ⟨inv_running _ plain_base rfl, step_after (by decide +kernel), by decide +kernel, by decide +kernel⟩,
   ⟨inv_of (by unfold Plain; decide +kernel) (.inl rfl) fit_zero64 (phase_idle rfl (by decide) rfl), step_after (by decide +kernel),
    by decide +kernel⟩⟩

/-! ### Arithmetic -/

theorem witness_MoveAndCompare : 65535 < 2 ^ 16 := by decide

/-- Extreme operands: `x10 = 2^64 - 1`, `x11 = 1`, `x12 = 0`, `x13 = 2^32`, `x14 = 2^32 - 1`. -/
def extremes : State := load [(10, 2 ^ 64 - 1), (11, 1), (13, 2 ^ 32), (14, 2 ^ 32 - 1)] base

theorem witness_AddSubMul :
    extremes.reg 10 + extremes.reg 12 < 2 ^ extremes.cfg.w ∧ 2 ^ extremes.cfg.w ≤ extremes.reg 10 + extremes.reg 11 ∧
    extremes.reg 10 = extremes.reg 10 + 0 ∧ extremes.reg 12 < extremes.reg 11 ∧
    extremes.reg 13 * extremes.reg 14 < 2 ^ extremes.cfg.w ∧ 2 ^ extremes.cfg.w ≤ extremes.reg 13 * extremes.reg 13 := by decide +kernel

theorem witness_ModGcdBitlen :
    extremes.reg 11 ≠ 0 ∧ extremes.reg 12 = 0 ∧ (1 ≤ 1 ∧ 2 ^ (1 - 1) ≤ extremes.reg 11 ∧ extremes.reg 11 < 2 ^ 1) ∧
    (1 ≤ 64 ∧ 2 ^ (64 - 1) ≤ extremes.reg 10 ∧ extremes.reg 10 < 2 ^ 64) := by decide +kernel

theorem witness_ModinvCommand :
    (extremes.reg 11 ≠ 0 ∧ Nat.gcd (extremes.reg 12) (extremes.reg 11) = 1) ∧ extremes.reg 12 = 0 ∧
    (extremes.reg 13 ≠ 0 ∧ Nat.gcd (extremes.reg 12) (extremes.reg 13) ≠ 1) := by decide +kernel

/-! ### Montgomery and exponentiation -/

theorem witness_MsetupCommand :
    extremes.cfg.Admissible ∧ (extremes.reg 10 < 2 ^ extremes.cfg.w ∧ extremes.reg 10 % 2 = 1) ∧
    (extremes.reg 11 < 2 ^ extremes.cfg.w ∧ extremes.reg 11 % 2 = 1) ∧ extremes.reg 12 % 2 = 0 := by decide +kernel

/-- A context for 3233, `x10 = 3232`, `x11 = 0`, `x12 = 3233`. -/
def montgomery : State := context 3233 (load [(10, 3232), (12, 3233)] base)

theorem witness_MontgomeryCommands :
    (montgomery.ctx.valid = true ∧ montgomery.ctx.mn % 2 = 1 ∧ montgomery.reg 10 < montgomery.ctx.mn ∧ montgomery.reg 11 < montgomery.ctx.mn) ∧
    extremes.ctx.valid = false ∧ montgomery.ctx.mn ≤ montgomery.reg 12 ∧
    (montgomery.reg 10 < montgomery.ctx.mn ∧ montgomery.ctx.mn ≤ montgomery.reg 12) := by decide +kernel

theorem witness_MontgomeryLaws : ∀ N ∈ [1, 3233], (context N base).cfg.Admissible ∧ (context N base).ctx.Ok (2 ^ (context N base).cfg.w) ∧
    (context N base).ctx.valid = true ∧ N - 1 < (context N base).ctx.mn := by
  unfold MontCtx.Ok
  decide +kernel

theorem witness_SerialProduct : 0x10000000F % 2 = 1 ∧ 0x10000000E < 0x10000000F := by decide

theorem witness_ModexpCommand : extremes.reg 11 % 2 = 1 ∧ extremes.reg 12 % 2 = 0 := by decide +kernel

theorem witness_SerialExponentiation : 1 % 2 = 1 ∧ 497 % 2 = 1 := by decide

/-! ### Primes -/

theorem witness_CandidateShape : (1 ≤ 1 ∧ 1 < 2 ^ 1) ∧ (2 ≤ 2 ∧ 3 < 2 ^ 2) := by decide

theorem witness_CandCommand :
    base.cfg.w < 65 ∧ (1 ≤ 64 ∧ 64 ≤ base.cfg.w) ∧ base.rng = [] ∧ (answers [.fail] base).rng = .fail :: [] ∧
    ((answers [.value (2 ^ 64 - 1)] base).rng = .value (2 ^ 64 - 1) :: [] ∧ 2 ^ 64 - 1 < 2 ^ 64) := by decide +kernel

theorem witness_PtestBlocks_exec :
    ({ running (.ptest 10) base with rounds := 0 }.phase = .exec ∧ { running (.ptest 10) base with rounds := 0 }.rounds = 0) ∧
    ∀ v ∈ [1, 2, 3, 4, 5], (running (.ptest 10) (load [(10, v)] base)).phase = .exec ∧ (running (.ptest 10) (load [(10, v)] base)).rounds ≠ 0 ∧
      (running (.ptest 10) (load [(10, v)] base)).reg 10 = v := by decide +kernel

/-- The draws that a trial of the odd number 221 can meet at the label `l`: none yet, a failing one, bases refused at both ends, one that
fails the trial, one that passes it as the last and as not the last. -/
abbrev TrialDrawsMet (l : Phase) (s : State) : Prop :=
  s.phase = l ∧ s.h.cand = 221 ∧ s.h.s = 2 ∧ s.h.t = 55 ∧ s.rng = [] ∧ (answers [.fail] s).rng = .fail :: [] ∧
  (answers [.value 174] s).rng = .value 174 :: [] ∧
  (1 = 1 % 2 ^ bitlen s.h.cand ∧ 1 < 2) ∧
  (220 = 220 % 2 ^ bitlen s.h.cand ∧ s.h.cand < 220 + 2) ∧
  (2 = 2 % 2 ^ bitlen s.h.cand ∧ 2 + 2 ≤ s.h.cand ∧ ptTrial s.h.cand s.h.s s.h.t 2 = false) ∧
  (174 = 174 % 2 ^ bitlen s.h.cand ∧ 174 + 2 ≤ s.h.cand ∧ ptTrial s.h.cand s.h.s s.h.t 174 = true ∧
    s.h.i + 1 = s.rounds.toNat ∧ s.h.i + 1 ≠ ({ s with rounds := 2 } : State).rounds.toNat)

/-- The draws that a candidate of `k` bits can meet at the label `l`: none yet, a failing one, and one whose candidate is `c`. -/
abbrev CandidateDrawsMet (l : Phase) (s : State) (k u c : Nat) : Prop :=
  s.phase = l ∧ s.rng = [] ∧ (answers [.fail] s).rng = .fail :: [] ∧ (answers [.value u] s).rng = .value u :: [] ∧
  c = (u % 2 ^ k) ||| 1 ||| 2 ^ (k - 1)

theorem witness_PtestBlocks_trial : TrialDrawsMet .ptTrial testing221 := by decide +kernel

theorem witness_TrialMeaning : (3 ≤ 3 ∧ 1 ≤ 1) ∧ 3 ≤ 221 ∧ 1 ≤ 2 := by decide

/-- A test of 61, one round, the acceptable base 2 to come. -/
def testing61 : State :=
  atBlock .ptTrial ⟨61, 2, 15, 0, .composite, 0, 0⟩ (running (.ptest 10) { answers [.value 2] (load [(10, 61)] base) with rounds := 1 })

theorem inv_testing61 : testing61.Inv :=
  inv_block (by unfold Plain; decide +kernel) (by decide) (by unfold Temps.Fit; decide +kernel) (by decide +kernel)
    (by show State.testOk _; unfold State.testOk; decide +kernel)

theorem witness_PrimeNeverComposite :
    (Nat.Prime 5 ∧ 5 - 1 = 2 ^ 2 * 1 ∧ 1 % 2 = 1 ∧ 5 ≤ 5 ∧ 2 ≤ 3 ∧ 3 + 2 ≤ 5) ∧
    (testing61.Inv ∧ Runs testing61 (.ptest 10) ∧ testing61.phase = .ptTrial ∧ Nat.Prime testing61.h.cand ∧
      step testing61 = .next (after testing61) ∧ (after testing61).st = .idle) ∧
    ((running (.ptest 10) (load [(10, 2)] base)).Inv ∧ Runs (running (.ptest 10) (load [(10, 2)] base)) (.ptest 10) ∧
      Nat.Prime ((running (.ptest 10) (load [(10, 2)] base)).reg 10) ∧
      step (running (.ptest 10) (load [(10, 2)] base)) = .next (run1 (.ptest 10) (load [(10, 2)] base)) ∧
      (run1 (.ptest 10) (load [(10, 2)] base)).st = .idle) := by
  have h61 : testing61.h.cand = 61 := rfl
  have h2 : (running (.ptest 10) (load [(10, 2)] base)).reg 10 = 2 := by decide +kernel
  refine ⟨⟨by norm_num, by decide, by decide, by decide, by decide, by decide⟩,
    ⟨inv_testing61, by unfold Runs; decide +kernel, rfl, by rw [h61]; norm_num, step_after (by decide +kernel), by decide +kernel⟩,
    inv_running _ (plain_load _) rfl, by unfold Runs; decide +kernel, by rw [h2]; exact Nat.prime_two, step_after (by decide +kernel),
    by decide +kernel⟩

theorem witness_VerdictsAreWhatTheySay : ∀ v ∈ [2, 3],
    Runs (running (.ptest 10) (load [(10, v)] base)) (.ptest 10) ∧
    step (running (.ptest 10) (load [(10, v)] base)) = .next (run1 (.ptest 10) (load [(10, v)] base)) ∧
    (run1 (.ptest 10) (load [(10, v)] base)).st = .idle ∧ (run1 (.ptest 10) (load [(10, v)] base)).verdict = .prime := by
  intro v hv
  simp only [List.mem_cons, List.not_mem_nil, or_false] at hv
  rcases hv with rfl | rfl <;>
    exact ⟨by unfold Runs; decide +kernel, step_after (by decide +kernel), by decide +kernel, by decide +kernel⟩

theorem witness_PtestEnds :
    testing61.Inv ∧ testing61.st = .busy ∧ testing61.phase = .ptTrial ∧ decode testing61.ir = .command (.ptest 10) ∧ testing61.turns = [] ∧
    testing61.rng = [2].map .value ++ [] ∧ (∀ u ∈ [2], 2 ≤ u ∧ u + 2 ≤ testing61.h.cand) ∧
    testing61.rounds.toNat - testing61.h.i ≤ [2].length :=
  ⟨inv_testing61, by decide +kernel, by decide +kernel, by decide +kernel, by decide +kernel, by decide +kernel, by decide +kernel,
    by decide +kernel⟩

theorem witness_PrimegenBlocks :
    ((running (.primegen 10 0) base).phase = .exec ∧ base.cfg.w < 65 ∧ (1 ≤ 64 ∧ 64 ≤ base.cfg.w) ∧ base.rounds ≠ 0 ∧
      ({ base with rounds := 0 } : State).rounds = 0) ∧
    (∀ p ∈ [(1, 0, 1), (2, 0, 3), (3, 0, 5)], CandidateDrawsMet .pgCand (atBlock .pgCand Temps.zero base) p.1 p.2.1 p.2.2) ∧
    TrialDrawsMet .pgTrial (atBlock .pgTrial testing221.h { base with rounds := 1 }) ∧
    ∀ v ∈ [Verdict.composite, .probablyPrime, .prime], (atBlock .pgDecide { Temps.zero with v := v } base).phase = .pgDecide ∧
      (atBlock .pgDecide { Temps.zero with v := v } base).h.v = v := by decide +kernel

/-- `PRIMEGEN t0, 6` about to accept 61. -/
def accepting61 : State := atBlock .pgDecide ⟨61, 2, 15, 2, .probablyPrime, 0, 0⟩ (running (.primegen 10 6) base)

theorem witness_PrimegenResult : accepting61.Inv ∧ Runs accepting61 (.primegen 10 6) ∧ step accepting61 = .next (after accepting61) ∧
    (after accepting61).st = .idle :=
  ⟨inv_block plain_base (by decide) (by unfold Temps.Fit; decide +kernel) (by decide +kernel)
     (by show State.paramsOk _ 1 6 ∧ State.decidedOk _ 6
         unfold State.paramsOk State.decidedOk candidateOk
         decide +kernel),
   by unfold Runs; decide +kernel, step_after (by decide +kernel), by decide +kernel⟩

/-! ### Keys -/

/-- The blocks that draw, for `GENKEY 2`, `5` and `7`: `p` of 1, 2 and 3 bits, `q` of 1, 3 and 4; and the trials of 221. -/
theorem witness_GenkeySearches_draws :
    (∀ p ∈ [(2, 0, 1), (5, 0, 3), (7, 0, 5)], CandidateDrawsMet .gpCand (atBlock .gpCand Temps.zero base) (p.1 / 2) p.2.1 p.2.2) ∧
    (∀ p ∈ [(2, 0, 1), (3, 0, 3), (5, 0, 5), (7, 15, 15)],
      CandidateDrawsMet .gqCand (atBlock .gqCand Temps.zero base) (p.1 - p.1 / 2) p.2.1 p.2.2) ∧
    ∀ l ∈ [Phase.gpTrial, .gqTrial], TrialDrawsMet l (atBlock l testing221.h { base with rounds := 1 }) := by decide +kernel

/-- At the accept tests: `s` holds the candidate 61 or 53 with the verdict `v`, after `p = 61`. -/
def checking (l : Phase) (c : Nat) (v : Verdict) (s : State) : State := atBlock l { Temps.zero with cand := c, v := v, p := 61 } s

theorem witness_GenkeySearches :
    ((running (.genkey 1) base).phase = .exec ∧ 1 < 2 ∧ base.cfg.w < 65 ∧ (2 ≤ 64 ∧ 64 ≤ base.cfg.w)) ∧ base.rounds ≠ 0 ∧
    ({ base with rounds := 0 } : State).rounds = 0 ∧
    (∀ l ∈ [Phase.gpCheck, .gqCheck], (checking l 53 .prime keyed).phase = l ∧ (checking l 53 .prime keyed).h.v ≠ .composite ∧
      (checking l 53 .prime keyed).h.cand ≠ (checking l 53 .prime keyed).h.p ∧
      Nat.gcd ((checking l 53 .prime keyed).reg 1) ((checking l 53 .prime keyed).h.cand - 1) = 1 ∧
      (checking l 53 .composite keyed).h.v = .composite ∧ (checking l 61 .prime keyed).h.cand = (checking l 61 .prime keyed).h.p ∧
      Nat.gcd ((checking l 53 .prime base).reg 1) ((checking l 53 .prime base).h.cand - 1) ≠ 1) := by decide +kernel

/-- `GK_DERIVE` for `p`, `q` under the exponent `e`. -/
def deriving' (e p q : Nat) : State := atBlock .gkDerive { Temps.zero with p := p, q := q } (running (.genkey 13) (load [(1, e)] base))

theorem witness_GenkeyCommits :
    (∀ s ∈ [deriving' 7 49 91, deriving' 17 61 53, deriving' 1 2 3], s.phase = .gkDerive ∧ 2 ≤ s.h.p ∧ 2 ≤ s.h.q ∧
      Nat.gcd (s.reg 1) ((s.h.p - 1) * (s.h.q - 1)) = 1) ∧
    Nat.gcd 53 61 = 1 ∧ Nat.gcd 3 2 = 1 ∧ Nat.gcd 91 49 ≠ 1 ∧
    Nat.gcd ((deriving' 3 61 53).reg 1) (((deriving' 3 61 53).h.p - 1) * ((deriving' 3 61 53).h.q - 1)) ≠ 1 := by decide +kernel

theorem inv_deriving12 : deriving12.Inv :=
  inv_block (plain_load _) (by decide) (by unfold Temps.Fit; decide +kernel) (by decide +kernel)
    (by show State.paramsOk _ 2 12 ∧ acceptedOk 17 6 61 ∧ acceptedOk 17 6 53 ∧ 53 ≠ 61
        unfold State.paramsOk acceptedOk candidateOk
        decide +kernel)

theorem witness_GenkeyPostconditions : deriving12.Inv ∧ Runs deriving12 (.genkey 12) ∧ step deriving12 = .next (after deriving12) ∧
    (after deriving12).st = .idle :=
  ⟨inv_deriving12, by unfold Runs; decide +kernel, step_after (by decide +kernel), by decide +kernel⟩

/-- A state in `FATAL` that holds `F_INVARIANT(1)`. -/
def fatalState : State := { base with st := .fatal, err := some ⟨.invariant, 1⟩ }

theorem inv_fatalState : fatalState.Inv := by
  refine ⟨by decide, by decide +kernel, rfl, by simp [fatalState, base, State.resetFor], ?_, ?_, fit_zero64, ?_⟩
  · simp [fatalState, base, State.resetFor, MontCtx.Ok, MontCtx.empty]
  · exact ⟨⟨_, rfl, by decide⟩, rfl⟩
  · exact phase_idle rfl (by decide) rfl

theorem witness_InvariantFaults : fatalState.Inv ∧ step fatalState = .next (after fatalState) ∧
    (after fatalState).err = some ⟨.invariant, 1⟩ := ⟨inv_fatalState, step_after (by decide +kernel), by decide +kernel⟩

theorem witness_CommandsThatNeverEnd : ∀ p ∈ [(Instr.primegen 10 1, 3), (.genkey 12, 0), (.genkey 2, 3), (.genkey 4, 3), (.genkey 64, 2)],
    (running p.1 (load [(1, p.2)] base)).Inv ∧ (running p.1 (load [(1, p.2)] base)).st = .busy ∧
    decode (running p.1 (load [(1, p.2)] base)).ir = .command p.1 ∧ NeverEnds (running p.1 (load [(1, p.2)] base)) p.1 ∧
    (running p.1 (load [(1, p.2)] base)).rounds ≠ 0 ∧ (∀ b, p.1 = .genkey b → 2 ≤ b ∧ b ≤ (running p.1 (load [(1, p.2)] base)).cfg.w) ∧
    NeitherResetNorFail (running p.1 (load [(1, p.2)] base)) := by
  intro p hp
  simp only [List.mem_cons, List.not_mem_nil, or_false] at hp
  have hw : ∀ i v, (running i (load [(1, v)] base)).cfg.w = 64 := fun _ _ => rfl
  have hn : ∀ i v, NeitherResetNorFail (running i (load [(1, v)] base)) := fun i v => by
    have h1 : (running i (load [(1, v)] base)).turns = [] := rfl
    have h2 : (running i (load [(1, v)] base)).rng = [] := rfl
    simp [NeitherResetNorFail, h1, h2]
  have he : ∀ i v, (running i (load [(1, v)] base)).reg 1 = v := fun _ _ => rfl
  rcases hp with rfl | rfl | rfl | rfl | rfl <;>
    exact ⟨inv_running _ (plain_load _) rfl, rfl, by decide +kernel, by simp [NeverEnds, he], by decide +kernel,
      by intro b hb; dsimp only at hb; cases hb <;> (rw [hw]; decide), hn _ _⟩

/-! ### Codec and cipher -/

/-- The message `00 00 01` in a buffer of 8 bytes. -/
def message : State := { base with buf := [(2, 1)], len := 3 }

theorem witness_EncodeCommand : message.len.toNat ≤ message.cfg.bufBytes ∧ ({ message with len := 8 } : State).len.toNat ≤ message.cfg.bufBytes ∧
    message.cfg.bufBytes < ({ message with len := 9 } : State).len.toNat := by decide +kernel

theorem witness_DecodeCommand : extremes.cfg.Admissible ∧ Memory.wf extremes.buf = true ∧ extremes.reg 10 < 2 ^ extremes.cfg.w := by
  decide +kernel

theorem witness_CodecRoundTrips :
    (message.cfg.Admissible ∧ Memory.wf message.buf = true) ∧ extremes.reg 10 < 2 ^ extremes.cfg.w ∧
    (message.len.toNat ≤ message.cfg.bufBytes ∧ 2 ≤ message.len.toNat ∧ (∀ i, i < 2 → message.buf.read i = 0) ∧ message.buf.read 2 ≠ 0) ∧
    (3 ≤ ({ base with len := 3 } : State).len.toNat ∧ ∀ i, i < 3 → base.buf.read i = 0) := by decide +kernel

theorem witness_CrtCommand : (keyed.reg 3 ≠ 0 ∧ keyed.reg 0 ≠ 0) ∧ base.reg 3 = 0 ∧ ((load [(3, 1)] base).reg 3 ≠ 0 ∧ (load [(3, 1)] base).reg 0 = 0) := by
  decide +kernel

theorem witness_CrtRecombines : (keyed.reg 0 = keyed.reg 3 * keyed.reg 4 ∧ keyed.reg 7 * keyed.reg 4 % keyed.reg 3 = 1) ∧
    ∀ p ∈ [(0, 0, 0), (65, 4, 12), (3232, 60, 52)], p.1 < keyed.reg 0 ∧
      (load [(10, p.2.1), (11, p.2.2)] keyed).reg 10 % keyed.reg 3 = p.1 % keyed.reg 3 ∧
      (load [(10, p.2.1), (11, p.2.2)] keyed).reg 11 = p.1 % keyed.reg 4 := by decide +kernel

/-- The example key with `x8 = 3232` and `x9 = 3233`. -/
def ciphering : State := load [(8, 3232), (9, 3233)] keyed

theorem witness_EncryptCommand :
    (ciphering.reg 0 % 2 = 1 ∧ (ciphering.rangeChk = true → ciphering.reg 8 < ciphering.reg 0)) ∧ base.reg 0 % 2 = 0 ∧
    (ciphering.rangeChk = true ∧ ciphering.reg 0 ≤ ciphering.reg 9) := by decide +kernel

theorem witness_DecryptCommand :
    (ciphering.reg 3 % 2 = 1 ∧ ciphering.reg 4 % 2 = 1 ∧ ciphering.reg 0 ≠ 0 ∧ (ciphering.rangeChk = true → ciphering.reg 8 < ciphering.reg 0)) ∧
    base.reg 3 % 2 = 0 ∧ ((load [(3, 1)] base).reg 3 % 2 = 1 ∧ (load [(3, 1)] base).reg 4 % 2 = 0) ∧
    ((load [(3, 1), (4, 1)] base).reg 4 % 2 = 1 ∧ (load [(3, 1), (4, 1)] base).reg 0 = 0) ∧
    (ciphering.rangeChk = true ∧ ciphering.reg 0 ≤ ciphering.reg 9) := by decide +kernel

theorem prime_key : PrimeKey ciphering where
  modulus := by decide +kernel
  primes := by
    have h3 : ciphering.reg 3 = 61 := by decide +kernel
    have h4 : ciphering.reg 4 = 53 := by decide +kernel
    rw [h3, h4]
    exact ⟨by norm_num, by norm_num⟩
  distinct := by decide +kernel
  odd := by decide +kernel
  exponent := by decide +kernel
  crt := by decide +kernel

theorem witness_CrtEqualsDirect : PrimeKey ciphering ∧ ciphering.reg 8 < ciphering.reg 0 := ⟨prime_key, by decide +kernel⟩

/-- A ciphertext outside the key bank, in a register of it that `DECRYPT` does not read, and in one that it does. -/
theorem witness_CipherRoundTrip : PrimeKey ciphering ∧ ciphering.reg 8 < ciphering.reg 0 ∧
    (∀ rc ∈ [(1 : RegId), 2, 8, 15], rc ∉ ([0, 3, 4, 5, 6, 7] : List RegId)) ∧ (0 : RegId).val ≤ 7 ∧ (7 : RegId).val ≤ 7 :=
  ⟨prime_key, by decide +kernel, by decide, by decide, by decide⟩

/-! ### Faults, host, reset -/

theorem witness_FaultEntryAndReturn :
    Cause.msgTooLarge.code.toNat < 0x80 ∧ 0x80 ≤ Cause.entropy.code.toNat ∧
    (∀ st ∈ [SeqState.idle, .busy, .error, .fatal], ∀ v ∈ [0, 1, 2, 3],
      (hostNext 0x1C (.write (BitVec.ofNat 32 v)) { base with st := st }).turn = .host ⟨0x001C, 4, .write (BitVec.ofNat 32 v)⟩ ∧
      (hostNext 0x1C (.write (BitVec.ofNat 32 v)) { base with st := st }).st = st) ∧
    (3 : Word).getLsbD 0 = true ∧ (2 : Word).getLsbD 0 = false := by decide +kernel

/-- `SUB` of a larger number, at `EXEC`. -/
def subtracting : State := running (.sub 10 3 11) (load [(11, 1)] base)

theorem inv_subtracting : subtracting.Inv := inv_running _ (plain_load _) rfl

theorem witness_FaultsArePrecise : subtracting.Inv ∧ subtracting.turn = .sequencer ∧ subtracting.st = .busy ∧
    step subtracting = .next (after subtracting) ∧ (after subtracting).st = .error :=
  ⟨inv_subtracting, by decide +kernel, rfl, step_after (by decide +kernel), by decide +kernel⟩

theorem witness_FatalUntilReset : (hostNext 0x24 (.write 7) fatalState).st = .fatal ∧ (hostNext 0x24 (.write 7) fatalState).turn ≠ .reset ∧
    step (hostNext 0x24 (.write 7) fatalState) = .next (after (hostNext 0x24 (.write 7) fatalState)) :=
  ⟨by decide +kernel, by decide +kernel, step_after (by decide +kernel)⟩

theorem witness_CommandWritesOnly :
    (Runs (running (.mov 10 3) keyed) (.mov 10 3) ∧ step (running (.mov 10 3) keyed) = .next (run1 (.mov 10 3) keyed) ∧
      (run1 (.mov 10 3) keyed).reg 10 ≠ (running (.mov 10 3) keyed).reg 10) ∧
    (Runs deriving12 (.genkey 12) ∧ (after deriving12).reg 0 ≠ deriving12.reg 0) ∧
    (run1 (.decode 8) keyed).buf.read 0 = keyed.buf.read 0 ∧ (run1 (.decode 0) keyed).len ≠ keyed.len ∧
    (after testing61).verdict ≠ testing61.verdict ∧ (run1 (.cmp 3 4) keyed).cmp ≠ keyed.cmp ∧ (run1 (.encode 8) message).lz ≠ message.lz ∧
    (run1 (.msetup 0) keyed).ctx ≠ keyed.ctx ∧ (run1 (.modexp 9 8 1 0) (context 7 keyed)).ctx ≠ (context 7 keyed).ctx :=
  ⟨⟨by unfold Runs; decide +kernel, step_after (by decide +kernel), by decide +kernel⟩, ⟨by unfold Runs; decide +kernel, by decide +kernel⟩,
    by decide +kernel, by decide +kernel, by decide +kernel, by decide +kernel, by decide +kernel, by decide +kernel, by decide +kernel⟩

theorem witness_KeysrcProvenance :
    ({ base with turns := [.reset] } : State).turn = .reset ∧
    (∀ i ∈ [(0 : RegId), 7, 8, 15], ∀ j ∈ [0, 1], j < base.cfg.wwords ∧ base.cfg.Admissible ∧
      HostWrites (hostNext (xAddr i j) (.write 0) base) (xAddr i j) 0) ∧
    ((hostNext 0x0008 (.write 0) base).turn = .host ⟨0x0008, 4, .write 0⟩ ∧ ∀ i j, xAddr i j ≠ 0x0008) ∧
    (Runs subtracting (.sub 10 3 11) ∧ (after subtracting).st ≠ .idle) ∧
    (Runs (running (.mov 7 3) keyed) (.mov 7 3) ∧ (run1 (.mov 7 3) keyed).st = .idle) ∧
    (Runs deriving12 (.genkey 12) ∧ (after deriving12).st = .idle) := by
  refine ⟨by decide +kernel, by unfold HostWrites; decide +kernel, ⟨by decide +kernel, fun i j => by unfold xAddr; omega⟩,
    ⟨by unfold Runs; decide +kernel, by decide +kernel⟩, ⟨by unfold Runs; decide +kernel, by decide +kernel⟩,
    by unfold Runs; decide +kernel, by decide +kernel⟩

theorem witness_HostWritesByState :
    (∀ a ∈ [0x0000, 0x0008, 0x000C, 0x0010, 0x001C, 0x0028, 0x0038, 0x7C04, 0x8000, 0xC004, 0xC008, 0xFFFC],
      HostWrites (hostNext a (.write 0xFFFFFFFF) base) a 0xFFFFFFFF) ∧
    base.cfg.Admissible ∧ IsWritableWindow base.cfg 0x7C04 ∧ IsWritableWindow base.cfg 0xC004 ∧ ¬ IsWritableWindow base.cfg 0xC008 ∧
    ¬ IsWritableWindow base.cfg 0x0000 ∧ ¬ IsWritableWindow base.cfg 0xFFFC := by
  have hn : ∀ a, (a < 0x4000 ∨ 0xC008 ≤ a) → ¬ IsWritableWindow base.cfg a := by
    have hw : base.cfg.wwords = 2 := rfl
    rintro a h (⟨i, j, hj, rfl⟩ | ⟨j, hj, rfl⟩)
    · have := i.isLt
      unfold xAddr at h
      omega
    · omega
  exact ⟨by unfold HostWrites; decide +kernel, by decide, .inl ⟨15, 1, by decide, by decide⟩, .inr ⟨1, by decide, by decide⟩,
    hn _ (by omega), hn _ (by omega), hn _ (by omega)⟩

theorem witness_HostReadsByState :
    (({ base with turns := [.host ⟨0x0004, 8, .read⟩] } : State).turn = .host ⟨0x0004, 8, .read⟩ ∧ 8 ≠ 4) ∧
    (∀ a ∈ [0x0000, 0x0008, 0x002C, 0x0034, 0x0038, 0x4000, 0x7C04, 0x8004, 0x8404, 0xC004, 0xFFFC],
      HostReads (hostNext a .read (running .nop base)) a ∧ HostReads (hostNext a .read base) a) ∧
    base.cfg.Admissible ∧ IsWindow base.cfg 0x7C04 ∧ IsWindow base.cfg 0x8404 := by
  refine ⟨by decide +kernel, by unfold HostReads; decide +kernel, by decide, .inl ⟨15, 1, by decide, by decide⟩, .inr ⟨1, by decide, by decide⟩⟩

theorem witness_ControlRegisterWords : (∀ a ∈ [0x0000, 0x0004, 0x0008, 0x000C, 0x0010, 0x0014, 0x0018, 0x001C, 0x0020, 0x0024, 0x0028, 0x002C,
    0x0030, 0x0034], fatalState.cfg.Admissible ∧ fatalState.st ≠ .busy ∧ HostReads (hostNext a .read fatalState) a) ∧
    (∀ a ∈ [0x0000, 0x0004, 0x0010, 0x0014, 0x0018, 0x0020, 0x0024, 0x002C],
      (hostNext a .read testing61).st = .busy ∧ testing61.cfg.Admissible ∧ HostReads (hostNext a .read testing61) a) ∧
    fatalState.err = some ⟨.invariant, 1⟩ ∧ testing61.err = none := by
  unfold HostReads
  decide +kernel

theorem witness_ControlRegisterWords_answer :
    step (hostNext 0x18 .read fatalState) = .next (answered (hostNext 0x18 .read fatalState) (.data 0x182) false) := rfl

/-- A host polls a running `PTEST`: `STATE` is `BUSY`, `PHASE` is `PT_TRIAL` (10_state.md R36, R40, R46). -/
theorem test_poll_busy :
    step (hostNext 0x14 .read testing61) = .next (answered (hostNext 0x14 .read testing61) (.data 0x00000001) false) ∧
    step (hostNext 0x2C .read testing61) = .next (answered (hostNext 0x2C .read testing61) (.data 0x00000012) false) := ⟨rfl, rfl⟩

theorem witness_RegisterWindows : ∀ j ∈ [0, 1], ∀ i ∈ [(0 : RegId), 7, 8, 15], base.cfg.Admissible ∧ j < base.cfg.wwords ∧ base.st ≠ .busy ∧
    HostReads (hostNext (xAddr i j) .read base) (xAddr i j) ∧ HostReads (hostNext (0x8000 + 4 * j) .read base) (0x8000 + 4 * j) ∧
    HostReads (hostNext (0x8400 + 4 * j) .read base) (0x8400 + 4 * j) ∧
    HostWrites (hostNext (0x8400 + 4 * j) (.write 1) base) (0x8400 + 4 * j) 1 ∧
    HostWrites (hostNext (xAddr i j) (.write 1) base) (xAddr i j) 1 ∧ base.st ≠ .fatal := by
  unfold HostReads HostWrites
  decide +kernel

theorem witness_BufferWindow : ∀ j ∈ [0, 1], message.cfg.Admissible ∧ j < message.cfg.wwords ∧ message.st ≠ .busy ∧
    Memory.wf message.buf = true ∧ HostReads (hostNext (0xC000 + 4 * j) .read message) (0xC000 + 4 * j) ∧
    HostWrites (hostNext (0xC000 + 4 * j) (.write 1) message) (0xC000 + 4 * j) 1 ∧ message.st ≠ .fatal := by
  unfold HostReads HostWrites
  decide +kernel

theorem witness_InterruptRegisters :
    (hostNext 0x24 (.write 7) fatalState).turn = .host ⟨0x0024, 4, .write 7⟩ ∧ (hostNext 0x20 (.write 7) fatalState).turn = .host ⟨0x0020, 4, .write 7⟩ ∧
    (subtracting.turn = .sequencer ∧ step subtracting = .next (after subtracting) ∧ subtracting.st = .busy) :=
  ⟨by decide +kernel, by decide +kernel, by decide +kernel, step_after (by decide +kernel), rfl⟩

theorem witness_ResetState : ({ drawing with turns := [.reset] } : State).turn = .reset := by decide +kernel

theorem witness_FlagsDoNotFlowBack :
    SameButFlags subtracting { subtracting with cmp := .greater, lz := true, ier := 7, isr := 7, hosterr := true, keysrc := .generated } ∧
    subtracting.turn = .sequencer ∧ step subtracting = .next (after subtracting) :=
  ⟨rfl, by decide +kernel, step_after (by decide +kernel)⟩

theorem witness_BusyHidesOperands :
    SameButOperands (hostNext 0x4000 .read (running .nop base)) (hostNext 0x4000 .read (running .nop keyed)) ∧
    (hostNext 0x4000 .read (running .nop base)).st = .busy ∧ (∃ a, (hostNext 0x4000 .read (running .nop base)).turn = .host a) ∧
    step (hostNext 0x4000 .read (running .nop base)) = .next (after (hostNext 0x4000 .read (running .nop base))) :=
  ⟨rfl, rfl, ⟨_, rfl⟩, step_after (by decide +kernel)⟩

/-! ### Invariants -/

theorem witness_InvariantAtReset : Config.Admissible ⟨2⟩ ∧ Config.Admissible ⟨256⟩ := by decide

theorem witness_StepKeepsInvariant : deriving12.Inv ∧ step deriving12 = .next (after deriving12) :=
  ⟨inv_deriving12, step_after (by decide +kernel)⟩

theorem witness_RunsNeverStop : testing61.Inv := inv_testing61

theorem witness_GeneratedKeysStayValid : deriving12.Inv ∧ deriving12.KeyOk ∧ step deriving12 = .next (after deriving12) :=
  ⟨inv_deriving12, by intro h; exact absurd h (by decide +kernel), step_after (by decide +kernel)⟩

/-- A valid key in the bank satisfies the hypothesis with its conclusion, not by an empty premise. -/
theorem witness_KeyValid : (after deriving12).keysrc = .generated ∧ (after deriving12).KeyValid :=
  ⟨by decide +kernel, ⟨by decide +kernel, by decide +kernel, by decide +kernel, by decide +kernel, by decide +kernel, by decide +kernel,
    by decide +kernel⟩⟩

end Sys2Proof.Tests
end

