-- ==== Sys2Proof/Proofs/Keysrc.lean ====
section
/-! SUPPORT. The provenance of the key bank (10_state.md R26): what a host access does to `KEYSRC`, what each end of a command does to it,
and the step of the block assembled from the two. -/

namespace Sys2Proof.Proofs.Keysrc

open Sys2Proof.Machine Sys2Proof.Claims

theorem keysrcAfterWrite_eq (i : RegId) (k : KeySrc) : keysrcAfterWrite i k = if i.val ≤ 7 then .modified else k := by
  simp [keysrcAfterWrite, inKeyBank]

/-! ### The host (10_state.md R45 to R48, 20_memory.md R71 to R75) -/

/-- Only the address of a word of `x[i]` names one. -/
theorem eq_xAddr_of_hostTarget_xWord {c : Config} {a : Nat} (ha : a % 4 = 0) {i : RegId} {j : Nat} (h : hostTarget c a = .xWord i j) :
    j < c.wwords ∧ a = xAddr i j := by
  rcases hostTarget_cases c ha with ⟨r, -, e⟩ | ⟨i', j', hj, -, ea, e⟩ | ⟨_, _, _, _, e⟩ | ⟨_, _, _, _, e⟩ | ⟨_, _, _, _, e⟩ | e
  case inr.inl =>
    obtain ⟨rfl, rfl⟩ : i' = i ∧ j' = j := by simpa [h] using e.symm
    exact ⟨hj, ea⟩
  all_goals simp [h] at e

/-- The states that accept a write of a register window (10_state.md R45 to R48). -/
theorem accepted_xWord (i : RegId) (j : Nat) (st : SeqState) :
    (Target.xWord i j).accepted st = true ↔ st = .idle ∨ st = .error := by
  cases st <;> simp [Target.accepted]

theorem writeTarget_keysrc {s : State} {v : Word} {tgt : Target} (h : ∀ i j, tgt ≠ .xWord i j) :
    (s.writeTarget v tgt).keysrc = s.keysrc := by
  cases tgt with
  | csr r => cases r <;> rfl
  | xWord i j => exact absurd rfl (h i j)
  | mnWord | mrrWord | bufWord | reserved => rfl

/-- An access that writes no word of a register keeps `KEYSRC`, whether it is performed, refused or ignored. -/
theorem hostAccess_keysrc {s : State} {a : HostAccess}
    (h : ∀ i j v, j < s.cfg.wwords → a ≠ ⟨xAddr i j, 4, .write v⟩) : (s.hostAccess a).keysrc = s.keysrc := by
  cases hl : a.legal with
  | false => rw [hostAccess_error s hl]
  | true =>
    obtain ⟨addr, bytes, op⟩ := a
    obtain ⟨rfl, ha, -⟩ : bytes = 4 ∧ addr % 4 = 0 ∧ addr ≤ 0xFFFC := by simpa [HostAccess.legal] using hl
    cases op with
    | read =>
      cases hr : (hostTarget s.cfg addr).readable s.st with
      | true => rw [hostAccess_read s hl hr]
      | false => rw [hostAccess_read_refused s hl hr]
    | write v =>
      have hx : ∀ i j, hostTarget s.cfg addr ≠ .xWord i j := by
        intro i j e
        obtain ⟨hj, rfl⟩ := eq_xAddr_of_hostTarget_xWord ha e
        exact h i j v hj rfl
      cases hw : (hostTarget s.cfg addr).writable with
      | false => rw [hostAccess_write_ignored s hl hw]
      | true =>
        cases hc : (hostTarget s.cfg addr).accepted s.st with
        | true => rw [hostAccess_write s hl hw hc]; exact writeTarget_keysrc hx
        | false => rw [hostAccess_write_refused s hl hw hc]

/-- A write of a word of `x[i]` marks a key register as modified where the state accepts it. -/
theorem hostAccess_xWord_keysrc {s : State} {i : RegId} {j : Nat} {v : Word} (hj : j < s.cfg.wwords) (hcfg : s.cfg.Admissible)
    (hl : (⟨xAddr i j, 4, .write v⟩ : HostAccess).legal = true) :
    (s.hostAccess ⟨xAddr i j, 4, .write v⟩).keysrc =
      if i.val ≤ 7 ∧ (s.st = .idle ∨ s.st = .error) then .modified else s.keysrc := by
  have ht : hostTarget s.cfg (xAddr i j) = .xWord i j := hostTarget_xWord i hj (hj.trans_le hcfg.2)
  have hw : (hostTarget s.cfg (xAddr i j)).writable = true := by rw [ht]; rfl
  have hacc := accepted_xWord i j s.st
  rw [← ht] at hacc
  cases hc : (hostTarget s.cfg (xAddr i j)).accepted s.st with
  | true =>
    rw [hostAccess_write s hl hw hc, ht]
    simp [State.writeTarget, keysrcAfterWrite_eq, hacc.1 hc]
  | false =>
    have hn : ¬ (s.st = .idle ∨ s.st = .error) := by simp [← hacc, hc]
    rw [hostAccess_write_refused s hl hw hc, if_neg (fun h => hn h.2)]

/-! ### The ends of a command (40_system_move.md R123, 60_exceptions.md R290) -/

/-- For a command's step from a state with `KEYSRC = k`: the state it gives has `KEYSRC` at `k'` if the command has ended in `IDLE`, else
still at `k`. -/
structure EndsAt (r : Result) (k k' : KeySrc) : Prop where
  keysrc_eq : ∀ t, r = .next t → t.keysrc = if t.st = .idle then k' else k

theorem EndsAt.ite {c : Prop} [Decidable c] {a b : Result} {k k' : KeySrc} (ha : EndsAt a k k') (hb : EndsAt b k k') :
    EndsAt (if c then a else b) k k' := by
  split <;> assumption

theorem endsAt_fault (f : Fault) (k k' : KeySrc) : EndsAt (.fault f) k k' := ⟨fun _ h => by cases h⟩

theorem endsAt_next {s : State} {k k' : KeySrc} (h : s.keysrc = if s.st = .idle then k' else k) : EndsAt (.next s) k k' where
  keysrc_eq t ht := by
    obtain rfl : s = t := Host.Outcome.next.inj ht
    exact h

theorem endsAt_trap (s : State) (c : Cause) (info : BitVec 8) (k' : KeySrc) : EndsAt (s.trap c info) s.keysrc k' := by
  refine endsAt_next ?_
  cases h : c.isFatal <;> simp [h]

theorem endsAt_complete (s : State) (k : KeySrc) : EndsAt (.next s.complete) k s.keysrc := endsAt_next (by simp)

theorem endsAt_deliver (s : State) (rd : RegId) (v : Nat) (k : KeySrc) :
    EndsAt (s.deliver rd v) k (keysrcAfterWrite rd s.keysrc) :=
  endsAt_complete (s.setReg rd v) k

theorem endsAt_deliverExact (s : State) (rd : RegId) (r : Nat) :
    EndsAt (s.deliverExact rd r) s.keysrc (keysrcAfterWrite rd s.keysrc) :=
  .ite (endsAt_trap ..) (endsAt_deliver ..)

/-- A command that goes on or waits is still `BUSY`. -/
theorem endsAt_busy {s : State} {k k' : KeySrc} (hs : s.st = .busy) (hk : s.keysrc = k) : EndsAt (.next s) k k' :=
  endsAt_next (by simp [hs, hk])

/-! ### The blocks of the generators (44_primegen.md R204, R207) -/

section Blocks

variable {s : State} {k' : KeySrc} (hs : s.st = .busy)
include hs

theorem endsAt_withDraw {k : Nat} {use : Nat → State → Result}
    (h : ∀ u rest, EndsAt (use u { s with rng := rest }) s.keysrc k') : EndsAt (s.withDraw k use) s.keysrc k' := by
  rcases hr : s.rng with _ | ⟨_ | _, rest⟩
  · rw [withDraw_nil hr]
    exact endsAt_busy hs rfl
  · rw [withDraw_value hr]
    exact h ..
  · rw [withDraw_fail hr]
    exact endsAt_trap { s with rng := rest } ..

theorem endsAt_beginTest {trials : Phase} {decided : Verdict → State → Result}
    (h : ∀ v, EndsAt (decided v s) s.keysrc k') : EndsAt (s.beginTest trials decided) s.keysrc k' := by
  rcases beginTest_eq s trials decided with ⟨-, e⟩ | ⟨-, e⟩ | ⟨-, -, e⟩ | ⟨-, -, _, _, -, -, e⟩ <;> rw [e]
  · exact h _
  · exact h _
  · exact h _
  · exact endsAt_busy hs rfl

theorem endsAt_candBlock (k : Nat) (trials check : Phase) : EndsAt (s.candBlock k trials check) s.keysrc k' :=
  endsAt_withDraw hs fun u rest =>
    endsAt_beginTest (s := { s with rng := rest, h := { s.h with cand := candidate k u } }) hs fun _ => endsAt_busy hs rfl

theorem endsAt_trialBlock {again : Phase} {decided : Verdict → State → Result}
    (h : ∀ v rest tmp, EndsAt (decided v { s with rng := rest, h := tmp }) s.keysrc k') :
    EndsAt (s.trialBlock again decided) s.keysrc k' := by
  have goesOn : ∀ rest tmp, EndsAt (.next { s with rng := rest, h := tmp, phase := again }) s.keysrc k' :=
    fun _ _ => endsAt_busy hs rfl
  exact endsAt_withDraw hs fun u rest => .ite (goesOn ..) (.ite (h ..) (.ite (h ..) (goesOn ..)))

theorem endsAt_trialThenCheck (again check : Phase) : EndsAt (s.trialThenCheck again check) s.keysrc k' :=
  endsAt_trialBlock hs fun _ _ _ => endsAt_busy hs rfl

theorem endsAt_goto (l : Phase) : EndsAt (s.goto l) s.keysrc k' := endsAt_busy hs rfl

theorem endsAt_checkGenerator (ok : Bool) (first : Phase) : EndsAt (s.checkGenerator ok first) s.keysrc k' :=
  .ite (endsAt_trap ..) (.ite (endsAt_trap ..) (endsAt_goto (s := s.clearCtx) hs first))

/-! ### The multi-step commands (44_primegen.md R204, R207, 45_keygen.md R221) -/

theorem endsAt_ptest (rs1 : RegId) : EndsAt (execPtest rs1 s) s.keysrc s.keysrc := by
  unfold execPtest
  split
  · exact .ite (endsAt_trap ..)
      (endsAt_beginTest (s := { s.clearCtx with h := { s.h with cand := s.reg rs1 } }) hs fun _ => endsAt_complete ..)
  · exact endsAt_trialBlock hs fun _ _ _ => endsAt_complete ..
  · exact endsAt_fault ..

theorem endsAt_primegen (rd : RegId) (imm16 : Nat) :
    EndsAt (execPrimegen rd imm16 s) s.keysrc (keysrcAfterWrite rd s.keysrc) := by
  unfold execPrimegen
  split
  · exact endsAt_checkGenerator hs ..
  · exact endsAt_candBlock hs ..
  · exact endsAt_trialThenCheck hs ..
  · exact .ite (endsAt_deliver ..) (endsAt_goto hs _)
  · exact endsAt_fault ..

/-- `GENKEY` ends in `IDLE` only by its commit, which says `GENERATED` (45_keygen.md R224). -/
theorem endsAt_genkey (imm16 : Nat) : EndsAt (execGenkey imm16 s) s.keysrc .generated := by
  unfold execGenkey
  split
  · exact endsAt_checkGenerator hs ..
  · exact endsAt_candBlock hs ..
  · exact endsAt_trialThenCheck hs ..
  · exact .ite (endsAt_goto hs _) (.ite (endsAt_goto hs _) (endsAt_busy hs rfl))
  · exact endsAt_candBlock hs ..
  · exact endsAt_trialThenCheck hs ..
  · exact .ite (endsAt_goto hs _) (.ite (endsAt_goto hs _) (.ite (endsAt_goto hs _) (endsAt_busy hs rfl)))
  · exact .ite (endsAt_trap ..) (.ite (endsAt_trap ..) (endsAt_complete (s.commitKey s.h.p s.h.q) _))
  · exact endsAt_fault ..

end Blocks

/-! ### Every command -/

/-- `KEYSRC` when the command `i` has ended in `IDLE`, if it was `k` before (10_state.md R26). -/
def keysrcAtEnd (k : KeySrc) : Instr → KeySrc
  | .genkey _ => .generated
  | i => (dest i).elim k fun rd => keysrcAfterWrite rd k

theorem keysrcAtEnd_eq {i : Instr} (hi : ∀ b, i ≠ .genkey b) (k : KeySrc) :
    keysrcAtEnd k i = if (∃ rd, dest i = some rd ∧ rd.val ≤ 7) then .modified else k := by
  have e : keysrcAtEnd k i = (dest i).elim k fun rd => keysrcAfterWrite rd k := by
    cases i with
    | genkey b => exact absurd rfl (hi b)
    | _ => rfl
  rw [e]
  cases dest i <;> simp [keysrcAfterWrite_eq]

/-- A command that writes a register marks a key register as it ends; every fault and every block before the last keeps `KEYSRC`. -/
theorem endsAt_exec {s : State} (hs : s.st = .busy) : ∀ i : Instr, EndsAt (exec i s) s.keysrc (keysrcAtEnd s.keysrc i)
  | .nop => endsAt_complete ..
  | .mov .. => endsAt_deliver ..
  | .ldi .. => endsAt_deliver ..
  | .cmp .. => endsAt_complete ..
  | .add .. => endsAt_deliverExact ..
  | .sub .. => .ite (endsAt_trap ..) (endsAt_deliver ..)
  | .mul .. => endsAt_deliverExact ..
  | .mod .. => .ite (endsAt_trap ..) (endsAt_deliver ..)
  | .gcd .. => endsAt_deliver ..
  | .modinv .. => .ite (endsAt_trap ..) (.ite (endsAt_trap ..) (endsAt_deliver ..))
  | .bitlen .. => endsAt_deliver ..
  | .msetup .. => .ite (endsAt_trap ..) (endsAt_complete ..)
  | .mmul .. => .ite (endsAt_trap ..) (.ite (endsAt_trap ..) (.ite (endsAt_trap ..) (endsAt_deliver ..)))
  | .mto .. => .ite (endsAt_trap ..) (.ite (endsAt_trap ..) (endsAt_deliver ..))
  | .mfrom .. => .ite (endsAt_trap ..) (.ite (endsAt_trap ..) (endsAt_deliver ..))
  | .modexp .. => .ite (endsAt_trap ..) (endsAt_deliver ..)
  | .cand .. => .ite (endsAt_trap ..) (endsAt_withDraw hs fun _ _ => endsAt_deliver ..)
  | .ptest .. => endsAt_ptest hs ..
  | .primegen .. => endsAt_primegen hs ..
  | .genkey .. => endsAt_genkey hs ..
  | .encode .. => .ite (endsAt_trap ..) (endsAt_complete ..)
  | .decode .. => endsAt_complete ..
  | .crt .. => .ite (endsAt_trap ..) (.ite (endsAt_trap ..) (endsAt_deliver ..))
  | .encrypt .. => .ite (endsAt_trap ..) (.ite (endsAt_trap ..) (endsAt_deliver ..))
  | .decrypt .. =>
    .ite (endsAt_trap ..) (.ite (endsAt_trap ..) (.ite (endsAt_trap ..) (.ite (endsAt_trap ..) (endsAt_deliver ..))))

/-- `KEYSRC` after the sequencer's step on a command. -/
theorem step_keysrc_of_runs {s t : State} {i : Instr} (h : step s = .next t) (hr : Runs s i) :
    t.keysrc = if t.st = .idle then keysrcAtEnd s.keysrc i else s.keysrc := by
  obtain ⟨hturn, hb, hd⟩ := hr
  rw [step_sequencer hturn] at h
  rcases sequencerStep_cases h with ⟨hn, -⟩ | ⟨-, -, why, hw, -⟩ | ⟨-, -, j, hj, he⟩
  · exact absurd hb hn
  · simp [hd] at hw
  · obtain rfl : i = j := by simpa [hd] using hj
    exact (endsAt_exec (s := s.takeTurn) hb i).keysrc_eq t he

/-- Settles O47: the reset's value, the host's accesses by the address map, and a command's step by the way it ends. -/
theorem keysrcProvenance : Obligations.KeysrcProvenance := by
  intro s t h
  have hhost : ∀ a, s.turn = .host a → t = s.takeTurn.hostAccess a := by
    intro a ha
    simpa [step_host ha] using h.symm
  refine ⟨?reset, ?xWrite, ?otherAccess, ?goesOn, ?ends, ?genkey⟩
  case reset =>
    intro hr
    obtain rfl : t = s.takeTurn.resetBlock := by simpa [step_reset hr] using h.symm
    rfl
  case xWrite =>
    rintro i j v hj hcfg ⟨hturn, ha, hle⟩
    rw [hhost _ hturn]
    exact hostAccess_xWord_keysrc hj hcfg (legal_of ha hle _)
  case otherAccess =>
    intro a ha hx
    rw [hhost a ha]
    exact hostAccess_keysrc hx
  case goesOn =>
    intro i hr hn
    rw [step_keysrc_of_runs h hr, if_neg hn]
  case ends =>
    intro i hr hidle hi
    rw [step_keysrc_of_runs h hr, if_pos hidle, keysrcAtEnd_eq hi]
  case genkey =>
    intro b hr hidle
    rw [step_keysrc_of_runs h hr, if_pos hidle, keysrcAtEnd]

end Sys2Proof.Proofs.Keysrc
end

