-- ==== Sys2Proof/Proofs/HostWindows.lean ====
section
/-! SUPPORT. The windows of the host's address map (20_memory.md R73, R74): what a performed read or write does to the block, and the words
and bytes of a window as numbers. -/

namespace Sys2Proof.Proofs.HostWindows

open Sys2Proof.Machine Sys2Proof.Claims

/-! ### Accesses that the sequencer's state admits (10_state.md R45 to R48) -/

theorem readable_of_ne_busy {st : SeqState} (h : st ≠ .busy) (tgt : Target) : tgt.readable st = true := by
  cases st with
  | busy => exact absurd rfl h
  | idle | error | fatal => rfl

/-- Outside `BUSY` and `FATAL` a write is dropped only at `CMD`. -/
theorem accepted_of_ne_cmd {st : SeqState} (hb : st ≠ .busy) (hf : st ≠ .fatal) {tgt : Target} (h : tgt ≠ .csr .cmd) :
    tgt.accepted st = true := by
  cases st with
  | idle => rfl
  | error => simpa [Target.accepted] using h
  | busy => exact absurd rfl hb
  | fatal => exact absurd rfl hf

/-- A read outside `BUSY` answers the word at its address and keeps the block's state. -/
theorem step_read {s : State} {a : Nat} {tgt : Target} (h : HostReads s a) (hb : s.st ≠ .busy) (ht : hostTarget s.cfg a = tgt) :
    step s = .next (answered s (.data (s.targetWord tgt)) s.hosterr) := by
  obtain ⟨hturn, ha, hle⟩ := h
  subst ht
  rw [step_host hturn, hostAccess_read s.takeTurn (legal_of ha hle _) (readable_of_ne_busy hb _)]
  rfl

theorem step_write_ignored {s : State} {a : Nat} {v : Word} {tgt : Target} (h : HostWrites s a v) (ht : hostTarget s.cfg a = tgt)
    (hw : tgt.writable = false) : step s = .next (answered s .done s.hosterr) := by
  obtain ⟨hturn, ha, hle⟩ := h
  subst ht
  rw [step_host hturn, hostAccess_write_ignored s.takeTurn (legal_of ha hle _) hw]
  rfl

theorem step_write {s : State} {a : Nat} {v : Word} {tgt : Target} (h : HostWrites s a v) (ht : hostTarget s.cfg a = tgt)
    (hw : tgt.writable = true) (hc : tgt.accepted s.st = true) :
    step s = .next { s.takeTurn.writeTarget v tgt with reply := .done } := by
  obtain ⟨hturn, ha, hle⟩ := h
  subst ht
  rw [step_host hturn, hostAccess_write s.takeTurn (legal_of ha hle _) hw hc]
  rfl

/-! ### Words and bytes as numbers -/

theorem toNat_wordOf (v j : Nat) : (wordOf v j).toNat = v / 2 ^ (32 * j) % 2 ^ 32 := by
  simp [wordOf, bitsFrom]

/-- A window write replaces word `j` of `x[i]` and no other word of it. -/
theorem reg_writeTarget_div_mod (s : State) (i : RegId) (j k : Nat) (v : Word) :
    (s.writeTarget v (.xWord i j)).reg i / 2 ^ (32 * k) % 2 ^ 32 =
      if k = j then v.toNat else s.reg i / 2 ^ (32 * k) % 2 ^ 32 := by
  rw [State.writeTarget, reg_setReg_same, ← toNat_wordOf, wordOf_replaceWord, apply_ite BitVec.toNat, toNat_wordOf]

/-- Two bit strings side by side as a number. -/
theorem toNat_append_eq_add {m n : Nat} (x : BitVec m) (y : BitVec n) : (x ++ y).toNat = x.toNat * 2 ^ n + y.toNat := by
  rw [BitVec.toNat_append, ← Nat.shiftLeft_add_eq_or_of_lt y.isLt, Nat.shiftLeft_eq]

theorem toNat_readWord (m : Memory) (j : Nat) :
    (m.readWord j).toNat = (m.read (4 * j)).toNat + 2 ^ 8 * (m.read (4 * j + 1)).toNat + 2 ^ 16 * (m.read (4 * j + 2)).toNat +
      2 ^ 24 * (m.read (4 * j + 3)).toNat := by
  simp only [Memory.readWord, toNat_append_eq_add]
  ring

theorem read_writeWord_lane {m : Memory} (hm : Memory.wf m = true) (j : Nat) (v : Word) {k : Nat} (hk : k < 4) :
    ((m.writeWord j v).read (4 * j + k)).toNat = v.toNat / 2 ^ (8 * k) % 2 ^ 8 := by
  rw [read_writeWord hm, if_pos (by omega), show (4 * j + k) % 4 = k by omega, BitVec.extractLsb'_toNat, Nat.shiftRight_eq_div_pow]

theorem read_writeWord_other {m : Memory} (hm : Memory.wf m = true) (j : Nat) (v : Word) {a : Nat} (ha : ∀ k, k < 4 → a ≠ 4 * j + k) :
    (m.writeWord j v).read a = m.read a := by
  have hne : a / 4 ≠ j := fun h => ha (a % 4) (by omega) (by omega)
  rw [read_writeWord hm, if_neg hne]

/-! ### The windows -/

/-- Settles O51, from the address map's answer for each window and the words of a register after a window write. -/
theorem registerWindows : Obligations.RegisterWindows := by
  intro s i j hcfg hj hb
  have hj' : j < 256 := hj.trans_le hcfg.2
  have hx : hostTarget s.cfg (xAddr i j) = .xWord i j := hostTarget_xWord i hj hj'
  have hmn := hostTarget_mnWord hj hj'
  have hmrr := hostTarget_mrrWord hj hj'
  refine ⟨fun h => ⟨_, step_read h hb hx, toNat_wordOf ..⟩, fun h => ⟨_, step_read h hb hmn, toNat_wordOf ..⟩,
    fun h => ⟨_, step_read h hb hmrr, toNat_wordOf ..⟩, ?ignored, ?written⟩
  case ignored =>
    rintro v (h | h)
    · exact step_write_ignored h hmn rfl
    · exact step_write_ignored h hmrr rfl
  case written =>
    intro v h hf
    have hstep := step_write h hx rfl (accepted_of_ne_cmd hb hf (by simp))
    refine ⟨_, hstep, fun k => ?bits, fun r hr => ?others, ?keysrc, rfl⟩
    case bits => exact reg_writeTarget_div_mod s.takeTurn i j k v
    case others => exact reg_setReg_other s.takeTurn hr.symm _
    case keysrc => exact Keysrc.keysrcAfterWrite_eq ..

/-- Settles O52, from the address map's answer for the buffer window and the laws of a word of the buffer. -/
theorem bufferWindow : Obligations.BufferWindow := by
  intro s j hcfg hj hb hm
  have ht := hostTarget_bufWord hj (hj.trans_le hcfg.2)
  refine ⟨fun h => ⟨_, step_read h hb ht, toNat_readWord ..⟩, fun v h hf => ?_⟩
  have hstep := step_write h ht rfl (accepted_of_ne_cmd hb hf (by simp))
  exact ⟨_, hstep, fun _ hk => read_writeWord_lane hm j v hk, fun _ ha => read_writeWord_other hm j v ha, rfl⟩

end Sys2Proof.Proofs.HostWindows
end

