-- ==== Sys2Proof/Proofs/Encoding.lean ====
section
/-! SUPPORT. The decoder as a table lookup (30_encoding.md R101 to R106, R113): the fields of a word as numbers, a row's acceptance as its
opcode and its unused bits, which words are illegal and why, and the sequencer's step on such a word. -/

namespace Sys2Proof.Proofs.Encoding

open Sys2Proof.Machine Sys2Proof.Claims

/-! ### Fields as numbers (30_encoding.md R101, R102) -/

theorem toNat_opcodeField (w : Word) : (opcodeField w).toNat = w.toNat / 2 ^ 24 := by
  have hlt : w.toNat / 2 ^ 24 < 2 ^ 8 := Nat.div_lt_of_lt_mul w.isLt
  rw [opcodeField, BitVec.extractLsb'_toNat, Nat.shiftRight_eq_div_pow, Nat.mod_eq_of_lt hlt]

theorem opcode_eq_opcodeField_iff (r : Row) (w : Word) : r.opcode = opcodeField w ↔ r.opcode.toNat = w.toNat / 2 ^ 24 := by
  rw [← toNat_opcodeField, BitVec.toNat_inj]

theorem val_regField (w : Word) (lo : Nat) : (regField w lo).val = w.toNat / 2 ^ lo % 16 := by
  simp [regField, Nat.shiftRight_eq_div_pow]

theorem immField_eq_mod (w : Word) : immField w = w.toNat % 2 ^ 16 := by
  simp [immField]

/-! ### A row's acceptance: its opcode, and no unused bit (30_encoding.md R104) -/

theorem accepts_iff (r : Row) (w : Word) : r.accepts w = true ↔ w &&& r.mask = r.pattern := by
  simp [Row.accepts]

/-- The bits below the opcode that a row requires to be 0. -/
def unusedBits (r : Row) : Word := r.mask &&& 0x00FFFFFF

/-- A mask is the opcode's bits and the unused bits; a pattern is the opcode and zeros. -/
theorem mask_and_pattern_eq : ∀ r ∈ opcodeTable,
    r.mask = 0xFF000000 ||| unusedBits r ∧ r.pattern = r.opcode ++ 0#24 ∧ r.pattern &&& 0x00FFFFFF = 0 := by
  simp [opcodeTable, rowsInteger, rowsEngine, unusedBits]

theorem and_opcode_mask (w : Word) : w &&& 0xFF000000 = opcodeField w ++ 0#24 := by
  apply BitVec.eq_of_getLsbD_eq
  intro i hi
  simp only [opcodeField, BitVec.getLsbD_and, BitVec.getLsbD_append, BitVec.getLsbD_extractLsb']
  interval_cases i <;> simp

theorem accepts_iff_unusedBits {r : Row} (hr : r ∈ opcodeTable) (w : Word) :
    r.accepts w = true ↔ r.opcode = opcodeField w ∧ w &&& unusedBits r = 0 := by
  obtain ⟨hmask, hpattern, hlow⟩ := mask_and_pattern_eq r hr
  constructor
  · intro h
    refine ⟨(accepts_opcode hr h).symm, ?_⟩
    rw [unusedBits, ← BitVec.and_assoc, (accepts_iff r w).1 h, hlow]
  · rintro ⟨hop, hunused⟩
    rw [accepts_iff, hmask, BitVec.and_or_distrib_left, hunused, and_opcode_mask, ← hop, hpattern]
    exact BitVec.or_zero

theorem eq_of_opcode_eq {r r' : Row} (hr : r ∈ opcodeTable) (hr' : r' ∈ opcodeTable) (h : r.opcode = r'.opcode) : r = r' :=
  List.inj_on_of_nodup_map (List.pairwise_map.2 opcodes_distinct) hr hr' h

/-- At most one row accepts a word: two would have the same opcode (30_encoding.md R105). -/
theorem length_filter_accepts_le_one (w : Word) : (opcodeTable.filter fun r => r.accepts w).length ≤ 1 := by
  by_contra! h
  have hop : ∀ r ∈ opcodeTable.filter fun r => r.accepts w, opcodeField w = r.opcode := fun r hr =>
    accepts_opcode (List.mem_filter.1 hr).1 (List.mem_filter.1 hr).2
  have hne := List.pairwise_iff_getElem.1 (opcodes_distinct.filter fun r => r.accepts w) 0 1 (by omega) h (by omega)
  exact hne ((hop _ (List.getElem_mem _)).symm.trans (hop _ (List.getElem_mem _)))

/-! ### What a word decodes to, by its opcode (30_encoding.md R105, R106) -/

theorem decode_of_unused_opcode {w : Word} (h : ∀ r ∈ opcodeTable, r.opcode.toNat ≠ w.toNat / 2 ^ 24) :
    decode w = .illegal .unknownOpcode := by
  have hne : ∀ r ∈ opcodeTable, r.opcode ≠ opcodeField w := fun r hr => (opcode_eq_opcodeField_iff r w).not.2 (h r hr)
  have hnone : ∀ r ∈ opcodeTable, r.accepts w = false := fun r hr => by
    simp [← Bool.not_eq_true, accepts_iff_unusedBits hr, hne r hr]
  rw [decode_of_none hnone, if_neg (by simpa using hne)]

/-- The row of the word's opcode decides: its command, or a bit set that the command does not use. -/
theorem decode_of_opcode {r : Row} (hr : r ∈ opcodeTable) {w : Word} (h : r.opcode.toNat = w.toNat / 2 ^ 24) :
    decode w = if w &&& unusedBits r = 0 then .command (r.build w) else .illegal .reservedField := by
  have hop : r.opcode = opcodeField w := (opcode_eq_opcodeField_iff r w).2 h
  split
  · next hunused => exact decode_of_accepts hr ((accepts_iff_unusedBits hr w).2 ⟨hop, hunused⟩)
  · next hunused =>
    have hnone : ∀ r' ∈ opcodeTable, r'.accepts w = false := fun r' hr' => by
      by_contra hacc
      obtain ⟨hop', hzero⟩ := (accepts_iff_unusedBits hr' w).1 (by simpa using hacc)
      obtain rfl : r' = r := eq_of_opcode_eq hr' hr (hop'.trans hop.symm)
      exact hunused hzero
    rw [decode_of_none hnone, if_pos (by simpa using ⟨r, hr, hop⟩)]

theorem decode_unknownOpcode_iff (w : Word) :
    decode w = .illegal .unknownOpcode ↔ ∀ r ∈ opcodeTable, r.opcode.toNat ≠ w.toNat / 2 ^ 24 := by
  refine ⟨fun h r hr hop => ?_, decode_of_unused_opcode⟩
  rw [decode_of_opcode hr hop] at h
  split at h <;> simp at h

theorem decode_reservedField_iff (w : Word) :
    decode w = .illegal .reservedField ↔ ∃ r ∈ opcodeTable, r.opcode.toNat = w.toNat / 2 ^ 24 ∧ w &&& unusedBits r ≠ 0 := by
  constructor
  · intro h
    have hused : ¬ ∀ r ∈ opcodeTable, r.opcode.toNat ≠ w.toNat / 2 ^ 24 := fun hun => by
      simp [decode_of_unused_opcode hun] at h
    push Not at hused
    obtain ⟨r, hr, hop⟩ := hused
    refine ⟨r, hr, hop, fun hzero => ?_⟩
    simp [decode_of_opcode hr hop, hzero] at h
  · rintro ⟨r, hr, hop, hunused⟩
    rw [decode_of_opcode hr hop, if_neg hunused]

/-- The opcodes of no command, as ranges. -/
theorem unused_opcode_iff_mem_range : ∀ n < 2 ^ 8, (∀ r ∈ opcodeTable, r.opcode.toNat ≠ n) ↔
    ∃ p ∈ ([(0x04, 0x0F), (0x17, 0x1F), (0x24, 0x2F), (0x31, 0x3F), (0x43, 0x47), (0x49, 0x4F), (0x52, 0x5F), (0x63, 0xFF)]
      : List (Nat × Nat)), p.1 ≤ n ∧ n ≤ p.2 := by
  decide +kernel

/-- Only the row of `NOP` builds `NOP`, and its mask covers the whole word. -/
theorem mask_and_pattern_of_build_nop (w : Word) :
    ∀ r ∈ opcodeTable, r.build w = .nop → r.mask = BitVec.allOnes 32 ∧ r.pattern = 0 := by
  simp [opcodeTable, rowsInteger, rowsEngine, build2, build3, buildI]

theorem decode_nop_iff (w : Word) : decode w = .command .nop ↔ w = 0 := by
  constructor
  · intro h
    rcases decode_cases w with ⟨r, hr, hacc, hd⟩ | ⟨why, hd⟩
    · obtain ⟨hmask, hpattern⟩ := mask_and_pattern_of_build_nop w r hr (Decoded.command.inj (hd.symm.trans h))
      calc w = w &&& r.mask := by rw [hmask, BitVec.and_allOnes]
        _ = 0 := by rw [(accepts_iff r w).1 hacc, hpattern]
    · simp [hd] at h
  · rintro rfl
    decide +kernel

/-! ### The sequencer's step on an illegal word (40_system_move.md R121, 60_exceptions.md R290) -/

theorem step_illegal {s : State} {why : Illegal} (hturn : s.turn = .sequencer) (hst : s.st = .busy) (hphase : s.phase = .exec)
    (hd : decode s.ir = .illegal why) : step s = .next (s.takeTurn.raise .illegalCmd why.info) := by
  rw [step_sequencer hturn]
  simp [State.sequencerStep, State.runBlock, State.trap, hst, hphase, hd]

theorem illegal_info_eq (why : Illegal) : why.info = if why = .unknownOpcode then 1 else 2 := by
  cases why <;> rfl

/-! ### The obligations -/

/-- Settles O7: the fault entry in the step `EXEC`; the illegal words by their opcode and the row of a used opcode. -/
theorem illegalWordFaults : Obligations.IllegalWordFaults := by
  refine ⟨?faults, fun w => ?unknown, fun w => ?reserved, decode_nop_iff⟩
  case faults =>
    intro s why hturn hst hphase hd
    have hrecoverable : Cause.illegalCmd.isFatal = false := by decide
    refine ⟨_, step_illegal hturn hst hphase hd, ?_⟩
    simp [illegal_info_eq, hrecoverable, isrErr, SameRegs, SameBuffer, SameFlags, SameControl]
  case unknown =>
    have hlt : w.toNat / 2 ^ 24 < 2 ^ 8 := Nat.div_lt_of_lt_mul w.isLt
    exact (decode_unknownOpcode_iff w).trans (unused_opcode_iff_mem_range _ hlt)
  case reserved =>
    -- the statement's pairs are the table's opcodes with the unused bits of their rows
    show _ ↔ ∃ p ∈ opcodeTable.map fun r => (r.opcode.toNat, unusedBits r), w.toNat / 2 ^ 24 = p.1 ∧ w &&& p.2 ≠ 0
    simp [decode_reservedField_iff, eq_comm]

/-- Settles O3, from the rows' distinct opcodes and the decoder's value at each opcode. -/
theorem decodeFollowsTable : Obligations.DecodeFollowsTable := by
  refine ⟨length_filter_accepts_le_one, fun w r hr h => decode_of_accepts hr ((accepts_iff r w).2 h), fun w => ?fields,
    fun w hnone => ⟨decode_of_unused_opcode, ?reserved⟩, rfl, rfl,
    fun s w hturn => ⟨rfl, fun why hd => step_illegal (s := s.issue w) hturn rfl rfl hd⟩⟩
  case fields => exact ⟨val_regField w 20, val_regField w 16, val_regField w 12, val_regField w 8, immField_eq_mod w⟩
  case reserved =>
    rintro ⟨r, hr, hop⟩
    have hunused : w &&& unusedBits r ≠ 0 := fun hzero =>
      hnone r hr ((accepts_iff r w).1 ((accepts_iff_unusedBits hr w).2 ⟨(opcode_eq_opcodeField_iff r w).2 hop, hzero⟩))
    exact (decode_reservedField_iff w).2 ⟨r, hr, hop, hunused⟩

/-- An assembler line and a command word stand for one command. -/
def sameCommand (line : String) (w : Word) : Bool :=
  (assemble line.toList).any fun i => encode i == w && decode w == .command i

theorem exists_of_sameCommand {line : String} {w : Word} (h : sameCommand line w = true) :
    ∃ i, assemble line.toList = some i ∧ encode i = w ∧ decode w = .command i := by
  simpa [sameCommand, Option.any_eq_true] using h

/-- Settles O5: each line is read by the assembler and its word by the decoder (30_encoding.md R113). -/
theorem encodingExamples : Obligations.EncodingExamples := by
  refine ⟨fun p hp => exists_of_sameCommand ?upToMto, fun p hp => exists_of_sameCommand ?fromMfrom, by decide +kernel⟩
  case upToMto =>
    revert p
    decide +kernel
  case fromMfrom =>
    revert p
    decide +kernel

end Sys2Proof.Proofs.Encoding
end

