-- ==== Sys2Proof/Proofs/Issue.lean ====
section
/-! SUPPORT. Issue (40_system_move.md R120): a host write to `CMD`, the one register that takes a write in `IDLE` only. -/

namespace Sys2Proof.Proofs.Issue

open Sys2Proof.Machine Sys2Proof.Claims Sys2Proof.Proofs.HostWindows

/-- Only `IDLE` accepts a write to `CMD` (10_state.md R45 to R48). -/
theorem accepted_cmd_iff (st : SeqState) : (Target.csr .cmd).accepted st = true ↔ st = .idle := by
  cases st <;> simp [Target.accepted]

/-- A write dropped by the sequencer's state is still answered, and sets `HOSTERR` (20_memory.md R72). -/
theorem step_write_refused {s : State} {a : Nat} {v : Word} {tgt : Target} (h : HostWrites s a v) (ht : hostTarget s.cfg a = tgt)
    (hw : tgt.writable = true) (hc : tgt.accepted s.st = false) : step s = .next (answered s .done true) := by
  obtain ⟨hturn, ha, hle⟩ := h
  subst ht
  rw [step_host hturn, hostAccess_write_refused s.takeTurn (legal_of ha hle _) hw hc]
  rfl

/-- Settles O8: the write performed at `CMD` is `State.issue`, and every state but `IDLE` refuses it. -/
theorem issueLatchesWord : Obligations.IssueLatchesWord := by
  intro s v hturn
  have hwrites : HostWrites s 0x0010 v := ⟨hturn, by decide, by decide⟩
  have hcmd : hostTarget s.cfg 0x0010 = .csr .cmd := hostTarget_csr s.cfg (0x0010, .cmd) (by decide)
  refine ⟨fun hidle => ?issued, fun hne => ?dropped⟩
  case issued => exact step_write hwrites hcmd rfl ((accepted_cmd_iff s.st).2 hidle)
  case dropped =>
    have hrefused := Bool.eq_false_iff.2 ((accepted_cmd_iff s.st).not.2 hne)
    exact step_write_refused hwrites hcmd rfl hrefused

end Sys2Proof.Proofs.Issue
end

