-- ==== Sys2Proof/Proofs/Montgomery.lean ====
section
/-! SUPPORT. The Montgomery commands (42_montgomery.md R160 to R165): the values `MMUL`, `MTO`, `MFROM` deliver, read as products by `R` and
`R⁻¹` in the integers modulo `N`, where the laws of R165 are identities from `R * R⁻¹ = 1`. -/

namespace Sys2Proof.Proofs.Montgomery

open Sys2Proof.Machine Sys2Proof.Claims

/-! ### The values that the commands deliver (42_montgomery.md R162 to R164) -/

section Commands

variable {s : State} (hvalid : s.ctx.valid = true) (rd : RegId) {rs1 rs2 : RegId} {a b : Nat} (h1 : s.reg rs1 = a) (ha : a < s.ctx.mn)
include hvalid h1 ha

theorem exec_mmul_of_lt (h2 : s.reg rs2 = b) (hb : b < s.ctx.mn) :
    exec (.mmul rd rs1 rs2) s = s.deliver rd (montMul s.ctx.mlen.toNat s.ctx.mn a b) := by
  rw [exec, execMmul, h1, h2, if_neg (by simp [hvalid]), if_neg (by omega), if_neg (by omega)]

theorem exec_mto_of_lt : exec (.mto rd rs1) s = s.deliver rd (a * montR s.ctx.mlen.toNat % s.ctx.mn) := by
  rw [exec, execMto, h1, if_neg (by simp [hvalid]), if_neg (by omega)]

/-- `MFROM` is the Montgomery product with 1, for `N = 1` too. -/
theorem exec_mfrom_of_lt : exec (.mfrom rd rs1) s = s.deliver rd (montMul s.ctx.mlen.toNat s.ctx.mn a 1) := by
  rw [exec, execMfrom, h1, if_neg (by simp [hvalid]), if_neg (by omega), montMul, mul_one]

end Commands

theorem resultIn_of_deliver {rd : RegId} {i : Instr} {s : State} {v : Nat} (h : exec i s = s.deliver rd v) :
    resultIn rd i s = v := by
  simp [resultIn, h, State.deliver]

section Values

variable {s : State} (hvalid : s.ctx.valid = true) {a b : Nat} (ha : a < s.ctx.mn)
include hvalid ha

theorem mmulOf_eq (hb : b < s.ctx.mn) : mmulOf s a b = montMul s.ctx.mlen.toNat s.ctx.mn a b := by
  have ht0 : ((s.setReg RegId.t0 a).setReg RegId.t1 b).reg RegId.t0 = a := by
    rw [reg_setReg_other _ (by decide), reg_setReg_same]
  exact resultIn_of_deliver (exec_mmul_of_lt (s := (s.setReg RegId.t0 a).setReg RegId.t1 b) hvalid _ ht0 ha (reg_setReg_same ..) hb)

theorem mtoOf_eq : mtoOf s a = a * montR s.ctx.mlen.toNat % s.ctx.mn :=
  resultIn_of_deliver (exec_mto_of_lt (s := s.setReg RegId.t0 a) hvalid _ (reg_setReg_same ..) ha)

theorem mfromOf_eq : mfromOf s a = montMul s.ctx.mlen.toNat s.ctx.mn a 1 :=
  resultIn_of_deliver (exec_mfrom_of_lt (s := s.setReg RegId.t0 a) hvalid _ (reg_setReg_same ..) ha)

theorem mmulOf_lt (hb : b < s.ctx.mn) : mmulOf s a b < s.ctx.mn := by
  rw [mmulOf_eq hvalid ha hb]
  exact Nat.mod_lt _ (by omega)

theorem mtoOf_lt : mtoOf s a < s.ctx.mn := by
  rw [mtoOf_eq hvalid ha]
  exact Nat.mod_lt _ (by omega)

theorem mfromOf_lt : mfromOf s a < s.ctx.mn := by
  rw [mfromOf_eq hvalid ha]
  exact Nat.mod_lt _ (by omega)

end Values

/-! ### `R` and its inverse modulo `N` (42_montgomery.md R160) -/

/-- `R` of the context, in the integers modulo `N`. -/
def radix (s : State) : ZMod s.ctx.mn := (montR s.ctx.mlen.toNat : ℕ)

/-- `Rinv` of the context, in the integers modulo `N`. -/
def radixInv (s : State) : ZMod s.ctx.mn := (inv (montR s.ctx.mlen.toNat % s.ctx.mn) s.ctx.mn : ℕ)

theorem coprime_montR {N : Nat} (hodd : N % 2 = 1) (k : Nat) : Nat.Coprime (montR k % N) N := by
  rw [Nat.coprime_iff_gcd_eq_one, ← Nat.gcd_rec, Nat.gcd_comm]
  exact Nat.Coprime.pow_left _ (Nat.coprime_two_left.2 (Nat.odd_iff.2 hodd))

theorem radix_mul_radixInv {s : State} (hodd : s.ctx.mn % 2 = 1) : radix s * radixInv s = 1 := by
  have h := mul_inv_mod (by omega) (coprime_montR hodd s.ctx.mlen.toNat)
  simpa [radix, radixInv] using (ZMod.natCast_eq_natCast_iff' _ _ _).2 h

section Casts

variable {s : State} (hvalid : s.ctx.valid = true) {a b : Nat} (ha : a < s.ctx.mn)
include hvalid ha

theorem cast_mmulOf (hb : b < s.ctx.mn) : (mmulOf s a b : ZMod s.ctx.mn) = a * b * radixInv s := by
  simp [mmulOf_eq hvalid ha hb, montMul, radixInv]

theorem cast_mtoOf : (mtoOf s a : ZMod s.ctx.mn) = a * radix s := by
  simp [mtoOf_eq hvalid ha, radix]

theorem cast_mfromOf : (mfromOf s a : ZMod s.ctx.mn) = a * radixInv s := by
  simp [mfromOf_eq hvalid ha, montMul, radixInv]

end Casts

/-- Residues below `N` are equal when they are equal modulo `N`. -/
theorem eq_of_cast_eq {N v w : Nat} (hv : v < N) (hw : w < N) (h : (v : ZMod N) = w) : v = w :=
  ((ZMod.natCast_eq_natCast_iff v w N).1 h).eq_of_lt_of_lt hv hw

/-! ### The context's constants (42_montgomery.md R160, R161) -/

theorem limbs_le {N w : Nat} (hw : 1 ≤ w) (hN : N < 2 ^ (32 * w)) : limbs N ≤ w := by
  have hlen : bitlen N ≤ 32 * w := bitlen_le_iff.2 hN
  rw [limbs, ceilDiv, Config.limb]
  omega

/-- `MLEN` holds the number of limbs: `W` is small enough for its 16 bits. -/
theorem toNat_mlen {c : Config} (hc : c.Admissible) {N : Nat} (hN : N < 2 ^ c.w) : (MontCtx.of N).mlen.toNat = limbs N := by
  obtain ⟨hmin, hmax⟩ := hc
  have hle : limbs N ≤ c.wwords := limbs_le (by omega) hN
  exact Nat.mod_eq_of_lt (by omega)

theorem ok_of_valid {c : MontCtx} {bound : Nat} (hok : c.Ok bound) (hvalid : c.valid = true) :
    c.mn % 2 = 1 ∧ c.mn < bound ∧ c = MontCtx.of c.mn := by
  rwa [MontCtx.Ok, if_pos hvalid] at hok

theorem mrr_eq {s : State} (hcfg : s.cfg.Admissible) (hok : s.ctx.Ok (2 ^ s.cfg.w)) (hvalid : s.ctx.valid = true) :
    s.ctx.mrr = montR s.ctx.mlen.toNat ^ 2 % s.ctx.mn := by
  obtain ⟨-, hlt, hof⟩ := ok_of_valid hok hvalid
  have hmlen : s.ctx.mlen.toNat = limbs s.ctx.mn := by
    rw [hof]
    exact toNat_mlen hcfg hlt
  calc s.ctx.mrr = 2 ^ (64 * limbs s.ctx.mn) % s.ctx.mn := by rw [hof]; rfl
    _ = montR s.ctx.mlen.toNat ^ 2 % s.ctx.mn := by rw [hmlen, montR, Config.limb, ← pow_mul]; congr 2; ring

/-! ### The laws (42_montgomery.md R165) -/

section Laws

variable {s : State} (hvalid : s.ctx.valid = true) {a b : Nat} (ha : a < s.ctx.mn)
include hvalid ha

theorem mmulOf_comm (hb : b < s.ctx.mn) : mmulOf s a b = mmulOf s b a := by
  rw [mmulOf_eq hvalid ha hb, mmulOf_eq hvalid hb ha, montMul, montMul, mul_comm a b]

/-- `RR` carries one more `R` than the Montgomery product takes away. -/
theorem mtoOf_eq_mmulOf_mrr (hodd : s.ctx.mn % 2 = 1) (hmrr : s.ctx.mrr = montR s.ctx.mlen.toNat ^ 2 % s.ctx.mn) :
    mtoOf s a = mmulOf s a s.ctx.mrr := by
  have hlt : s.ctx.mrr < s.ctx.mn := hmrr.trans_lt (Nat.mod_lt _ (by omega))
  have hcast : (s.ctx.mrr : ZMod s.ctx.mn) = radix s ^ 2 := by simp [hmrr, radix]
  refine eq_of_cast_eq (mtoOf_lt hvalid ha) (mmulOf_lt hvalid ha hlt) ?_
  rw [cast_mtoOf hvalid ha, cast_mmulOf hvalid ha hlt, hcast]
  linear_combination (-a * radix s) * radix_mul_radixInv hodd

theorem mfromOf_eq_mmulOf_one (hN : 1 < s.ctx.mn) : mfromOf s a = mmulOf s a 1 :=
  (mfromOf_eq hvalid ha).trans (mmulOf_eq hvalid ha hN).symm

theorem results_zero_of_modulus_one (hb : b < s.ctx.mn) (hN : s.ctx.mn = 1) :
    mtoOf s a = 0 ∧ mfromOf s a = 0 ∧ mmulOf s a b = 0 := by
  have hto := mtoOf_lt hvalid ha
  have hfrom := mfromOf_lt hvalid ha
  have hmul := mmulOf_lt hvalid ha hb
  omega

variable (hodd : s.ctx.mn % 2 = 1)
include hodd

theorem mfromOf_mtoOf : mfromOf s (mtoOf s a) = a := by
  have hto := mtoOf_lt hvalid ha
  refine eq_of_cast_eq (mfromOf_lt hvalid hto) ha ?_
  rw [cast_mfromOf hvalid hto, cast_mtoOf hvalid ha, mul_assoc, radix_mul_radixInv hodd, mul_one]

theorem mtoOf_mfromOf : mtoOf s (mfromOf s a) = a := by
  have hfrom := mfromOf_lt hvalid ha
  refine eq_of_cast_eq (mtoOf_lt hvalid hfrom) ha ?_
  rw [cast_mtoOf hvalid hfrom, cast_mfromOf hvalid ha, mul_assoc, mul_comm (radixInv s), radix_mul_radixInv hodd, mul_one]

/-- One factor in Montgomery form gives the plain product. -/
theorem mmulOf_mtoOf_right (hb : b < s.ctx.mn) : mmulOf s a (mtoOf s b) = a * b % s.ctx.mn := by
  have hto := mtoOf_lt hvalid hb
  refine eq_of_cast_eq (mmulOf_lt hvalid ha hto) (Nat.mod_lt _ (by omega)) ?_
  rw [cast_mmulOf hvalid ha hto, cast_mtoOf hvalid hb, ZMod.natCast_mod, Nat.cast_mul]
  linear_combination (a * b) * radix_mul_radixInv hodd

/-- The product of Montgomery forms is the Montgomery form of the product. -/
theorem mmulOf_mtoOf_mtoOf (hb : b < s.ctx.mn) : mmulOf s (mtoOf s a) (mtoOf s b) = mtoOf s (a * b % s.ctx.mn) := by
  have hto := mtoOf_lt hvalid ha
  have hprod : a * b % s.ctx.mn < s.ctx.mn := Nat.mod_lt _ (by omega)
  calc mmulOf s (mtoOf s a) (mtoOf s b) = mtoOf s a * b % s.ctx.mn := mmulOf_mtoOf_right hvalid hto hodd hb
    _ = mtoOf s (a * b % s.ctx.mn) := by
      refine eq_of_cast_eq (Nat.mod_lt _ (by omega)) (mtoOf_lt hvalid hprod) ?_
      rw [cast_mtoOf hvalid hprod, ZMod.natCast_mod, ZMod.natCast_mod, Nat.cast_mul, Nat.cast_mul, cast_mtoOf hvalid ha]
      ring

end Laws

/-- Settles O16: each law from `R * R⁻¹ = 1` modulo `N`; only `MRR` needs the size of the modulus. -/
theorem montgomeryLaws : Obligations.MontgomeryLaws := by
  intro s hcfg hok hvalid a b ha hb
  obtain ⟨hodd, -, -⟩ := ok_of_valid hok hvalid
  have hprod : a * b % s.ctx.mn < s.ctx.mn := Nat.mod_lt _ (by omega)
  have hforms := mmulOf_mtoOf_mtoOf hvalid ha hodd hb
  refine ⟨mmulOf_comm hvalid ha hb, mfromOf_mtoOf hvalid ha hodd, mtoOf_mfromOf hvalid ha hodd, hforms, ?_,
    mtoOf_eq_mmulOf_mrr hvalid ha hodd (mrr_eq hcfg hok hvalid), mfromOf_eq_mmulOf_one hvalid ha,
    results_zero_of_modulus_one hvalid ha hb, mmulOf_mtoOf_right hvalid ha hodd hb⟩
  rw [hforms, mfromOf_mtoOf hvalid hprod hodd]

end Sys2Proof.Proofs.Montgomery
end

section
/-! SUPPORT. The recombination of two residues (47_cipher_crt.md R256 to R258): its value by congruences, and what a command that ends in
`deliver` leaves unchanged. -/

namespace Sys2Proof.Proofs.CipherCrt

open Sys2Proof.Machine Sys2Proof.Claims

/-! ### The end by `deliver` (40_system_move.md R123) -/

/-- A command that ends by `deliver` writes that register and keeps the rest. -/
theorem delivers_of_exec_eq_deliver {i : Instr} {s : State} {rd : RegId} {v : Nat} (h : exec i s = s.deliver rd v) :
    Delivers i s rd v := by
  refine ⟨(s.setReg rd v).complete, h, rfl, rfl, rfl, rfl, rfl, ⟨rfl, rfl, rfl, rfl, rfl⟩, ⟨rfl, rfl, rfl⟩, ?_⟩
  have hwrote : Wrote s (s.setReg rd v).complete rd v :=
    ⟨by simp, fun i hi => by simp [hi.symm], by simp [Keysrc.keysrcAfterWrite_eq]⟩
  exact ⟨hwrote, rfl, rfl, ⟨fun _ => rfl, rfl⟩, rfl, rfl, rfl⟩

theorem exec_crt_of_ne_zero {s : State} (hp : s.reg 3 ≠ 0) (hn : s.reg 0 ≠ 0) (rd rs1 rs2 : RegId) :
    exec (.crt rd rs1 rs2) s = s.deliver rd (crtValue (s.reg rs1) (s.reg rs2) (s.reg 3) (s.reg 4) (s.reg 7) (s.reg 0)) := by
  rw [exec, execCrt]
  exact (if_neg hp).trans (if_neg hn)

/-! ### The value (47_cipher_crt.md R256, R258) -/

/-- The difference of the residues is `q * (v / q)` modulo `p`, so the inverse of `q` leaves the quotient. -/
theorem qinv_mul_floorMod_modEq {m1 v p q qinv : Nat} (hp : 0 < p) (hinv : qinv * q ≡ 1 [MOD p]) (h1 : m1 ≡ v [MOD p]) :
    qinv * floorMod ((m1 : Int) - (v % q : Nat)) p ≡ v / q [MOD p] := by
  have hdiff : ((v : Int) - (v % q : Nat)) = q * (v / q : Nat) := by
    have h : ((q * (v / q) + v % q : Nat) : Int) = v := congrArg Nat.cast (Nat.div_add_mod v q)
    push_cast at h ⊢
    linarith
  rw [← Int.natCast_modEq_iff] at hinv h1 ⊢
  push_cast at hinv ⊢
  calc (qinv : Int) * floorMod ((m1 : Int) - (v % q : Nat)) p
      ≡ qinv * (v - (v % q : Nat)) [ZMOD p] := ((floorMod_modEq _ hp).trans (h1.sub_right _)).mul_left _
    _ = qinv * q * (v / q : Nat) := by rw [hdiff, mul_assoc]
    _ ≡ 1 * (v / q : Nat) [ZMOD p] := hinv.mul_right _
    _ = v / q := by push_cast; ring

/-- 47_cipher_crt.md R258: the quotient `v / q` is below `p`, so the multiply gives it exactly, and `v % q + q * (v / q)` is `v`. -/
theorem crtValue_eq_of_residues {m1 v p q qinv : Nat} (hv : v < p * q) (hinv : qinv * q ≡ 1 [MOD p]) (h1 : m1 ≡ v [MOD p]) :
    crtValue m1 (v % q) p q qinv (p * q) = v := by
  have hquot : v / q < p := Nat.div_lt_of_lt_mul (by rwa [mul_comm] at hv)
  have hmul : qinv * floorMod ((m1 : Int) - (v % q : Nat)) p % p = v / q :=
    Nat.mod_eq_of_modEq (qinv_mul_floorMod_modEq (Nat.zero_lt_of_lt hquot) hinv h1) hquot
  rw [crtValue, hmul, Nat.mod_add_div, Nat.mod_eq_of_lt hv]

/-- Settles O38: `CRT` ends with the recombined value; a product above `v` has no zero factor, so neither fault is raised. -/
theorem crtRecombines : Obligations.CrtRecombines := by
  intro s rd rs1 rs2 v hn hinv hv h1 h2
  have hn0 : s.reg 0 ≠ 0 := by omega
  have hp0 : s.reg 3 ≠ 0 := left_ne_zero_of_mul (hn ▸ hn0)
  have hinv' : s.reg 7 * s.reg 4 ≡ 1 [MOD s.reg 3] := by
    simpa only [hinv] using (Nat.mod_modEq (s.reg 7 * s.reg 4) (s.reg 3)).symm
  refine delivers_of_exec_eq_deliver ?_
  rw [exec_crt_of_ne_zero hp0 hn0, h2, hn, crtValue_eq_of_residues (hn ▸ hv) hinv' h1]

end Sys2Proof.Proofs.CipherCrt
end

section
/-! SUPPORT. Taking a fault and leaving `ERROR` (60_exceptions.md R290, R292): the fault entry for the causes of each kind, and a host write
to `ERRCLR` (10_state.md R38) for each state of the sequencer. -/

namespace Sys2Proof.Proofs.Faults

open Sys2Proof.Machine Sys2Proof.Claims Sys2Proof.Proofs.HostWindows Sys2Proof.Proofs.Issue

/-! ### The fault entry (60_exceptions.md R281, R290) -/

theorem isFatal_iff (c : Cause) : c.isFatal = true ↔ 0x80 ≤ c.code.toNat := by
  rw [Cause.isFatal, decide_eq_true_iff]

theorem raise_of_not_fatal {c : Cause} (h : c.isFatal = false) (s : State) (info : BitVec 8) :
    s.raise c info =
      { s with err := some ⟨c, info⟩, h := Temps.zero, phase := .none, st := .error, isr := s.isr ||| isrErr } := by
  simp [State.raise, h]

theorem raise_of_fatal {c : Cause} (h : c.isFatal = true) (s : State) (info : BitVec 8) :
    s.raise c info =
      { s with err := some ⟨c, info⟩, h := Temps.zero, phase := .none, ctx := MontCtx.empty, st := .fatal,
               isr := s.isr ||| isrFatal } := by
  simp [State.raise, h]

/-- The word of a recorded fault is `(INFO << 8) | CODE` (10_state.md R37). -/
theorem toNat_errWord {s : State} {r : FaultRecord} (h : s.err = some r) :
    s.errWord.toNat = r.info.toNat * 256 + r.cause.code.toNat := by
  simp only [State.errWord, h, toNat_append_eq_add]
  simp

/-! ### A host write to `ERRCLR` (10_state.md R38, R45 to R48) -/

theorem accepted_errclr_iff (st : SeqState) : (Target.csr .errclr).accepted st = true ↔ st = .idle ∨ st = .error := by
  cases st <;> simp [Target.accepted]

theorem errClr_of_leaving {s : State} {v : Word} (hst : s.st = .error) (hv : v.getLsbD 0 = true) :
    s.errClr v = { s with st := .idle, err := none, hosterr := if v.getLsbD 1 then false else s.hosterr } := by
  simp only [State.errClr, if_pos (And.intro hv hst)]

theorem errClr_of_staying {s : State} {v : Word} (h : ¬(v.getLsbD 0 = true ∧ s.st = .error)) :
    s.errClr v = { s with hosterr := if v.getLsbD 1 then false else s.hosterr } := by
  simp only [State.errClr, if_neg h]

/-- Settles O43: the two kinds of cause by `isFatal`; the write to `ERRCLR` is `State.errClr` where `IDLE` or `ERROR` accepts it, and dropped
in the other states. -/
theorem faultEntryAndReturn : Obligations.FaultEntryAndReturn := by
  refine ⟨fun s c info => ⟨fun hcode => ?recoverable, fun hcode => ?fatal, toNat_errWord (r := ⟨c, info⟩) rfl⟩, ?errclr⟩
  case recoverable =>
    have hc : c.isFatal = false := Bool.eq_false_iff.2 ((isFatal_iff c).not.2 (Nat.not_le.2 hcode))
    exact raise_of_not_fatal hc s info
  case fatal => exact raise_of_fatal ((isFatal_iff c).2 hcode) s info
  case errclr =>
    intro s v hturn
    have hwrites : HostWrites s 0x001C v := ⟨hturn, by decide, by decide⟩
    have htgt : hostTarget s.cfg 0x001C = .csr .errclr := hostTarget_csr s.cfg (0x001C, .errclr) (by decide)
    have hperformed (h : s.st = .idle ∨ s.st = .error) : step s = .next { s.takeTurn.errClr v with reply := .done } :=
      step_write hwrites htgt rfl ((accepted_errclr_iff s.st).2 h)
    refine ⟨fun herr hv => ?leaves, fun h => ?stays, fun h => ?dropped⟩
    case leaves =>
      rw [hperformed (.inr herr), errClr_of_leaving (s := s.takeTurn) herr hv]
      rfl
    case stays =>
      have hstay : ¬(v.getLsbD 0 = true ∧ s.takeTurn.st = .error) := by
        rintro ⟨hv0, herr⟩
        rcases h with hidle | ⟨-, hv⟩
        · exact absurd (hidle.symm.trans herr) (by decide)
        · exact absurd (hv0.symm.trans hv) (by decide)
      rw [hperformed (h.imp_right And.left), errClr_of_staying hstay]
      rfl
    case dropped =>
      have hrefused : (Target.csr .errclr).accepted s.st = false := by
        rcases h with h | h <;> simp [Target.accepted, h]
      exact step_write_refused hwrites htgt rfl hrefused

end Sys2Proof.Proofs.Faults
end

section
/-! SUPPORT. The encoder and the decoder undo each other (30_encoding.md R101 to R105): the row that a command's word meets, the word that
the fields of an accepted word lay out again, and the words as numbers. -/

namespace Sys2Proof.Proofs.RoundTrip

open Sys2Proof.Machine Sys2Proof.Claims Sys2Proof.Proofs.HostWindows Sys2Proof.Proofs.Encoding
open Sys2Proof.Laws

/-! ### From a command to its word and back -/

/-- The row `n` of the command's opcode accepts its word, so the decoder builds what that row reads. -/
theorem decode_encode_of_row {i : Instr} (hi : TableRow.Statement i) (n : Fin 25)
    (hop : (opcodeTable.get n).opcode = TableRow.opcode i) (hbuild : (opcodeTable.get n).build (encode i) = i) :
    decode (encode i) = .command i := by
  obtain ⟨r, hr, hop', hacc⟩ := hi
  obtain rfl : r = opcodeTable.get n := eq_of_opcode_eq hr (List.get_mem _ _) (hop'.trans hop.symm)
  rw [decode_of_accepts hr hacc, hbuild]

/-- The fields of `MODEXP`, the one command with four registers. -/
theorem build4_formatR (op : BitVec 8) (a b c d : RegId) :
    Instr.modexp (rdField (formatR op a b c d)) (rs1Field (formatR op a b c d)) (rs2Field (formatR op a b c d))
      (rs3Field (formatR op a b c d)) = .modexp a b c d := by
  simp

theorem build3_formatR (f : RegId → RegId → RegId → Instr) (op : BitVec 8) (a b c d : RegId) :
    build3 f (formatR op a b c d) = f a b c := by
  simp [build3]

theorem build2_formatR (f : RegId → RegId → Instr) (op : BitVec 8) (a b c d : RegId) : build2 f (formatR op a b c d) = f a b := by
  simp [build2]

theorem immField_formatI_of_fits {op : BitVec 8} {rd : RegId} {v : Nat} (h : immFits v = true) : immField (formatI op rd v) = v := by
  rw [immField_formatI]
  exact Nat.mod_eq_of_lt (by simpa [immFits] using h)

theorem buildI_formatI (f : RegId → Nat → Instr) (op : BitVec 8) (a : RegId) {v : Nat} (h : immFits v = true) :
    buildI f (formatI op a v) = f a v := by
  rw [buildI, rdField_formatI, immField_formatI_of_fits h]

/-- Settles O1: for each command the row of its opcode, which reads the fields that the encoder laid out. -/
theorem decodeOfEncode : Obligations.DecodeOfEncode
  | .nop, _ => decode_encode_of_row TableRow.nop 0 rfl rfl
  | .mov .., _ => decode_encode_of_row (TableRow.mov ..) 1 rfl (build2_formatR ..)
  | .ldi .., h => decode_encode_of_row (TableRow.ldi ..) 2 rfl (buildI_formatI _ _ _ h)
  | .cmp .., _ => decode_encode_of_row (TableRow.cmp ..) 3 rfl (congrArg₂ Instr.cmp (rs1Field_formatR ..) (rs2Field_formatR ..))
  | .add .., _ => decode_encode_of_row (TableRow.add ..) 4 rfl (build3_formatR ..)
  | .sub .., _ => decode_encode_of_row (TableRow.sub ..) 5 rfl (build3_formatR ..)
  | .mul .., _ => decode_encode_of_row (TableRow.mul ..) 6 rfl (build3_formatR ..)
  | .mod .., _ => decode_encode_of_row (TableRow.mod ..) 7 rfl (build3_formatR ..)
  | .gcd .., _ => decode_encode_of_row (TableRow.gcd ..) 8 rfl (build3_formatR ..)
  | .modinv .., _ => decode_encode_of_row (TableRow.modinv ..) 9 rfl (build3_formatR ..)
  | .bitlen .., _ => decode_encode_of_row (TableRow.bitlen ..) 10 rfl (build2_formatR ..)
  | .msetup .., _ => decode_encode_of_row (TableRow.msetup ..) 11 rfl (congrArg Instr.msetup (rs1Field_formatR ..))
  | .mmul .., _ => decode_encode_of_row (TableRow.mmul ..) 12 rfl (build3_formatR ..)
  | .mto .., _ => decode_encode_of_row (TableRow.mto ..) 13 rfl (build2_formatR ..)
  | .mfrom .., _ => decode_encode_of_row (TableRow.mfrom ..) 14 rfl (build2_formatR ..)
  | .modexp .., _ => decode_encode_of_row (TableRow.modexp ..) 15 rfl (build4_formatR ..)
  | .cand .., h => decode_encode_of_row (TableRow.cand ..) 16 rfl (buildI_formatI _ _ _ h)
  | .ptest .., _ => decode_encode_of_row (TableRow.ptest ..) 17 rfl (congrArg Instr.ptest (rs1Field_formatR ..))
  | .primegen .., h => decode_encode_of_row (TableRow.primegen ..) 18 rfl (buildI_formatI _ _ _ h)
  | .genkey .., h => decode_encode_of_row (TableRow.genkey ..) 19 rfl (congrArg Instr.genkey (immField_formatI_of_fits h))
  | .encode .., _ => decode_encode_of_row (TableRow.encode ..) 20 rfl (congrArg Instr.encode (rdField_formatR ..))
  | .decode .., _ => decode_encode_of_row (TableRow.decode ..) 21 rfl (congrArg Instr.decode (rs1Field_formatR ..))
  | .crt .., _ => decode_encode_of_row (TableRow.crt ..) 22 rfl (build3_formatR ..)
  | .encrypt .., _ => decode_encode_of_row (TableRow.encrypt ..) 23 rfl (build2_formatR ..)
  | .decrypt .., _ => decode_encode_of_row (TableRow.decrypt ..) 24 rfl (build2_formatR ..)

/-! ### From a word to its command and back -/

theorem ofNat_regField (w : Word) (lo : Nat) : BitVec.ofNat 4 (regField w lo).val = w.extractLsb' lo 4 := by
  rw [regField, BitVec.ofNat_toNat, BitVec.setWidth_eq]

theorem immFits_immField (w : Word) : immFits (immField w) = true :=
  decide_eq_true (w.extractLsb' 0 16).isLt

/-- A word is its opcode and fields, side by side (30_encoding.md R101). -/
theorem formatR_eq {w : Word} {op : BitVec 8} {rd rs1 rs2 rs3 : RegId} (hop : w.extractLsb' 24 8 = op)
    (hrd : BitVec.ofNat 4 rd.val = w.extractLsb' 20 4) (hrs1 : BitVec.ofNat 4 rs1.val = w.extractLsb' 16 4)
    (hrs2 : BitVec.ofNat 4 rs2.val = w.extractLsb' 12 4) (hrs3 : BitVec.ofNat 4 rs3.val = w.extractLsb' 8 4)
    (hlow : 0 = w.extractLsb' 0 8) : formatR op rd rs1 rs2 rs3 = w := by
  rw [formatR, ← hop, hrd, hrs1, hrs2, hrs3, show 0#8 = w.extractLsb' 0 8 from hlow]
  apply BitVec.eq_of_getLsbD_eq
  intro i hi
  simp only [BitVec.getLsbD_append, BitVec.getLsbD_extractLsb']
  interval_cases i <;> simp

/-- A word is its opcode, `rd`, the field at bits 19 to 16, and the immediate (30_encoding.md R102). -/
theorem formatI_eq {w : Word} {op : BitVec 8} {rd : RegId} (hop : w.extractLsb' 24 8 = op)
    (hrd : BitVec.ofNat 4 rd.val = w.extractLsb' 20 4) (hz : 0 = w.extractLsb' 16 4) : formatI op rd (immField w) = w := by
  rw [formatI, ← hop, hrd, show 0#4 = w.extractLsb' 16 4 from hz, immField, BitVec.ofNat_toNat, BitVec.setWidth_eq]
  apply BitVec.eq_of_getLsbD_eq
  intro i hi
  simp only [BitVec.getLsbD_append, BitVec.getLsbD_extractLsb']
  interval_cases i <;> simp

section Fields

variable {w m : Word} {op : BitVec 8}

theorem extract_opcode (h : w &&& m = op ++ 0#24) (hm : m.extractLsb' 24 8 = BitVec.allOnes 8) : w.extractLsb' 24 8 = op := by
  calc w.extractLsb' 24 8 = (w &&& m).extractLsb' 24 8 := by rw [BitVec.extractLsb'_and, hm, BitVec.and_allOnes]
    _ = op := by rw [h, BitVec.extractLsb'_append_eq_left]

/-- A field that the mask covers is 0. -/
theorem extract_unused (h : w &&& m = op ++ 0#24) {lo n : Nat} (hm : m.extractLsb' lo n = BitVec.allOnes n)
    (hlo : lo + n ≤ 24 := by decide) : 0 = w.extractLsb' lo n := by
  calc 0 = (op ++ 0#24).extractLsb' lo n := by simp [BitVec.extractLsb'_append_eq_of_add_le hlo]
    _ = w.extractLsb' lo n := by rw [← h, BitVec.extractLsb'_and, hm, BitVec.and_allOnes]

/-! The masks of the table (30_encoding.md R104): each leaves the fields of its format. -/

theorem formatR_of_mask_r4 (h : w &&& 0xFF0000FF = op ++ 0#24) : formatR op (rdField w) (rs1Field w) (rs2Field w) (rs3Field w) = w :=
  formatR_eq (extract_opcode h rfl) (ofNat_regField ..) (ofNat_regField ..) (ofNat_regField ..) (ofNat_regField ..)
    (extract_unused h rfl)

theorem formatR_of_mask_r3 (h : w &&& 0xFF000FFF = op ++ 0#24) : formatR op (rdField w) (rs1Field w) (rs2Field w) 0 = w :=
  formatR_eq (extract_opcode h rfl) (ofNat_regField ..) (ofNat_regField ..) (ofNat_regField ..)
    (extract_unused h rfl) (extract_unused h rfl)

theorem formatR_of_mask_r2 (h : w &&& 0xFF00FFFF = op ++ 0#24) : formatR op (rdField w) (rs1Field w) 0 0 = w :=
  formatR_eq (extract_opcode h rfl) (ofNat_regField ..) (ofNat_regField ..) (extract_unused h rfl)
    (extract_unused h rfl) (extract_unused h rfl)

theorem formatR_of_mask_cmp (h : w &&& 0xFFF00FFF = op ++ 0#24) : formatR op 0 (rs1Field w) (rs2Field w) 0 = w :=
  formatR_eq (extract_opcode h rfl) (extract_unused h rfl) (ofNat_regField ..) (ofNat_regField ..)
    (extract_unused h rfl) (extract_unused h rfl)

theorem formatR_of_mask_source (h : w &&& 0xFFF0FFFF = op ++ 0#24) : formatR op 0 (rs1Field w) 0 0 = w :=
  formatR_eq (extract_opcode h rfl) (extract_unused h rfl) (ofNat_regField ..) (extract_unused h rfl)
    (extract_unused h rfl) (extract_unused h rfl)

theorem formatR_of_mask_dest (h : w &&& 0xFF0FFFFF = op ++ 0#24) : formatR op (rdField w) 0 0 0 = w :=
  formatR_eq (extract_opcode h rfl) (ofNat_regField ..) (extract_unused h rfl) (extract_unused h rfl)
    (extract_unused h rfl) (extract_unused h rfl)

theorem formatI_of_mask_imm (h : w &&& 0xFF0F0000 = op ++ 0#24) : formatI op (rdField w) (immField w) = w :=
  formatI_eq (extract_opcode h rfl) (ofNat_regField ..) (extract_unused h rfl)

theorem formatI_of_mask_imm_only (h : w &&& 0xFFFF0000 = op ++ 0#24) : formatI op 0 (immField w) = w :=
  formatI_eq (extract_opcode h rfl) (extract_unused h rfl) (extract_unused h rfl)

/-- The command of a row is well formed and has the word that the row accepts. -/
theorem encode_build : ∀ r ∈ opcodeTable, w &&& r.mask = r.pattern → (r.build w).wellFormed = true ∧ encode (r.build w) = w := by
  simp only [opcodeTable, rowsInteger, rowsEngine, List.cons_append, List.nil_append, List.forall_mem_cons, List.not_mem_nil,
    IsEmpty.forall_iff, implies_true, and_true]
  have himm := immFits_immField w
  exact ⟨fun h => ⟨rfl, (BitVec.and_allOnes.symm.trans h).symm⟩,
    fun h => ⟨rfl, formatR_of_mask_r2 h⟩,
    fun h => ⟨himm, formatI_of_mask_imm h⟩,
    fun h => ⟨rfl, formatR_of_mask_cmp h⟩,
    fun h => ⟨rfl, formatR_of_mask_r3 h⟩,
    fun h => ⟨rfl, formatR_of_mask_r3 h⟩,
    fun h => ⟨rfl, formatR_of_mask_r3 h⟩,
    fun h => ⟨rfl, formatR_of_mask_r3 h⟩,
    fun h => ⟨rfl, formatR_of_mask_r3 h⟩,
    fun h => ⟨rfl, formatR_of_mask_r3 h⟩,
    fun h => ⟨rfl, formatR_of_mask_r2 h⟩,
    fun h => ⟨rfl, formatR_of_mask_source h⟩,
    fun h => ⟨rfl, formatR_of_mask_r3 h⟩,
    fun h => ⟨rfl, formatR_of_mask_r2 h⟩,
    fun h => ⟨rfl, formatR_of_mask_r2 h⟩,
    fun h => ⟨rfl, formatR_of_mask_r4 h⟩,
    fun h => ⟨himm, formatI_of_mask_imm h⟩,
    fun h => ⟨rfl, formatR_of_mask_source h⟩,
    fun h => ⟨himm, formatI_of_mask_imm h⟩,
    fun h => ⟨himm, formatI_of_mask_imm_only h⟩,
    fun h => ⟨rfl, formatR_of_mask_dest h⟩,
    fun h => ⟨rfl, formatR_of_mask_source h⟩,
    fun h => ⟨rfl, formatR_of_mask_r3 h⟩,
    fun h => ⟨rfl, formatR_of_mask_r2 h⟩,
    fun h => ⟨rfl, formatR_of_mask_r2 h⟩⟩

end Fields

/-- Settles O2: the row that decodes the word covers every bit that is no field of its command. -/
theorem encodeOfDecode : Obligations.EncodeOfDecode := by
  intro w i h
  rcases decode_cases w with ⟨r, hr, hacc, hd⟩ | ⟨why, hd⟩
  · obtain rfl : i = r.build w := Decoded.command.inj (h.symm.trans hd)
    exact encode_build r hr ((accepts_iff r w).1 hacc)
  · simp [h] at hd

/-! ### The words as numbers (30_encoding.md R101 to R103) -/

theorem toNat_formatR (op : BitVec 8) (rd rs1 rs2 rs3 : RegId) : (formatR op rd rs1 rs2 rs3).toNat =
    op.toNat * 2 ^ 24 + rd.val * 2 ^ 20 + rs1.val * 2 ^ 16 + rs2.val * 2 ^ 12 + rs3.val * 2 ^ 8 := by
  have h (r : RegId) : (BitVec.ofNat 4 r.val).toNat = r.val := Nat.mod_eq_of_lt r.isLt
  simp only [formatR, toNat_append_eq_add, h, BitVec.toNat_ofNat]
  ring

theorem toNat_formatI (op : BitVec 8) (rd : RegId) {v : Nat} (hv : v < 2 ^ 16) :
    (formatI op rd v).toNat = op.toNat * 2 ^ 24 + rd.val * 2 ^ 20 + v := by
  have h : (BitVec.ofNat 4 rd.val).toNat = rd.val := Nat.mod_eq_of_lt rd.isLt
  simp only [formatI, toNat_append_eq_add, h, BitVec.toNat_ofNat, Nat.mod_eq_of_lt hv]
  ring

/-- Settles O4: each command's word is of format `R` or `I`, with the opcode of the table and 0 for the fields that it does not use. -/
theorem wordLayout : Obligations.WordLayout :=
  ⟨rfl, fun _ _ _ _ =>
    ⟨toNat_formatR .., toNat_formatR .., toNat_formatR .., toNat_formatR .., toNat_formatR .., toNat_formatR .., toNat_formatR ..,
      toNat_formatR .., toNat_formatR .., toNat_formatR .., toNat_formatR .., toNat_formatR .., toNat_formatR .., toNat_formatR ..,
      toNat_formatR .., toNat_formatR .., toNat_formatR .., toNat_formatR .., toNat_formatR .., toNat_formatR ..⟩,
    fun _ _ hv => ⟨toNat_formatI _ _ hv, toNat_formatI _ _ hv, toNat_formatI _ _ hv, toNat_formatI _ 0 hv⟩⟩

end Sys2Proof.Proofs.RoundTrip
end

section
/-! SUPPORT. The ends of a command in the words of the statements (40_system_move.md R123, 60_exceptions.md R290), one rule per end; and the
commands of one step whose values are those of the exact integers (40_system_move.md, 41_arith.md). -/

namespace Sys2Proof.Proofs.Ends

open Sys2Proof.Machine Sys2Proof.Claims Sys2Proof.Proofs.CipherCrt

/-! ### The ends of a command -/

section Rules

variable {i : Instr} {s : State}

/-- A command that ends by `complete`, from a state that differs from the first in nothing that `Completes` speaks of. -/
theorem completes_of_exec_eq {u : State} {effect : State → Prop} (h : exec i s = .next u.complete)
    (hkept : u.isr = s.isr ∧ u.err = s.err ∧ SameControl s u ∧ SameInputs s u) (heffect : effect u.complete) :
    Completes i s effect := by
  obtain ⟨hisr, herr, hcontrol, hinputs⟩ := hkept
  exact ⟨u.complete, h, rfl, rfl, rfl, by rw [complete_isr, hisr]; rfl, herr, hcontrol, hinputs, heffect⟩

/-- Nothing but what the effect speaks of differs. -/
theorem kept_refl (s : State) : s.isr = s.isr ∧ s.err = s.err ∧ SameControl s s ∧ SameInputs s s :=
  ⟨rfl, rfl, ⟨rfl, rfl, rfl, rfl, rfl⟩, rfl, rfl, rfl⟩

theorem wrote_setReg (s : State) (rd : RegId) (v : Nat) : Wrote s (s.setReg rd v) rd v :=
  ⟨by simp, fun i hi => by simp [hi.symm], by simp [Keysrc.keysrcAfterWrite_eq]⟩

theorem engineDelivers_of_exec_eq {rd : RegId} {v : Nat} (h : exec i s = s.clearCtx.deliver rd v) : EngineDelivers i s rd v :=
  completes_of_exec_eq h (kept_refl s)
    ⟨wrote_setReg s rd v, rfl, rfl, ⟨fun _ => rfl, rfl⟩, rfl, rfl, rfl⟩

theorem faults_of_exec_eq {c : Cause} {info : BitVec 8} (h : exec i s = s.trap c info) (hc : c.isFatal = false := by decide) :
    Faults i s c info := by
  refine ⟨s.raise c info, h, ?_⟩
  simp [hc, isrErr, SameRegs, SameBuffer, SameFlags, SameControl, SameInputs]

theorem failsFatally_of_exec_eq {c : Cause} {info : BitVec 8} {rest : List RngAnswer}
    (h : exec i s = State.trap { s with rng := rest } c info) (hc : c.isFatal = true := by decide) :
    FailsFatally i s c info rest := by
  refine ⟨({ s with rng := rest } : State).raise c info, h, ?_⟩
  simp [hc, isrFatal, SameRegs, SameBuffer, SameFlags, SameControl, SameInputs, State.reg]

theorem goesOn_of_exec_eq {l : Phase} {h : Temps} {ctx : MontCtx} {rng : List RngAnswer}
    (he : exec i s = .next { s with phase := l, h := h, ctx := ctx, rng := rng }) : GoesOn i s l h ctx rng :=
  ⟨_, he, rfl, rfl, rfl, rfl, rfl, rfl, rfl, ⟨fun _ => rfl, rfl⟩, ⟨fun _ => rfl, rfl⟩, ⟨rfl, rfl, rfl⟩, ⟨rfl, rfl, rfl, rfl, rfl⟩,
    rfl, rfl, rfl⟩

theorem givesVerdict_of_exec_eq {v : Verdict} {h : Temps} {ctx : MontCtx} {rng : List RngAnswer}
    (he : exec i s = State.giveVerdict v { s with h := h, ctx := ctx, rng := rng }) : GivesVerdict i s v ctx rng :=
  completes_of_exec_eq (u := { s with h := h, ctx := ctx, rng := rng, verdict := v }) he (kept_refl s)
    ⟨rfl, rfl, rfl, rfl, rfl, ⟨fun _ => rfl, rfl⟩, fun _ => rfl, rfl⟩

end Rules

/-! ### Move, compare and the exact integers -/

theorem code_cmpFlag (a b : Nat) : (cmpFlag a b).code = if a = b then 0 else if a < b then 1 else 2 := by
  unfold cmpFlag
  split_ifs <;> rfl

/-- Settles O10: `NOP` is `complete`, `CMP` writes its flag before it, `MOV` and `LDI` deliver their value. -/
theorem moveAndCompare : Obligations.MoveAndCompare := by
  intro s rd rs1 rs2 imm16 _
  refine ⟨completes_of_exec_eq rfl (kept_refl s) ?nop,
    completes_of_exec_eq (u := { s with cmp := cmpFlag (s.reg rs1) (s.reg rs2) }) rfl (kept_refl s) ?cmp,
    delivers_of_exec_eq_deliver rfl, delivers_of_exec_eq_deliver rfl⟩
  case nop => exact ⟨⟨fun _ => rfl, rfl⟩, rfl, rfl, ⟨fun _ => rfl, rfl⟩, rfl, rfl, rfl⟩
  case cmp => exact ⟨⟨fun _ => rfl, rfl⟩, rfl, rfl, ⟨fun _ => rfl, rfl⟩, rfl, rfl, code_cmpFlag ..⟩

/-- Settles O11: an exact result below `2^W` is delivered, and no other. -/
theorem addSubMul : Obligations.AddSubMul := by
  intro s rd rs1 rs2
  refine ⟨fun h => delivers_of_exec_eq_deliver (if_neg (Nat.not_le.2 h)), fun h => faults_of_exec_eq (if_pos h), fun v h => ?sub,
    fun h => faults_of_exec_eq (if_pos h), fun h => delivers_of_exec_eq_deliver (if_neg (Nat.not_le.2 h)),
    fun h => faults_of_exec_eq (if_pos h)⟩
  have hv : v = s.reg rs1 - s.reg rs2 := by omega
  rw [hv]
  exact delivers_of_exec_eq_deliver (if_neg (by omega))

/-- Settles O12, from the division with remainder, the greatest common divisor and the bounds that fix a bit length. -/
theorem modGcdBitlen : Obligations.ModGcdBitlen := by
  intro s rd rs1 rs2
  refine ⟨fun h => ⟨s.reg rs1 % s.reg rs2, s.reg rs1 / s.reg rs2, Nat.mod_lt _ (Nat.pos_of_ne_zero h), (Nat.div_add_mod' _ _).symm,
      delivers_of_exec_eq_deliver (if_neg h)⟩, fun h => faults_of_exec_eq (if_pos h),
    ⟨_, delivers_of_exec_eq_deliver rfl, Nat.gcd_dvd_left _ _, Nat.gcd_dvd_right _ _, fun _ => Nat.dvd_gcd⟩, fun h => ?zero,
    fun L hL hlo hhi => ?length⟩
  case zero =>
    have hdeliver : Delivers (.bitlen rd rs1) s rd (bitlen (s.reg rs1)) := delivers_of_exec_eq_deliver rfl
    rwa [h, bitlen_zero] at hdeliver
  case length =>
    have hdeliver : Delivers (.bitlen rd rs1) s rd (bitlen (s.reg rs1)) := delivers_of_exec_eq_deliver rfl
    rwa [(bitlen_eq_iff hL).2 ⟨hlo, hhi⟩] at hdeliver

/-- Settles O13: the inverse that the model computes is the only one. -/
theorem modinvCommand : Obligations.ModinvCommand := by
  intro s rd rs1 rs2
  refine ⟨fun hm hgcd => ?inverse, fun h => faults_of_exec_eq (if_pos h),
    fun hm hgcd => faults_of_exec_eq ((if_neg hm).trans (if_pos hgcd))⟩
  have hpos : 0 < s.reg rs2 := Nat.pos_of_ne_zero hm
  exact ⟨inv (s.reg rs1) (s.reg rs2), delivers_of_exec_eq_deliver ((if_neg hm).trans (if_neg (not_not.2 hgcd))), inv_lt hpos _,
    mul_inv_mod hpos hgcd, fun v' hlt he => eq_inv hpos hgcd hlt he⟩

/-- Settles O18: the engine's value is `b^e mod N`. -/
theorem modexpCommand : Obligations.ModexpCommand := by
  intro s rd rs1 rs2 rs3
  refine ⟨fun hodd => engineDelivers_of_exec_eq ?_, fun heven => faults_of_exec_eq (if_pos heven)⟩
  rw [← modExp_eq]
  exact if_neg (by omega)

end Sys2Proof.Proofs.Ends
end

section
/-! SUPPORT. The Montgomery multiplier (42_montgomery.md R160 to R166): the context's constants, the residues of the commands, and the
reference algorithms of R166 and 43_modexp.md R183 over the word-serial product. -/

namespace Sys2Proof.Proofs.MontgomerySerial

open Sys2Proof.Machine Sys2Proof.Claims Sys2Proof.Proofs.Montgomery Sys2Proof.Proofs.CipherCrt Sys2Proof.Proofs.Ends

/-! ### The context of an odd modulus (42_montgomery.md R160, R161) -/

theorem limbs_pos (N : Nat) : 1 ≤ limbs N := le_max_left _ _

/-- `s` limbs hold `N` exactly when `N < 2^(32 s)`. -/
theorem limbs_le_iff {N w : Nat} (hw : 1 ≤ w) : limbs N ≤ w ↔ N < 2 ^ (32 * w) := by
  refine ⟨fun h => ?_, limbs_le hw⟩
  have hlen : bitlen N ≤ 32 * w := by
    rw [limbs, ceilDiv, Config.limb] at h
    omega
  exact bitlen_le_iff.1 hlen

theorem lt_two_pow_limbs (N : Nat) : N < 2 ^ (32 * limbs N) := (limbs_le_iff (limbs_pos N)).1 le_rfl

theorem two_pow_le_of_limbs {N : Nat} (h : 1 < limbs N) : 2 ^ (32 * (limbs N - 1)) ≤ N := by
  have hn : ¬ limbs N ≤ limbs N - 1 := by omega
  exact Nat.not_lt.1 ((limbs_le_iff (by omega)).not.1 hn)

theorem n0inv_lt (N : Nat) : n0inv N < 2 ^ 32 := floorMod_lt _ (by decide)

/-- `N * N0INV` is `-1` modulo `2^32` (R160). -/
theorem mul_n0inv_add_one_modEq {N : Nat} (hodd : N % 2 = 1) : N * n0inv N + 1 ≡ 0 [MOD 2 ^ 32] := by
  have hgcd : Nat.gcd (N % 2 ^ 32) (2 ^ 32) = 1 :=
    Nat.Coprime.pow_right 32 (Nat.coprime_two_right.2 (Nat.odd_iff.2 (by omega)))
  have hinv : (N % 2 ^ 32) * inv (N % 2 ^ 32) (2 ^ 32) ≡ 1 [MOD 2 ^ 32] := mul_inv_mod (by decide) hgcd
  rw [← Int.natCast_modEq_iff] at hinv ⊢
  have hN : (N : Int) ≡ (N % 2 ^ 32 : Nat) [ZMOD ((2 ^ 32 : Nat) : Int)] := (Int.natCast_modEq_iff.2 (Nat.mod_modEq N _)).symm
  push_cast at hinv hN ⊢
  calc (N : Int) * n0inv N + 1
      ≡ (N % 2 ^ 32 : Int) * -(inv (N % 2 ^ 32) (2 ^ 32) : Nat) + 1 [ZMOD 2 ^ 32] :=
        (hN.mul (floorMod_modEq _ (by decide))).add_right 1
    _ = -((N % 2 ^ 32 : Int) * (inv (N % 2 ^ 32) (2 ^ 32) : Nat)) + 1 := by ring
    _ ≡ -1 + 1 [ZMOD 2 ^ 32] := hinv.neg.add_right 1
    _ = 0 := by ring

/-- Settles O14: the constants of `MontCtx.of`, of which `W` is small enough for `MLEN`. -/
theorem msetupCommand : Obligations.MsetupCommand := by
  intro s rs1
  refine ⟨fun hcfg hlt hodd => ?loads, fun heven => faults_of_exec_eq (if_pos heven)⟩
  refine completes_of_exec_eq (u := { s with ctx := MontCtx.of (s.reg rs1) }) (if_neg (by omega)) (kept_refl s) ?_
  have hmlen : (MontCtx.of (s.reg rs1)).mlen.toNat = limbs (s.reg rs1) := toNat_mlen hcfg hlt
  have hn0 : (MontCtx.of (s.reg rs1)).mn0inv.toNat = n0inv (s.reg rs1) := Nat.mod_eq_of_lt (n0inv_lt _)
  refine ⟨⟨fun _ => rfl, rfl⟩, rfl, ⟨fun _ => rfl, rfl⟩, ⟨rfl, rfl, rfl⟩, rfl, rfl, ?_⟩
  simp only [complete_ctx, hmlen, hn0]
  refine ⟨limbs_pos _, lt_two_pow_limbs _, two_pow_le_of_limbs, ?_, rfl⟩
  have h : (s.reg rs1 * n0inv (s.reg rs1) + 1) % 2 ^ 32 = 0 := mul_n0inv_add_one_modEq hodd
  omega

/-! ### The commands (42_montgomery.md R162 to R164) -/

theorem inv_montR_mul_montR {N : Nat} (hodd : N % 2 = 1) (k : Nat) : inv (montR k % N) N * montR k ≡ 1 [MOD N] := by
  have h : montR k % N * inv (montR k % N) N ≡ 1 [MOD N] := mul_inv_mod (by omega) (coprime_montR hodd k)
  rw [mul_comm]
  exact ((Nat.mod_modEq _ _).symm.mul_right _).trans h

/-- `MontMul(a, b) * R` is `a * b` modulo `N` (R160). -/
theorem montMul_mul_montR {N : Nat} (hodd : N % 2 = 1) (k a b : Nat) : montMul k N a b * montR k ≡ a * b [MOD N] := by
  calc montMul k N a b * montR k ≡ a * b * inv (montR k % N) N * montR k [MOD N] := (Nat.mod_modEq _ _).mul_right _
    _ = a * b * (inv (montR k % N) N * montR k) := mul_assoc ..
    _ ≡ a * b * 1 [MOD N] := (inv_montR_mul_montR hodd k).mul_left _
    _ = a * b := mul_one _

theorem montMul_lt {N : Nat} (hodd : N % 2 = 1) (k a b : Nat) : montMul k N a b < N := Nat.mod_lt _ (by omega)

/-- Settles O15: the delivered residues are Montgomery products, and the checks stand in the order of the statement. -/
theorem montgomeryCommands : Obligations.MontgomeryCommands := by
  intro s rd rs1 rs2
  refine ⟨fun hvalid hodd h1 => ⟨fun h2 => ?mmul, ?mto, ?mfrom⟩, fun hinvalid => ?noContext, fun hvalid hge => ?first,
    fun hvalid h1 hge => ?second⟩
  case mmul =>
    exact ⟨_, delivers_of_exec_eq_deliver (exec_mmul_of_lt hvalid rd rfl h1 rfl h2), montMul_lt hodd .., montMul_mul_montR hodd ..⟩
  case mto => exact delivers_of_exec_eq_deliver (exec_mto_of_lt hvalid rd rfl h1)
  case mfrom =>
    refine ⟨_, delivers_of_exec_eq_deliver (exec_mfrom_of_lt hvalid rd rfl h1), montMul_lt hodd .., ?_⟩
    have h := montMul_mul_montR hodd s.ctx.mlen.toNat (s.reg rs1) 1
    rw [mul_one] at h
    exact Nat.mod_eq_of_modEq h h1
  case noContext =>
    exact ⟨faults_of_exec_eq (if_pos hinvalid), faults_of_exec_eq (if_pos hinvalid), faults_of_exec_eq (if_pos hinvalid)⟩
  case first =>
    have hn : ¬ s.ctx.valid = false := by simp [hvalid]
    exact ⟨faults_of_exec_eq ((if_neg hn).trans (if_pos hge)), faults_of_exec_eq ((if_neg hn).trans (if_pos hge)),
      faults_of_exec_eq ((if_neg hn).trans (if_pos hge))⟩
  case second =>
    have hn : ¬ s.ctx.valid = false := by simp [hvalid]
    exact faults_of_exec_eq ((if_neg hn).trans ((if_neg (Nat.not_le.2 h1)).trans (if_pos hge)))

/-! ### The word-serial product (42_montgomery.md R166) -/

/-- The multiple of `N` clears the low limb: the division of R166 is exact. -/
theorem montStep_mul {N : Nat} (hodd : N % 2 = 1) (a bi T : Nat) :
    montStep N (n0inv N) a bi T * 2 ^ 32 = T + a * bi + (T + a * bi) % 2 ^ 32 * n0inv N % 2 ^ 32 * N := by
  refine Nat.div_mul_cancel ((Nat.modEq_zero_iff_dvd).1 ?_)
  set S := T + a * bi
  calc S + S % 2 ^ 32 * n0inv N % 2 ^ 32 * N ≡ S + S * n0inv N * N [MOD 2 ^ 32] :=
        (((Nat.mod_modEq _ _).trans ((Nat.mod_modEq _ _).mul_right _)).mul_right _).add_left _
    _ = S * (N * n0inv N + 1) := by ring
    _ ≡ S * 0 [MOD 2 ^ 32] := (mul_n0inv_add_one_modEq hodd).mul_left _
    _ = 0 := mul_zero _

theorem montStep_lt {N a bi T : Nat} (hodd : N % 2 = 1) (hbi : bi < 2 ^ 32) (hT : T < a + N) :
    montStep N (n0inv N) a bi T < a + N := by
  have hm : (T + a * bi) % 2 ^ 32 * n0inv N % 2 ^ 32 < 2 ^ 32 := Nat.mod_lt _ (by decide)
  have h := montStep_mul hodd a bi T
  generalize (T + a * bi) % 2 ^ 32 * n0inv N % 2 ^ 32 = m at hm h
  have h1 : a * bi ≤ a * (2 ^ 32 - 1) := Nat.mul_le_mul_left a (by omega)
  have h2 : m * N ≤ (2 ^ 32 - 1) * N := Nat.mul_le_mul_right N (by omega)
  omega

/-- The two invariants of the loop of R166, for every `b`. -/
theorem montSerial_spec {N : Nat} (hodd : N % 2 = 1) (a b : Nat) : ∀ i,
    montSerial N (n0inv N) a b i * 2 ^ (32 * i) ≡ a * (b % 2 ^ (32 * i)) [MOD N] ∧ montSerial N (n0inv N) a b i < a + N
  | 0 => ⟨by simp [montSerial, Nat.mod_one, Nat.ModEq], by rw [montSerial]; omega⟩
  | i + 1 => by
    obtain ⟨hmod, hlt⟩ := montSerial_spec hodd a b i
    have hbi : bitsFrom b (32 * i) 32 < 2 ^ 32 := Nat.mod_lt _ (by decide)
    refine ⟨?_, montStep_lt hodd hbi hlt⟩
    have hpow : 2 ^ (32 * (i + 1)) = 2 ^ 32 * 2 ^ (32 * i) := by rw [← pow_add]; ring_nf
    have hsplit : b % 2 ^ (32 * (i + 1)) = b % 2 ^ (32 * i) + 2 ^ (32 * i) * bitsFrom b (32 * i) 32 := by
      rw [hpow, mul_comm (2 ^ 32), Nat.mod_mul]
      rfl
    rw [montSerial]
    set T := montSerial N (n0inv N) a b i
    set bi := bitsFrom b (32 * i) 32
    have hstep := montStep_mul hodd a bi T
    generalize (T + a * bi) % 2 ^ 32 * n0inv N % 2 ^ 32 = m at hstep
    calc montStep N (n0inv N) a bi T * 2 ^ (32 * (i + 1))
        = T * 2 ^ (32 * i) + a * bi * 2 ^ (32 * i) + N * (m * 2 ^ (32 * i)) := by rw [hpow, ← mul_assoc, hstep]; ring
      _ ≡ T * 2 ^ (32 * i) + a * bi * 2 ^ (32 * i) [MOD N] := by simp [Nat.ModEq]
      _ ≡ a * (b % 2 ^ (32 * i)) + a * bi * 2 ^ (32 * i) [MOD N] := hmod.add_right _
      _ = a * (b % 2 ^ (32 * (i + 1))) := by rw [hsplit]; ring

theorem coprime_of_odd_two_pow {N : Nat} (hodd : N % 2 = 1) (k : Nat) : Nat.Coprime N (montR k) :=
  Nat.Coprime.pow_right _ (Nat.coprime_two_right.2 (Nat.odd_iff.2 hodd))

/-- After the conditional subtraction the serial product is `MontMul`; `b` needs only to fit the limbs. -/
theorem montMulSerial_eq {N a b : Nat} (hodd : N % 2 = 1) (ha : a < N) (hb : b < 2 ^ (32 * limbs N)) :
    montMulSerial (limbs N) N (n0inv N) a b = montMul (limbs N) N a b := by
  obtain ⟨hmod, hlt⟩ := montSerial_spec hodd a b (limbs N)
  rw [Nat.mod_eq_of_lt hb] at hmod
  have hres : montMulSerial (limbs N) N (n0inv N) a b ≡ montSerial N (n0inv N) a b (limbs N) [MOD N] := by
    unfold montMulSerial
    split_ifs with h
    · exact (Nat.modEq_iff_dvd' (Nat.sub_le _ _)).2 ⟨1, by omega⟩
    · rfl
  have hlt' : montMulSerial (limbs N) N (n0inv N) a b < N := by
    unfold montMulSerial
    split_ifs with h <;> omega
  have hR : montMulSerial (limbs N) N (n0inv N) a b * montR (limbs N) ≡ montMul (limbs N) N a b * montR (limbs N) [MOD N] :=
    ((hres.mul_right _).trans hmod).trans (montMul_mul_montR hodd ..).symm
  exact (hR.cancel_right_of_coprime (coprime_of_odd_two_pow hodd _)).eq_of_lt_of_lt hlt' (montMul_lt hodd ..)

/-- Settles O17: the loop's invariants by induction on the limbs, and the product from them. -/
theorem serialProduct : Obligations.SerialProduct := by
  intro N a b hodd ha hb
  refine ⟨fun i => ⟨(montSerial_spec hodd a b i).1, (montSerial_spec hodd a b i).2⟩, montMulSerial_eq hodd ha ?_⟩
  exact hb.trans (lt_two_pow_limbs N)

/-! ### Exponentiation over it (43_modexp.md R183) -/

section Exponentiation

variable {N : Nat} (hodd : N % 2 = 1)
include hodd

theorem montMulSerial_mul_montR {a b : Nat} (ha : a < N) (hb : b < 2 ^ (32 * limbs N)) :
    montMulSerial (limbs N) N (n0inv N) a b * montR (limbs N) ≡ a * b [MOD N] := by
  rw [montMulSerial_eq hodd ha hb]
  exact montMul_mul_montR hodd ..

theorem montMulSerial_lt {a b : Nat} (ha : a < N) (hb : b < 2 ^ (32 * limbs N)) : montMulSerial (limbs N) N (n0inv N) a b < N := by
  rw [montMulSerial_eq hodd ha hb]
  exact montMul_lt hodd ..

end Exponentiation

/-- `a` is the Montgomery form of `v`: the residue of `v * R` (R160). -/
def IsForm (N a v : Nat) : Prop := a < N ∧ a ≡ v * montR (limbs N) [MOD N]

/-- The serial product of two Montgomery forms is the form of the product. -/
theorem IsForm.mul {N a b v w : Nat} (hodd : N % 2 = 1) (ha : IsForm N a v) (hb : IsForm N b w) :
    IsForm N (montMulSerial (limbs N) N (n0inv N) a b) (v * w) := by
  have hb' : b < 2 ^ (32 * limbs N) := hb.1.trans (lt_two_pow_limbs N)
  refine ⟨montMulSerial_lt hodd ha.1 hb', Nat.ModEq.cancel_right_of_coprime (coprime_of_odd_two_pow hodd (limbs N)) ?_⟩
  calc montMulSerial (limbs N) N (n0inv N) a b * montR (limbs N) ≡ a * b [MOD N] := montMulSerial_mul_montR hodd ha.1 hb'
    _ ≡ v * montR (limbs N) * (w * montR (limbs N)) [MOD N] := ha.2.mul hb.2
    _ = v * w * montR (limbs N) * montR (limbs N) := by ring

/-- The loop of R183 from the form of `b^(e div 2^i)` ends at the form of `b^e`. -/
theorem isForm_expSerial {N bm b : Nat} (hodd : N % 2 = 1) (hb : IsForm N bm b) (e : Nat) : ∀ i acc,
    IsForm N acc (b ^ (e / 2 ^ i)) → IsForm N (expSerial (limbs N) N (n0inv N) bm e i acc) (b ^ e)
  | 0, acc, h => by simpa [expSerial] using h
  | i + 1, acc, h => by
    have hhalf : e / 2 ^ (i + 1) = e / 2 ^ i / 2 := by rw [pow_succ, Nat.div_div_eq_div_mul]
    have hsq := h.mul hodd h
    rw [← pow_add] at hsq
    refine isForm_expSerial hodd hb e i _ ?_
    split_ifs with hbit
    · have hexp : e / 2 ^ i = e / 2 ^ (i + 1) + e / 2 ^ (i + 1) + 1 := by omega
      rw [hexp, pow_succ]
      exact hsq.mul hodd hb
    · have hexp : e / 2 ^ i = e / 2 ^ (i + 1) + e / 2 ^ (i + 1) := by omega
      rwa [hexp]

/-- Settles O19: the forms along the exponent's bits, taken back by the product with 1. -/
theorem serialExponentiation : Obligations.SerialExponentiation := by
  intro b e N hodd
  have hN : 0 < N := by omega
  have hmrr : 2 ^ (64 * limbs N) = montR (limbs N) * montR (limbs N) := by rw [montR, Config.limb, ← pow_add]; congr 1; ring
  have hbase : IsForm N (montMulSerial (limbs N) N (n0inv N) (b % N) (2 ^ (64 * limbs N) % N)) b := by
    have hlt : 2 ^ (64 * limbs N) % N < 2 ^ (32 * limbs N) := (Nat.mod_lt _ hN).trans (lt_two_pow_limbs N)
    refine ⟨montMulSerial_lt hodd (Nat.mod_lt _ hN) hlt, Nat.ModEq.cancel_right_of_coprime (coprime_of_odd_two_pow hodd (limbs N)) ?_⟩
    refine (montMulSerial_mul_montR hodd (Nat.mod_lt _ hN) hlt).trans ?_
    rw [mul_assoc, ← hmrr]
    exact (Nat.mod_modEq _ _).mul (Nat.mod_modEq _ _)
  have hone : IsForm N (montR (limbs N) % N) (b ^ (e / 2 ^ bitlen e)) := by
    rw [Nat.div_eq_of_lt (lt_two_pow_bitlen e), pow_zero, IsForm, one_mul]
    exact ⟨Nat.mod_lt _ hN, Nat.mod_modEq _ _⟩
  obtain ⟨hlt, hform⟩ := isForm_expSerial hodd hbase e (bitlen e) _ hone
  have hfits : 1 < 2 ^ (32 * limbs N) := Nat.one_lt_two_pow (by have := limbs_pos N; omega)
  refine (Nat.mod_eq_of_modEq ?_ (montMulSerial_lt hodd hlt hfits)).symm
  refine Nat.ModEq.cancel_right_of_coprime (coprime_of_odd_two_pow hodd (limbs N)) ?_
  exact (hform.symm.trans (by rw [mul_one])).trans (montMulSerial_mul_montR hodd hlt hfits).symm

end Sys2Proof.Proofs.MontgomerySerial
end

section
/-! SUPPORT. The primality test (44_primegen.md): the candidate bit by bit (R190), what one trial decides (R202, R203), and the blocks that
`PTEST`, `PRIMEGEN` and `GENKEY` share (R204, R207, 45_keygen.md R221), one rule per block. -/

namespace Sys2Proof.Proofs.Primes

open Sys2Proof.Machine Sys2Proof.Claims Sys2Proof.Proofs.CipherCrt Sys2Proof.Proofs.Ends

/-! ### The candidate (44_primegen.md R190) -/

theorem testBit_candidate (k u j : Nat) :
    (candidate k u).testBit j = (u.testBit j || decide (j = 0) || decide (j = k - 1)) := by
  rw [candidate, show 1 = 2 ^ 0 from rfl, Nat.testBit_or, Nat.testBit_or, Nat.testBit_two_pow, Nat.testBit_two_pow]
  simp only [eq_comm]

/-- Settles O20: oddness, length and bits of the candidate fix the rest. -/
theorem candidateShape : Obligations.CandidateShape := by
  intro k u hk hu
  have hodd := candidate_odd k u
  have hlt := candidate_lt hk hu
  have hle := two_pow_le_candidate k u
  refine ⟨hodd, bitlen_candidate hk hu, fun h2 => ?range, fun h => ?one, fun h => ?two, testBit_candidate k u⟩
  case range =>
    have heven : 2 ^ (k - 1) % 2 = 0 := by
      rw [show k - 1 = k - 2 + 1 by omega, pow_succ]
      omega
    omega
  case one => subst h; omega
  case two => subst h; omega

/-! ### One trial (44_primegen.md R202, R203) -/

/-- Settles O23: the first power is `a^t`, each squaring doubles the exponent. -/
theorem trialMeaning : Obligations.TrialMeaning := by
  intro x s t a hx hs
  have hpow (r : Nat) : (a ^ t % x) ^ 2 ^ r % x = a ^ (2 ^ r * t) % x := by
    rw [← Nat.pow_mod, ← pow_mul, mul_comm]
  have hzero : a ^ t % x = a ^ (2 ^ 0 * t) % x := by rw [pow_zero, one_mul]
  unfold ptTrial
  rw [modExp_eq]
  split_ifs with h
  · refine iff_of_true rfl (h.imp_right fun h => ⟨0, hs, hzero.symm.trans h⟩)
  · push Not at h
    rw [squareLoop_iff hx]
    constructor
    · rintro ⟨r, -, hr, e⟩
      exact .inr ⟨r, by omega, (hpow r).symm.trans e⟩
    · rintro (e | ⟨r, hr, e⟩)
      · exact absurd e h.1
      · have hr0 : r ≠ 0 := by
          rintro rfl
          exact h.2 (hzero.trans e)
        exact ⟨r, by omega, by omega, (hpow r).trans e⟩

/-- In a domain 1 has only the square roots 1 and -1, so the squarings from `y` to 1 pass -1 unless `y` is 1. -/
theorem eq_one_or_pow_two_pow_eq_neg_one {R : Type} [CommRing R] [NoZeroDivisors R] {y : R} : ∀ {e : Nat}, y ^ 2 ^ e = 1 →
    y = 1 ∨ ∃ r, r < e ∧ y ^ 2 ^ r = -1
  | 0, h => .inl (by simpa using h)
  | e + 1, h => by
    rw [pow_succ 2, pow_mul, pow_two, mul_self_eq_one_iff] at h
    rcases h with h | h
    · exact (eq_one_or_pow_two_pow_eq_neg_one h).imp_right fun ⟨r, hr, e⟩ => ⟨r, by omega, e⟩
    · exact .inr ⟨e, by omega, h⟩

/-- 44_primegen.md R203 item 1: Fermat's theorem, and the square roots of 1 modulo a prime. -/
theorem ptTrial_of_prime {x e o a : Nat} (hx : Nat.Prime x) (hsplit : x - 1 = 2 ^ e * o) (ho : o % 2 = 1) (h5 : 5 ≤ x)
    (h2 : 2 ≤ a) (ha : a + 2 ≤ x) : ptTrial x e o a = true := by
  have : Fact x.Prime := ⟨hx⟩
  have hxodd : x % 2 = 1 := Nat.odd_iff.1 (hx.odd_of_ne_two (by omega))
  have he : 1 ≤ e := by
    by_contra h0
    obtain rfl : e = 0 := by omega
    rw [pow_zero, one_mul] at hsplit
    omega
  have hcast (k v : Nat) (hv : v < x) : a ^ k % x = v ↔ (a : ZMod x) ^ k = v := by
    rw [← Nat.cast_pow, ZMod.natCast_eq_natCast_iff', Nat.mod_eq_of_lt hv]
  have hne : (a : ZMod x) ≠ 0 := by
    rw [Ne, ZMod.natCast_eq_zero_iff]
    exact Nat.not_dvd_of_pos_of_lt (by omega) (by omega)
  have hfermat : ((a : ZMod x) ^ o) ^ 2 ^ e = 1 := by
    rw [← pow_mul, mul_comm, ← hsplit]
    exact ZMod.pow_card_sub_one_eq_one hne
  rw [trialMeaning x e o a (by omega) he]
  refine (eq_one_or_pow_two_pow_eq_neg_one hfermat).imp (fun h => ?_) fun ⟨r, hr, h⟩ => ⟨r, hr, ?_⟩
  · rw [hcast _ _ (by omega), h, Nat.cast_one]
  · rw [hcast _ _ (by omega), mul_comm, pow_mul, h, Nat.cast_pred (by omega), ZMod.natCast_self, zero_sub]

/-! ### The shared blocks (44_primegen.md R204, R207) -/

section Blocks

variable {i : Instr} {s : State}

theorem candidateBlock_of_exec_eq {k : Nat} {trials check : Phase} (h : exec i s = s.candBlock k trials check) :
    CandidateBlock i s k trials check := by
  refine ⟨fun hr => h.trans (withDraw_nil hr ..), fun rest hr => failsFatally_of_exec_eq (h.trans (withDraw_fail hr ..)),
    fun u rest hr c hc => ?_⟩
  have hodd := candidate_odd k (u % 2 ^ k)
  rw [candidate, ← hc] at hodd
  have hexec := h.trans (withDraw_value hr ..)
  rw [candidate, ← hc] at hexec
  rcases beginTest_eq ({ s with rng := rest, h := { s.h with cand := c } } : State) trials
      (fun v s => .next { s with h := { s.h with v := v }, phase := check }) with
    ⟨hlt, e⟩ | ⟨h23, e⟩ | ⟨-, heven, -⟩ | ⟨h5, -, x, o, ho, hx, e⟩
  · dsimp only at hlt
    exact ⟨fun _ => goesOn_of_exec_eq (hexec.trans e), fun _ => by omega, fun _ => by omega, by omega⟩
  · dsimp only at h23
    exact ⟨fun _ => by omega, fun _ => goesOn_of_exec_eq (hexec.trans e), fun _ => by omega, by omega⟩
  · dsimp only at heven
    omega
  · dsimp only at h5
    exact ⟨fun _ => by omega, fun _ => by omega, fun _ => ⟨x, o, ho, hx, goesOn_of_exec_eq (hexec.trans e)⟩, by omega⟩

/-! A trial with the answer `u`, by its base `a` and what the trial of `a` says. -/

section Trial

variable {u a : Nat} {rest : List RngAnswer} {again : Phase} {decided : Verdict → State → Result}
  (hr : s.rng = .value u :: rest) (ha : a = u % 2 ^ bitlen s.h.cand)
include hr ha

theorem trialBlock_discard (h : a < 2 ∨ s.h.cand < a + 2) :
    s.trialBlock again decided = .next { s with rng := rest, phase := again } := by
  rw [State.trialBlock, withDraw_value hr, ← ha]
  exact if_pos (by dsimp only; omega)

variable (h2 : 2 ≤ a) (hle : a + 2 ≤ s.h.cand)
include h2 hle

theorem trialBlock_used : s.trialBlock again decided =
    if ptTrial s.h.cand s.h.s s.h.t a = false then decided .composite { s with rng := rest }
    else if s.h.i + 1 = s.roundCount then decided .probablyPrime { s with rng := rest, h := { s.h with i := s.h.i + 1 } }
    else .next { s with rng := rest, h := { s.h with i := s.h.i + 1 }, phase := again } := by
  rw [State.trialBlock, withDraw_value hr, ← ha]
  exact if_neg (by dsimp only; omega)

end Trial

/-- The draw of a trial block; what an accepted base does is left to the block. -/
theorem trialDraw_of_exec_eq {again : Phase} {decided : Verdict → State → Result} {used : Nat → List RngAnswer → Prop}
    (h : exec i s = s.trialBlock again decided)
    (hused : ∀ u rest a, s.rng = .value u :: rest → a = u % 2 ^ bitlen s.h.cand → 2 ≤ a → a + 2 ≤ s.h.cand → used a rest) :
    TrialDraw i s again used :=
  ⟨fun hr => h.trans (withDraw_nil hr ..), fun _ hr => failsFatally_of_exec_eq (h.trans (withDraw_fail hr ..)),
    fun u rest hr a ha => ⟨fun hout => goesOn_of_exec_eq (h.trans (trialBlock_discard hr ha hout)), hused u rest a hr ha⟩⟩

theorem trialBlock_of_exec_eq {again check : Phase} (h : exec i s = s.trialThenCheck again check) : TrialBlock i s again check := by
  refine trialDraw_of_exec_eq h fun u rest a hr ha h2 hle => ?_
  have hexec := h.trans (trialBlock_used hr ha h2 hle)
  refine ⟨fun hfail => goesOn_of_exec_eq (hexec.trans (if_pos hfail)), fun hpass hlast => ?_, fun hpass hmore => ?_⟩
  · exact goesOn_of_exec_eq (hexec.trans ((if_neg (by simp [hpass])).trans (if_pos hlast)))
  · exact goesOn_of_exec_eq (hexec.trans ((if_neg (by simp [hpass])).trans (if_neg hmore)))

theorem checksParameters_of_exec_eq {least bits : Nat} {first : Phase}
    (h : exec i s = s.checkGenerator (decide (least ≤ bits ∧ bits ≤ s.cfg.w)) first) : ChecksParameters i s least bits first := by
  have hzero : s.rounds = 0 ↔ s.roundCount = 0 := by rw [State.roundCount, ← BitVec.toNat_inj]; rfl
  refine ⟨fun hout => ?length, fun hlo hhi h0 => ?rounds, fun hlo hhi h0 => ?goesOn⟩
  case length => exact faults_of_exec_eq (h.trans (if_pos (decide_eq_false (by omega))))
  case rounds =>
    have hok : ¬ decide (least ≤ bits ∧ bits ≤ s.cfg.w) = false := by simp [hlo, hhi]
    exact faults_of_exec_eq (h.trans ((if_neg hok).trans (if_pos (hzero.1 h0))))
  case goesOn =>
    have hok : ¬ decide (least ≤ bits ∧ bits ≤ s.cfg.w) = false := by simp [hlo, hhi]
    exact goesOn_of_exec_eq (h.trans ((if_neg hok).trans (if_neg (hzero.not.1 h0))))

end Blocks

end Sys2Proof.Proofs.Primes
end

section
/-! SUPPORT. The generators block by block (44_primegen.md R191, R204, R207; 45_keygen.md R221): which shared block each label runs, and the
commit of a key. -/

namespace Sys2Proof.Proofs.Generators

open Sys2Proof.Machine Sys2Proof.Claims Sys2Proof.Proofs.CipherCrt Sys2Proof.Proofs.Ends Sys2Proof.Proofs.Primes

theorem roundCount_eq_zero_iff (s : State) : s.roundCount = 0 ↔ s.rounds = 0 := by
  rw [State.roundCount, ← BitVec.toNat_inj]
  rfl

/-! ### `CAND` and `PTEST` -/

/-- Settles O21: the length check, and one draw that is delivered as a candidate. -/
theorem candCommand : Obligations.CandCommand := by
  intro s rd k
  refine ⟨fun h => faults_of_exec_eq (if_pos h), fun h1 hw => ?_⟩
  have hexec : exec (.cand rd k) s = s.withDraw k fun u s => s.deliver rd (candidate k u) := if_neg (by omega)
  refine ⟨fun hr => hexec.trans (withDraw_nil hr ..), fun rest hr => failsFatally_of_exec_eq (hexec.trans (withDraw_fail hr ..)),
    fun u rest hr hu => ?_⟩
  have hvalue := hexec.trans (withDraw_value hr ..)
  rw [Nat.mod_eq_of_lt hu] at hvalue
  exact completes_of_exec_eq hvalue (kept_refl s)
    ⟨wrote_setReg { s with rng := rest } rd _, rfl, rfl, ⟨fun _ => rfl, rfl⟩, rfl, rfl, rfl⟩

section Ptest

variable {s : State} {rs1 : RegId}

theorem exec_ptest_exec (hp : s.phase = .exec) (h0 : s.roundCount ≠ 0) : exec (.ptest rs1) s =
    ({ s.clearCtx with h := { s.h with cand := s.reg rs1 } } : State).beginTest .ptTrial State.giveVerdict := by
  simp only [exec, execPtest, hp]
  exact if_neg h0

theorem exec_ptest_trial (hp : s.phase = .ptTrial) : exec (.ptest rs1) s = s.trialBlock .ptTrial State.giveVerdict := by
  simp only [exec, execPtest, hp]

end Ptest

/-- Settles O22: the classification of the operand in `EXEC`, and a trial block whose decisions give the verdict. -/
theorem ptestBlocks : Obligations.PtestBlocks := by
  intro s rs1
  refine ⟨fun hp => ⟨fun h0 => ?noRounds, fun h0 => ?classify⟩, fun hp => ?trial⟩
  case noRounds =>
    refine faults_of_exec_eq ?_
    simp only [exec, execPtest, hp]
    exact if_pos ((roundCount_eq_zero_iff s).2 h0)
  case classify =>
    have hexec := exec_ptest_exec (rs1 := rs1) hp ((roundCount_eq_zero_iff s).not.2 h0)
    rcases beginTest_eq ({ s.clearCtx with h := { s.h with cand := s.reg rs1 } } : State) .ptTrial State.giveVerdict with
      ⟨hlt, e⟩ | ⟨h23, e⟩ | ⟨h3, heven, e⟩ | ⟨h5, hodd, x, o, ho, hx, e⟩
    · dsimp only at hlt
      exact ⟨fun _ => givesVerdict_of_exec_eq (hexec.trans e), fun _ => by omega, fun _ => by omega, fun _ => by omega⟩
    · dsimp only at h23
      exact ⟨fun _ => by omega, fun _ => givesVerdict_of_exec_eq (hexec.trans e), fun _ => by omega, fun _ => by omega⟩
    · dsimp only at h3 heven
      exact ⟨fun _ => by omega, fun _ => by omega, fun _ _ => givesVerdict_of_exec_eq (hexec.trans e), fun _ => by omega⟩
    · dsimp only at h5 hodd
      exact ⟨fun _ => by omega, fun _ => by omega, fun _ => by omega, fun _ _ => ⟨x, o, ho, hx, goesOn_of_exec_eq (hexec.trans e)⟩⟩
  case trial =>
    refine trialDraw_of_exec_eq (exec_ptest_trial hp) fun u rest a hr ha h2 hle => ?_
    have hexec := (exec_ptest_trial (rs1 := rs1) hp).trans (trialBlock_used hr ha h2 hle)
    refine ⟨fun hfail => givesVerdict_of_exec_eq (hexec.trans (if_pos hfail)), fun hpass hlast => ?_, fun hpass hmore => ?_⟩
    · exact givesVerdict_of_exec_eq (hexec.trans ((if_neg (by simp [hpass])).trans (if_pos hlast)))
    · exact goesOn_of_exec_eq (hexec.trans ((if_neg (by simp [hpass])).trans (if_neg hmore)))

/-! ### `PRIMEGEN` -/

/-- Settles O27: the checks, the two shared blocks, and the decision. -/
theorem primegenBlocks : Obligations.PrimegenBlocks := by
  intro s rd k
  refine ⟨fun hp => checksParameters_of_exec_eq ?_, fun hp => candidateBlock_of_exec_eq ?_, fun hp => trialBlock_of_exec_eq ?_,
    fun hp => ⟨fun hv => delivers_of_exec_eq_deliver ?_, fun hv => goesOn_of_exec_eq ?_⟩⟩ <;> simp only [exec, execPrimegen, hp]
  · exact if_pos hv
  · exact if_neg (not_not.2 hv)

/-! ### `GENKEY` (45_keygen.md R221) -/

theorem genkeyCheckP_of_rejected {s : State} (h : s.h.v = .composite ∨ Nat.gcd s.e (s.h.cand - 1) ≠ 1) :
    genkeyCheckP s = s.goto .gpCand := by
  unfold genkeyCheckP
  split_ifs with hv hgcd
  · rfl
  · rfl
  · exact absurd h (by simp [hv, hgcd])

theorem genkeyCheckQ_of_rejected {s : State}
    (h : s.h.v = .composite ∨ s.h.cand = s.h.p ∨ Nat.gcd s.e (s.h.cand - 1) ≠ 1) : genkeyCheckQ s = s.goto .gqCand := by
  unfold genkeyCheckQ
  split_ifs with hv hp hgcd
  · rfl
  · rfl
  · rfl
  · exact absurd h (by simp [hv, hp, hgcd])

/-- Settles O29: the checks, the shared blocks for `p` and for `q`, and the two accept tests. -/
theorem genkeySearches : Obligations.GenkeySearches := by
  intro s bits
  refine ⟨fun hp => checksParameters_of_exec_eq ?_, fun hp => candidateBlock_of_exec_eq ?_, fun hp => trialBlock_of_exec_eq ?_,
    fun hp => ⟨fun hv hgcd => goesOn_of_exec_eq ?_, fun h => goesOn_of_exec_eq ?_⟩,
    fun hp => candidateBlock_of_exec_eq ?_, fun hp => trialBlock_of_exec_eq ?_,
    fun hp => ⟨fun hv hne hgcd => goesOn_of_exec_eq ?_, fun h => goesOn_of_exec_eq ?_⟩⟩ <;> simp only [exec, execGenkey, hp]
  · rfl
  · exact (if_neg hv).trans (if_neg (not_not.2 hgcd))
  · exact genkeyCheckP_of_rejected h
  · rfl
  · exact (if_neg hv).trans ((if_neg hne).trans (if_neg (not_not.2 hgcd)))
  · exact genkeyCheckQ_of_rejected h

theorem reg_keysrc (s : State) (k : KeySrc) (i : RegId) : ({ s with keysrc := k } : State).reg i = s.reg i := rfl

/-- The register file after the commit: `x0`, `x2` to `x7` hold the key, the others are kept. -/
theorem reg_commitKey (s : State) (p q : Nat) (i : RegId) : (s.commitKey p q).reg i =
    if i = 7 then inv q p else if i = 6 then privExp s.e p q % (q - 1) else if i = 5 then privExp s.e p q % (p - 1)
    else if i = 4 then q else if i = 3 then p else if i = 2 then privExp s.e p q else if i = 0 then p * q else s.reg i := by
  rw [State.commitKey, reg_keysrc]
  simp only [reg_setReg, @eq_comm _ _ i]

theorem reg_commitKey_of_ge {i : RegId} (hi : 8 ≤ i.val) (s : State) (p q : Nat) : (s.commitKey p q).reg i = s.reg i := by
  have hne (j : RegId) (hj : j.val ≤ 7) : i ≠ j := by
    rintro rfl
    omega
  simp only [reg_commitKey, hne 7 (by decide), hne 6 (by decide), hne 5 (by decide), hne 4 (by decide), hne 3 (by decide),
    hne 2 (by decide), hne 0 (by decide), if_false]

theorem keyBank_commitKey (s : State) (p q : Nat) :
    (s.commitKey p q).reg 0 = p * q ∧ (s.commitKey p q).reg 1 = s.e ∧ (s.commitKey p q).reg 2 = privExp s.e p q ∧
    (s.commitKey p q).reg 3 = p ∧ (s.commitKey p q).reg 4 = q ∧ (s.commitKey p q).reg 5 = privExp s.e p q % (p - 1) ∧
    (s.commitKey p q).reg 6 = privExp s.e p q % (q - 1) ∧ (s.commitKey p q).reg 7 = inv q p := by
  simp only [reg_commitKey]
  exact ⟨rfl, rfl, rfl, rfl, rfl, rfl, rfl, rfl⟩

/-- The commit writes registers and `KEYSRC` alone. -/
theorem commitKey_eq (s : State) (p q : Nat) : s.commitKey p q = { s with x := (s.commitKey p q).x, keysrc := .generated } := rfl

section Derive

variable {s : State} {bits : Nat} (hp : s.phase = .gkDerive)
include hp

theorem exec_genkey_commit (hphi : Nat.gcd s.e (phi s.h.p s.h.q) = 1) (hpq : Nat.gcd s.h.q s.h.p = 1) :
    exec (.genkey bits) s = .next (s.commitKey s.h.p s.h.q).complete := by
  simp only [exec, execGenkey, hp]
  exact (if_neg (not_not.2 hphi)).trans (if_neg (not_not.2 hpq))

theorem exec_genkey_badExponent (hphi : Nat.gcd s.e (phi s.h.p s.h.q) ≠ 1) : exec (.genkey bits) s = s.trap .invariant 1 := by
  simp only [exec, execGenkey, hp]
  exact if_pos hphi

theorem exec_genkey_badPrimes (hphi : Nat.gcd s.e (phi s.h.p s.h.q) = 1) (hpq : Nat.gcd s.h.q s.h.p ≠ 1) :
    exec (.genkey bits) s = s.trap .invariant 2 := by
  simp only [exec, execGenkey, hp]
  exact (if_neg (not_not.2 hphi)).trans (if_pos hpq)

end Derive

/-- Settles O30: the register file of the commit, with the inverses of 45_keygen.md R221 steps 4 and 7; the two fatal faults before it. -/
theorem genkeyCommits : Obligations.GenkeyCommits := by
  intro s bits hp h2p h2q
  refine ⟨fun hphi hpq => ?commit, fun hphi => failsFatally_of_exec_eq (exec_genkey_badExponent hp hphi),
    fun hphi hpq => failsFatally_of_exec_eq (exec_genkey_badPrimes hp hphi hpq)⟩
  have hpos : 0 < phi s.h.p s.h.q := Nat.mul_pos (by omega) (by omega)
  obtain ⟨e0, e1, e2, e3, e4, e5, e6, e7⟩ := keyBank_commitKey s s.h.p s.h.q
  have hhigh (i : RegId) (hi : 8 ≤ i.val) := reg_commitKey_of_ge hi s s.h.p s.h.q
  have hexec := exec_genkey_commit (bits := bits) hp hphi hpq
  rw [commitKey_eq] at *
  refine completes_of_exec_eq hexec (kept_refl s) ?_
  simp only [reg_complete, e0, e1, e2, e3, e4, e5, e6, e7, true_and]
  exact ⟨inv_lt hpos _, mul_inv_mod hpos hphi, inv_lt (by omega) _, mul_inv_mod (by omega) hpq, rfl, hhigh, rfl, rfl, rfl,
    ⟨fun _ => rfl, rfl⟩, rfl, rfl, rfl⟩

end Sys2Proof.Proofs.Generators
end

section
/-! SUPPORT. The codec (46_codec.md R240 to R246): the bytes of a big-endian value, and the two round trips. -/

namespace Sys2Proof.Proofs.CodecCommands

open Sys2Proof.Machine Sys2Proof.Claims Sys2Proof.Proofs.Ends

/-! ### A message as a number, cut after its first bytes -/

theorem encodeBytes_range_div (f : Nat → Byte) (n : Nat) : ∀ k,
    encodeBytes ((List.range (n + k)).map f) / 256 ^ k = encodeBytes ((List.range n).map f)
  | 0 => by simp
  | k + 1 => by
    have hlow : (f (n + k)).toNat < 256 := (f (n + k)).isLt
    rw [← add_assoc, encodeBytes_range_succ, pow_succ', ← Nat.div_div_eq_div_mul, ← encodeBytes_range_div f n k]
    congr 1
    omega

/-- Byte `i` of the number that a message encodes is byte `i` of the message. -/
theorem encodeBytes_range_byte (f : Nat → Byte) {n i : Nat} (h : i < n) :
    encodeBytes ((List.range n).map f) / 256 ^ (n - 1 - i) % 256 = (f i).toNat := by
  have hlow : (f i).toNat < 256 := (f i).isLt
  have hdiv := encodeBytes_range_div f (i + 1) (n - 1 - i)
  rw [show i + 1 + (n - 1 - i) = n by omega, encodeBytes_range_succ] at hdiv
  omega

theorem encodeBytes_range_eq_zero {f : Nat → Byte} : ∀ {z}, (∀ i, i < z → f i = 0) → encodeBytes ((List.range z).map f) = 0
  | 0, _ => rfl
  | z + 1, h => by
    rw [encodeBytes_range_succ, encodeBytes_range_eq_zero fun i hi => h i (by omega), h z (by omega)]
    rfl

/-- `z` leading zero bytes are not encoded: the number needs exactly the others. -/
theorem byteLen_encodeBytes_range {f : Nat → Byte} {n z : Nat} (hz : z ≤ n) (hzero : ∀ i, i < z → f i = 0)
    (hne : z < n → f z ≠ 0) : byteLen (encodeBytes ((List.range n).map f)) = n - z := by
  set v := encodeBytes ((List.range n).map f)
  have hcut (k : Nat) (hk : k ≤ n) : v / 256 ^ (n - k) = encodeBytes ((List.range k).map f) := by
    have h := encodeBytes_range_div f k (n - k)
    rwa [show k + (n - k) = n by omega] at h
  have hle : byteLen v ≤ n - z := by
    have h := hcut z hz
    rw [encodeBytes_range_eq_zero hzero, Nat.div_eq_zero_iff_lt (by positivity)] at h
    exact byteLen_le_iff.2 h
  have hge : z < n → ¬ byteLen v ≤ n - (z + 1) := by
    intro hlt hsmall
    have h := hcut (z + 1) hlt
    rw [encodeBytes_range_succ, encodeBytes_range_eq_zero hzero, Nat.div_eq_of_lt (byteLen_le_iff.1 hsmall)] at h
    exact hne hlt (BitVec.eq_of_toNat_eq (by simpa using h.symm))
  omega

/-! ### The length and the bytes that `DECODE` writes (46_codec.md R241, R244) -/

theorem byteLen_le_bufBytes {c : Config} {v : Nat} (hv : v < 2 ^ c.w) : byteLen v ≤ c.bufBytes := by
  have hw : 8 * c.bufBytes = c.w := by
    rw [Config.bufBytes, Config.w]
    ring
  rw [byteLen_le_iff, show 256 = 2 ^ 8 from rfl, ← pow_mul, hw]
  exact hv

/-- `LEN` holds the length: the buffer is small enough for its 16 bits. -/
theorem toNat_byteLen {c : Config} (hc : c.Admissible) {v : Nat} (hv : v < 2 ^ c.w) :
    (BitVec.ofNat 16 (byteLen v)).toNat = byteLen v := by
  have hle := byteLen_le_bufBytes hv
  have hmax : c.bufBytes ≤ 1024 := by
    have := hc.2
    rw [Config.bufBytes]
    omega
  exact Nat.mod_eq_of_lt (by omega)

theorem pow_le_of_byteLen {v : Nat} (h : byteLen v ≠ 0) : 256 ^ (byteLen v - 1) ≤ v := by
  have hn : ¬ byteLen v ≤ byteLen v - 1 := by omega
  exact Nat.not_lt.1 (byteLen_le_iff.not.1 hn)

theorem toNat_decodedAt {v i : Nat} (h : i < byteLen v) : (decodedAt v i).toNat = v / 256 ^ (byteLen v - 1 - i) % 256 := by
  rw [decodedAt, if_pos h, decodedByte]
  exact Nat.mod_mod _ _

/-- The state before `complete` of a `DECODE` of `v`. -/
def decoded (s : State) (v : Nat) : State :=
  { s with buf := s.buf.fill (decodedAt v) s.cfg.bufBytes, len := BitVec.ofNat 16 (byteLen v) }

theorem exec_decode (s : State) (rs1 : RegId) : exec (.decode rs1) s = .next (decoded s (s.reg rs1)).complete := rfl

section Decoded

variable {s : State} {v : Nat} (hv : v < 2 ^ s.cfg.w)
include hv

theorem lenBytes_decoded (hc : s.cfg.Admissible) : (decoded s v).len.toNat = byteLen v := toNat_byteLen hc hv

variable (hm : Memory.wf s.buf = true) {a : Nat}
include hm

theorem read_decoded (ha : a < byteLen v) : (decoded s v).buf.read a = decodedAt v a := by
  rw [decoded, read_fill hm, if_pos (ha.trans_le (byteLen_le_bufBytes hv))]

end Decoded

/-- Settles O35: the length is the least that fits, and the fill writes each byte of the buffer once. -/
theorem decodeCommand : Obligations.DecodeCommand := by
  intro s rs1 hc hm hv
  refine completes_of_exec_eq (exec_decode s rs1) (kept_refl s) ?_
  simp only [complete_len, complete_buf, lenBytes_decoded hv hc]
  refine ⟨lt_256_pow_byteLen _, pow_le_of_byteLen, byteLen_le_bufBytes hv, fun a ha => ?bytes, fun a hlo hhi => ?zeros,
    fun a ha => ?above, rfl, rfl, ⟨fun _ => rfl, rfl⟩, rfl, rfl, rfl⟩
  case bytes => rw [read_decoded hv hm ha, toNat_decodedAt ha]
  case zeros => rw [decoded, read_fill hm, if_pos hhi, decodedAt, if_neg (Nat.not_lt.2 hlo)]
  case above => rw [decoded, read_fill hm, if_neg (Nat.not_lt.2 ha)]

/-! ### `ENCODE` (46_codec.md R242) -/

/-- The state before `complete` of an `ENCODE`. -/
def encoded (s : State) (rd : RegId) : State := { s.setReg rd (encodeBytes s.message) with lz := s.leadingZero }

theorem exec_encode {s : State} (h : s.len.toNat ≤ s.cfg.bufBytes) (rd : RegId) :
    exec (.encode rd) s = .next (encoded s rd).complete := if_neg (Nat.not_lt.2 h)

theorem reg_encoded (s : State) (rd : RegId) : (encoded s rd).reg rd = encodeBytes s.message := reg_setReg_same ..

theorem leadingZero_iff (s : State) : s.leadingZero = true ↔ 0 < s.len.toNat ∧ s.buf.read 0 = 0 := by
  rw [State.leadingZero, Bool.and_eq_true, decide_eq_true_iff, beq_iff_eq]
  rfl

/-- Settles O34: the message's big-endian sum is delivered, or `LEN` is too large. -/
theorem encodeCommand : Obligations.EncodeCommand := by
  intro s rd
  refine ⟨fun h => completes_of_exec_eq (exec_encode h rd) (kept_refl s) ?_, fun h => faults_of_exec_eq (if_pos h)⟩
  rw [← encodeBytes_range_eq_sum]
  exact ⟨wrote_setReg s rd _, leadingZero_iff s, rfl, rfl, rfl, rfl, fun _ => rfl, rfl⟩

/-! ### The round trips (46_codec.md R245, R246) -/

/-- `DECODE` leaves a message that encodes the value and begins with no zero byte. -/
theorem encode_of_decoded {s : State} {v : Nat} (hc : s.cfg.Admissible) (hm : Memory.wf s.buf = true) (hv : v < 2 ^ s.cfg.w) :
    encodeBytes (decoded s v).complete.message = v ∧ (decoded s v).complete.leadingZero = false := by
  have hlen : (decoded s v).complete.len.toNat = byteLen v := lenBytes_decoded hv hc
  constructor
  · have hmessage : (decoded s v).complete.message = (List.range (byteLen v)).map (decodedByte v (byteLen v)) := by
      rw [State.message, State.lenBytes, hlen]
      refine List.map_congr_left fun a ha => ?_
      have ha : a < byteLen v := List.mem_range.1 ha
      exact (read_decoded hv hm ha).trans (if_pos ha)
    rw [hmessage, encodeBytes_decoded v _ le_rfl, Nat.sub_self, pow_zero, Nat.div_one]
  · by_contra hlz
    obtain ⟨hpos, hread⟩ := (leadingZero_iff _).1 (Bool.eq_true_of_not_eq_false hlz)
    rw [hlen] at hpos
    have hbyte := toNat_decodedAt hpos
    rw [← read_decoded hv hm hpos, show (decoded s v).buf.read 0 = 0 from hread, Nat.sub_zero] at hbyte
    have hfirst : 1 ≤ v / 256 ^ (byteLen v - 1) := (Nat.one_le_div_iff (by positivity)).2 (pow_le_of_byteLen (by omega))
    have hbound : v / 256 ^ (byteLen v - 1) < 256 := by
      refine Nat.div_lt_of_lt_mul ?_
      rw [← pow_succ, show byteLen v - 1 + 1 = byteLen v by omega]
      exact lt_256_pow_byteLen v
    rw [Nat.mod_eq_of_lt hbound] at hbyte
    simp at hbyte
    omega

/-- Settles O36: the message of a `DECODE` encodes its value; the number of a message has the message's bytes after its leading zeros. -/
theorem codecRoundTrips : Obligations.CodecRoundTrips := by
  intro s rd rs1 hc hm
  refine ⟨fun hv => ?decodeEncode, fun hle z hz hzero hne => ?encodeDecode⟩
  case decodeEncode =>
    obtain ⟨hvalue, hlz⟩ := encode_of_decoded hc hm hv
    have hlen : (decoded s (s.reg rs1)).complete.len.toNat ≤ s.cfg.bufBytes := by
      rw [complete_len, lenBytes_decoded hv hc]
      exact byteLen_le_bufBytes hv
    exact ⟨_, _, exec_decode s rs1, exec_encode hlen rd, (reg_encoded ..).trans hvalue, hlz, rfl⟩
  case encodeDecode =>
    set v := encodeBytes s.message with hvdef
    have hbytes : byteLen v = s.len.toNat - z := byteLen_encodeBytes_range hz hzero hne
    have hv : v < 2 ^ s.cfg.w := by
      have h := byteLen_le_iff.1 (hbytes.le.trans ((Nat.sub_le _ _).trans hle))
      rwa [show 256 = 2 ^ 8 from rfl, ← pow_mul, show 8 * s.cfg.bufBytes = s.cfg.w by rw [Config.bufBytes, Config.w]; ring] at h
    have hreg : (encoded s rd).complete.reg rd = v := reg_encoded ..
    have hdecode := exec_decode (encoded s rd).complete rd
    rw [hreg] at hdecode
    have hlen : (decoded (encoded s rd).complete v).len.toNat = byteLen v := lenBytes_decoded (s := (encoded s rd).complete) hv hc
    refine ⟨_, _, exec_encode hle rd, hdecode, hlen.trans hbytes, fun i hi => ?byte, (leadingZero_iff s).trans ?lz⟩
    case byte =>
      have hi' : i < byteLen v := by omega
      refine (read_decoded (s := (encoded s rd).complete) hv hm hi').trans (BitVec.eq_of_toNat_eq ?_)
      rw [toNat_decodedAt hi', hbytes, ← encodeBytes_range_byte s.buf.read (show z + i < s.len.toNat by omega)]
      congr 3
      omega
    case lz =>
      refine ⟨fun ⟨hpos, h0⟩ => ?_, fun hpos => ⟨by omega, hzero 0 hpos⟩⟩
      by_contra hz0
      obtain rfl : z = 0 := by omega
      exact hne hpos h0

end Sys2Proof.Proofs.CodecCommands
end

section
/-! SUPPORT. The cipher (47_cipher_crt.md): its commands (R257, R262, R266), and under a key of distinct odd primes the equivalence of the
two exponentiations (R268) and the round trip (R270). -/

namespace Sys2Proof.Proofs.Cipher

open Sys2Proof.Machine Sys2Proof.Claims Sys2Proof.Proofs.CipherCrt Sys2Proof.Proofs.Ends

/-! ### The commands -/

/-- Settles O37: the difference reduced into `[0, p)` is the model's floor-mod. -/
theorem crtCommand : Obligations.CrtCommand := by
  intro s rd rs1 rs2
  exact ⟨fun hp hn => ⟨floorMod ((s.reg rs1 : Int) - s.reg rs2) (s.reg 3), floorMod_cast _ (Nat.pos_of_ne_zero hp),
      delivers_of_exec_eq_deliver (exec_crt_of_ne_zero hp hn rd rs1 rs2)⟩,
    fun hp => faults_of_exec_eq (if_pos hp), fun hp hn => faults_of_exec_eq ((if_neg hp).trans (if_pos hn))⟩

theorem tooLarge_iff (s : State) (rs1 : RegId) : s.tooLarge rs1 = true ↔ s.rangeChk = true ∧ s.reg 0 ≤ s.reg rs1 := by
  rw [State.tooLarge, Bool.and_eq_true, decide_eq_true_iff]
  rfl

theorem not_tooLarge {s : State} {rs1 : RegId} (h : s.rangeChk = true → s.reg rs1 < s.reg 0) : ¬ s.tooLarge rs1 = true := by
  rw [tooLarge_iff, not_and, Nat.not_le]
  exact h

theorem exec_encrypt {s : State} {rs1 : RegId} (hodd : s.reg 0 % 2 = 1) (h : s.rangeChk = true → s.reg rs1 < s.reg 0) (rd : RegId) :
    exec (.encrypt rd rs1) s = s.clearCtx.deliver rd (s.reg rs1 ^ s.reg 1 % s.reg 0) := by
  have hn : ¬ s.n % 2 = 0 := fun he => absurd (hodd.symm.trans he) (by decide)
  rw [← modExp_eq]
  exact (if_neg hn).trans (if_neg (not_tooLarge h))

/-- Settles O39: the two checks in their order, then the engine. -/
theorem encryptCommand : Obligations.EncryptCommand := by
  intro s rd rs1
  refine ⟨fun hodd h => engineDelivers_of_exec_eq (exec_encrypt hodd h rd), fun heven => faults_of_exec_eq (if_pos heven),
    fun hodd hchk hge => faults_of_exec_eq ?_⟩
  have hn : ¬ s.n % 2 = 0 := fun he => absurd (hodd.symm.trans he) (by decide)
  exact (if_neg hn).trans (if_pos ((tooLarge_iff s rs1).2 ⟨hchk, hge⟩))

section Decrypt

variable {s : State} (hp : s.reg 3 % 2 = 1) (hq : s.reg 4 % 2 = 1)
include hp hq

/-- Past the two parity checks. -/
theorem exec_decrypt_of_odd (rd rs1 : RegId) : exec (.decrypt rd rs1) s =
    if s.reg 0 = 0 then s.trap .divZero (regInfo RegId.n)
    else if s.tooLarge rs1 then s.trap .msgTooLarge 0
    else s.clearCtx.deliver rd (s.plaintext (s.reg rs1)) := by
  have hp' : ¬ s.p % 2 = 0 := fun he => absurd (hp.symm.trans he) (by decide)
  have hq' : ¬ s.q % 2 = 0 := fun he => absurd (hq.symm.trans he) (by decide)
  exact (if_neg hp').trans (if_neg hq')

theorem exec_decrypt {rs1 : RegId} (hn : s.reg 0 ≠ 0) (h : s.rangeChk = true → s.reg rs1 < s.reg 0) (rd : RegId) :
    exec (.decrypt rd rs1) s = s.clearCtx.deliver rd (s.plaintext (s.reg rs1)) :=
  (exec_decrypt_of_odd hp hq rd rs1).trans ((if_neg hn).trans (if_neg (not_tooLarge h)))

end Decrypt

/-- Settles O40: the four checks in their order, then the recombination of the two powers. -/
theorem decryptCommand : Obligations.DecryptCommand := by
  intro s rd rs1
  refine ⟨fun hp hq hn h => ?value, fun hp => faults_of_exec_eq (if_pos hp), fun hp hq => faults_of_exec_eq ?evenQ,
    fun hp hq hn => faults_of_exec_eq ((exec_decrypt_of_odd hp hq rd rs1).trans (if_pos hn)),
    fun hp hq hn hchk hge => faults_of_exec_eq ?tooLarge⟩
  case value =>
    refine ⟨_, _, _, rfl, rfl, floorMod_cast _ (by omega), ?_⟩
    rw [← modExp_eq, ← modExp_eq]
    exact engineDelivers_of_exec_eq (exec_decrypt hp hq hn h rd)
  case evenQ =>
    have hp' : ¬ s.p % 2 = 0 := fun he => absurd (hp.symm.trans he) (by decide)
    exact (if_neg hp').trans (if_pos hq)
  case tooLarge =>
    exact (exec_decrypt_of_odd hp hq rd rs1).trans ((if_neg hn).trans (if_pos ((tooLarge_iff s rs1).2 ⟨hchk, hge⟩)))

/-! ### Exponents modulo a prime (47_cipher_crt.md R268, R270) -/

/-- Fermat: positive exponents that agree modulo `p - 1` give the same power modulo `p`, of multiples of `p` too. -/
theorem pow_modEq_of_exponent_modEq {p : Nat} (hp : p.Prime) (c : Nat) {d e : Nat} (hd : 0 < d) (he : 0 < e)
    (h : d ≡ e [MOD p - 1]) : c ^ d ≡ c ^ e [MOD p] := by
  have : Fact p.Prime := ⟨hp⟩
  rw [← ZMod.natCast_eq_natCast_iff, Nat.cast_pow, Nat.cast_pow]
  by_cases hc : (c : ZMod p) = 0
  · rw [hc, zero_pow hd.ne', zero_pow he.ne']
  · have hreduce (k : Nat) : (c : ZMod p) ^ k = (c : ZMod p) ^ (k % (p - 1)) := by
      conv_lhs => rw [← Nat.div_add_mod k (p - 1), pow_add, pow_mul, ZMod.pow_card_sub_one_eq_one hc, one_pow, one_mul]
    rw [hreduce d, hreduce e, h]

/-- The exponents of a key at one of its primes: `d * e` is 1 and the CRT exponent is `d`, modulo `p - 1`. -/
theorem exponent_at_prime {d e p m : Nat} (hp : p.Prime) (hodd : p % 2 = 1) (hdvd : p - 1 ∣ m) (h : d * e % m = 1) :
    d * e ≡ 1 [MOD p - 1] ∧ 0 < d % (p - 1) := by
  have hde : d * e ≡ 1 [MOD p - 1] := by
    have hm : d * e ≡ 1 [MOD m] := by simpa only [h] using (Nat.mod_modEq (d * e) m).symm
    exact hm.of_dvd hdvd
  refine ⟨hde, Nat.pos_of_ne_zero fun h0 => ?_⟩
  have h1 : d * e % (p - 1) = 0 := by rw [Nat.mul_mod, h0, zero_mul, Nat.zero_mod]
  have h2 := hp.two_le
  rw [hde, Nat.mod_eq_of_lt (by omega)] at h1
  omega

/-- The recombination reads `x0` and `x3` to `x7` alone. -/
theorem plaintext_congr {s t : State} (h : ∀ i ∈ ([0, 3, 4, 5, 6, 7] : List RegId), t.reg i = s.reg i) (c : Nat) :
    t.plaintext c = s.plaintext c := by
  unfold State.plaintext State.n State.p State.q State.dp State.dq State.qinv
  rw [h RegId.n (by decide), h RegId.p (by decide), h RegId.q (by decide), h RegId.dp (by decide), h RegId.dq (by decide),
    h RegId.qinv (by decide)]

section Key

variable {s : State} (hk : PrimeKey s)
include hk

theorem odd_modulus : s.reg 0 % 2 = 1 := by
  rw [hk.modulus, Nat.mul_mod, hk.odd.1, hk.odd.2]

theorem exponents_pos : 0 < s.reg 2 ∧ 0 < s.reg 2 * s.reg 1 := by
  have h : 0 < s.reg 2 * s.reg 1 := by
    by_contra h0
    have h1 := hk.exponent
    rw [show s.reg 2 * s.reg 1 = 0 by omega, Nat.zero_mod] at h1
    omega
  exact ⟨Nat.pos_of_mul_pos_right h, h⟩

/-- 47_cipher_crt.md R268: the two half-size powers recombine to the direct one. -/
theorem plaintext_eq (c : Nat) : s.plaintext c = c ^ s.reg 2 % s.reg 0 := by
  obtain ⟨hp, hq⟩ := hk.primes
  obtain ⟨hdp, hdq, hqinv⟩ := hk.crt
  obtain ⟨hd, -⟩ := exponents_pos hk
  obtain ⟨-, hppos⟩ := exponent_at_prime hp hk.odd.1 (Nat.dvd_mul_right _ _) hk.exponent
  obtain ⟨-, hqpos⟩ := exponent_at_prime hq hk.odd.2 (Nat.dvd_mul_left _ _) hk.exponent
  have hn : 0 < s.reg 3 * s.reg 4 := Nat.mul_pos hp.pos hq.pos
  have hres (r : Nat) (hr : r ∣ s.reg 3 * s.reg 4) : c ^ s.reg 2 % (s.reg 3 * s.reg 4) ≡ c ^ s.reg 2 [MOD r] :=
    (Nat.mod_modEq _ _).of_dvd hr
  have hP : modExp c (s.reg 5) (s.reg 3) ≡ c ^ s.reg 2 % (s.reg 3 * s.reg 4) [MOD s.reg 3] := by
    rw [modExp_eq, hdp]
    exact ((Nat.mod_modEq _ _).trans (pow_modEq_of_exponent_modEq hp c hppos hd (Nat.mod_modEq _ _))).trans
      (hres _ (Nat.dvd_mul_right _ _)).symm
  have hQ : modExp c (s.reg 6) (s.reg 4) = c ^ s.reg 2 % (s.reg 3 * s.reg 4) % s.reg 4 := by
    rw [modExp_eq, hdq]
    exact (pow_modEq_of_exponent_modEq hq c hqpos hd (Nat.mod_modEq _ _)).trans (hres _ (Nat.dvd_mul_left _ _)).symm
  have hinv : s.reg 7 * s.reg 4 ≡ 1 [MOD s.reg 3] := by
    simpa only [hqinv] using (Nat.mod_modEq (s.reg 7 * s.reg 4) (s.reg 3)).symm
  show crtValue (modExp c (s.reg 5) (s.reg 3)) (modExp c (s.reg 6) (s.reg 4)) (s.reg 3) (s.reg 4) (s.reg 7) (s.reg 0) = _
  rw [hk.modulus, hQ, crtValue_eq_of_residues (Nat.mod_lt _ hn) hinv hP]

/-- 47_cipher_crt.md R270: the exponents undo each other on every number below `n`. -/
theorem pow_pow_mod {m : Nat} (hm : m < s.reg 0) : (m ^ s.reg 1 % s.reg 0) ^ s.reg 2 % s.reg 0 = m := by
  obtain ⟨hp, hq⟩ := hk.primes
  obtain ⟨-, hde⟩ := exponents_pos hk
  have hatP := (exponent_at_prime hp hk.odd.1 (Nat.dvd_mul_right _ _) hk.exponent).1
  have hatQ := (exponent_at_prime hq hk.odd.2 (Nat.dvd_mul_left _ _) hk.exponent).1
  have hcoprime : Nat.Coprime (s.reg 3) (s.reg 4) := (Nat.coprime_primes hp hq).2 hk.distinct
  have hpow : m ^ (s.reg 2 * s.reg 1) ≡ m ^ 1 [MOD s.reg 3 * s.reg 4] :=
    (Nat.modEq_and_modEq_iff_modEq_mul hcoprime).1 ⟨pow_modEq_of_exponent_modEq hp m hde one_pos hatP,
      pow_modEq_of_exponent_modEq hq m hde one_pos hatQ⟩
  rw [← Nat.pow_mod, ← pow_mul, mul_comm (s.reg 1)]
  rw [← hk.modulus, pow_one] at hpow
  exact Nat.mod_eq_of_modEq hpow hm

end Key

/-- Settles O41: both commands end with the direct power. -/
theorem crtEqualsDirect : Obligations.CrtEqualsDirect := by
  intro s rd rs1 hk hc
  have hdecrypt := exec_decrypt hk.odd.1 hk.odd.2 (by omega) (fun _ => hc) rd
  rw [plaintext_eq hk] at hdecrypt
  exact ⟨_, engineDelivers_of_exec_eq hdecrypt, (modexpCommand s rd rs1 2 0).1 (odd_modulus hk), rfl⟩

/-- Settles O42: the ciphertext's register is not one that the recombination reads, so `DECRYPT` works with the same key. -/
theorem cipherRoundTrip : Obligations.CipherRoundTrip := by
  intro s rc rm rd hk hm
  have hn : 0 < s.reg 0 := by omega
  refine ⟨_, exec_encrypt (odd_modulus hk) (fun _ => hm) rc, rfl, by simp, fun hle => ?keysrc, fun hrc => ?decrypts⟩
  case keysrc => simp [Keysrc.keysrcAfterWrite_eq, hle]
  case decrypts =>
    set t := (s.clearCtx.setReg rc (s.reg rm ^ s.reg 1 % s.reg 0)).complete
    have hkept (i : RegId) (hi : i ∈ ([0, 3, 4, 5, 6, 7] : List RegId)) : t.reg i = s.reg i := by
      have hne : rc ≠ i := fun e => hrc (e ▸ hi)
      simp [t, hne]
    have hc : t.reg rc = s.reg rm ^ s.reg 1 % s.reg 0 := by simp [t]
    have hdecrypt : exec (.decrypt rd rc) t = t.clearCtx.deliver rd (t.plaintext (t.reg rc)) := by
      refine exec_decrypt ?_ ?_ ?_ (fun _ => ?_) rd
      · rw [hkept 3 (by decide)]; exact hk.odd.1
      · rw [hkept 4 (by decide)]; exact hk.odd.2
      · rw [hkept 0 (by decide)]; exact hn.ne'
      · rw [hkept 0 (by decide), hc]; exact Nat.mod_lt _ hn
    refine ⟨_, hdecrypt, rfl, ?_⟩
    rw [reg_complete, reg_setReg_same, plaintext_congr hkept, hc, plaintext_eq hk, pow_pow_mod hk hm]

end Sys2Proof.Proofs.Cipher
end

section
/-! SUPPORT. The host's side by the state of the sequencer (10_state.md R45 to R49, 20_memory.md R71 to R76): everything an access can do,
said once, and which targets each address names; then reset. -/

namespace Sys2Proof.Proofs.HostStates

open Sys2Proof.Machine Sys2Proof.Claims Sys2Proof.Proofs.HostWindows Sys2Proof.Proofs.Issue Sys2Proof.Proofs.Faults

/-! ### Everything a host access can do (20_memory.md R72, R75) -/

/-- What an access leaves: only a new answer and perhaps `HOSTERR`, or an accepted write. -/
inductive HostEffect (s : State) : State → Prop
  | answers (r : BusReply) (herr : Bool) : HostEffect s { s with reply := r, hosterr := herr }
  | writes (a : Nat) (v : Word) (ha : a % 4 = 0) (hw : (hostTarget s.cfg a).writable = true)
      (hc : (hostTarget s.cfg a).accepted s.st = true) :
      HostEffect s { s.writeTarget v (hostTarget s.cfg a) with reply := .done }

theorem hostAccess_effect (s : State) (a : HostAccess) : HostEffect s (s.hostAccess a) := by
  cases hl : a.legal with
  | false =>
    rw [hostAccess_error s hl]
    exact .answers _ s.hosterr
  | true =>
    obtain ⟨addr, bytes, op⟩ := a
    obtain ⟨rfl, ha, -⟩ : bytes = 4 ∧ addr % 4 = 0 ∧ addr ≤ 0xFFFC := by simpa [HostAccess.legal] using hl
    cases op with
    | read =>
      cases hr : (hostTarget s.cfg addr).readable s.st with
      | true => rw [hostAccess_read s hl hr]; exact .answers _ s.hosterr
      | false => rw [hostAccess_read_refused s hl hr]; exact .answers ..
    | write v =>
      cases hw : (hostTarget s.cfg addr).writable with
      | false => rw [hostAccess_write_ignored s hl hw]; exact .answers _ s.hosterr
      | true =>
        cases hc : (hostTarget s.cfg addr).accepted s.st with
        | true => rw [hostAccess_write s hl hw hc]; exact .writes addr v ha hw hc
        | false => rw [hostAccess_write_refused s hl hw hc]; exact .answers ..

/-- `BUSY` and `FATAL` accept a write to the interrupt registers alone (10_state.md R46, R48). -/
theorem accepted_of_busy_or_fatal {st : SeqState} (hst : st = .busy ∨ st = .fatal) {tgt : Target} (h : tgt.accepted st = true) :
    tgt = .csr .ier ∨ tgt = .csr .isr := by
  rcases hst with rfl | rfl <;> simpa [Target.accepted] using h

/-- Settles O45: the sequencer has no step, and the host writes the interrupt registers alone. -/
theorem fatalUntilReset : Obligations.FatalUntilReset := by
  intro s t hst hreset h
  rcases step_cases h with ⟨a, -, rfl⟩ | ⟨hr, -⟩ | ⟨-, hseq⟩
  · have heffect := hostAccess_effect s.takeTurn a
    generalize s.takeTurn.hostAccess a = t at heffect
    cases heffect with
    | answers => rfl
    | writes a v ha hw hc =>
      rcases accepted_of_busy_or_fatal (.inr hst) hc with e | e <;> rw [e] <;> rfl
  · exact absurd hr hreset
  · rcases sequencerStep_cases hseq with ⟨-, rfl⟩ | ⟨hb, -⟩ | ⟨hb, -⟩
    · rfl
    · simp [hst] at hb
    · simp [hst] at hb

/-! ### Writes by state (10_state.md R45 to R48) -/

/-- The addresses that `BUSY` and `FATAL` refuse to write name writable targets that those states do not accept. -/
theorem target_of_refused {c : Config} {a : Nat} (hc : c.Admissible)
    (h : a ∈ [0x0008, 0x000C, 0x0010, 0x001C, 0x0028] ∨ IsWritableWindow c a) :
    (hostTarget c a).writable = true ∧ hostTarget c a ≠ .csr .ier ∧ hostTarget c a ≠ .csr .isr := by
  rcases h with h | ⟨i, j, hj, rfl⟩ | ⟨j, hj, rfl⟩
  · simp only [List.mem_cons, List.not_mem_nil, or_false] at h
    rcases h with rfl | rfl | rfl | rfl | rfl
    · simp [hostTarget_csr c (0x0008, .ctrl) (by decide), Target.writable]
    · simp [hostTarget_csr c (0x000C, .rounds) (by decide), Target.writable]
    · simp [hostTarget_csr c (0x0010, .cmd) (by decide), Target.writable]
    · simp [hostTarget_csr c (0x001C, .errclr) (by decide), Target.writable]
    · simp [hostTarget_csr c (0x0028, .len) (by decide), Target.writable]
  · simp [xAddr, hostTarget_xWord i hj (hj.trans_le hc.2), Target.writable]
  · simp [hostTarget_bufWord hj (hj.trans_le hc.2), Target.writable]

/-- Every other address names a target that takes no write. -/
theorem not_writable {c : Config} {a : Nat} (ha : a % 4 = 0)
    (hcsr : a ∉ [0x0008, 0x000C, 0x0010, 0x001C, 0x0020, 0x0024, 0x0028]) (hwin : ¬ IsWritableWindow c a) :
    (hostTarget c a).writable = false := by
  rcases hostTarget_cases c ha with
    ⟨r, hr, e⟩ | ⟨i, j, hj, -, ea, -⟩ | ⟨_, _, _, _, e⟩ | ⟨_, _, _, _, e⟩ | ⟨j, hj, -, ea, -⟩ | e
  · have hro : ∀ p ∈ csrMap, p.1 ∉ [0x0008, 0x000C, 0x0010, 0x001C, 0x0020, 0x0024, 0x0028] →
        (Target.csr p.2).writable = false := by decide
    rw [e]
    exact hro (a, r) hr hcsr
  · exact absurd (.inl ⟨i, j, hj, ea⟩) hwin
  · rw [e]; rfl
  · rw [e]; rfl
  · exact absurd (.inr ⟨j, hj, ea⟩) hwin
  · rw [e]; rfl

/-- Settles O48: each address's target, and whether the state accepts it. -/
theorem hostWritesByState : Obligations.HostWritesByState := by
  intro s a v hc h
  have hstored (hst : s.st = .idle ∨ s.st = .error) {r : Csr} (hr : (a, r) ∈ csrMap) (hw : (Target.csr r).writable = true)
      (hcmd : r ≠ .cmd) : step s = .next { s.takeTurn.writeTarget v (.csr r) with reply := .done } := by
    refine step_write h (hostTarget_csr s.cfg (a, r) hr) hw (accepted_of_ne_cmd ?_ ?_ (by simpa using hcmd))
    · rcases hst with e | e <;> simp [e]
    · rcases hst with e | e <;> simp [e]
  refine ⟨fun hst hin => ?busy, fun hst ha => ?cmd, fun hcsr hwin => step_write_ignored h rfl (not_writable h.2.1 hcsr hwin),
    fun hst ha => ?ctrl, fun hst ha => ?rounds, fun hst ha => ?len⟩
  case busy =>
    obtain ⟨hw, hier, hisr⟩ := target_of_refused hc hin
    refine step_write_refused h rfl hw (Bool.eq_false_iff.2 fun hacc => ?_)
    rcases accepted_of_busy_or_fatal hst hacc with e | e
    · exact hier e
    · exact hisr e
  case cmd =>
    subst ha
    have hrefused := Bool.eq_false_iff.2 ((accepted_cmd_iff s.st).not.2 (by simp [hst]))
    exact step_write_refused h (hostTarget_csr s.cfg (0x0010, .cmd) (by decide)) rfl hrefused
  case ctrl => subst ha; exact hstored hst (r := .ctrl) (by decide) rfl (by decide)
  case rounds => subst ha; exact hstored hst (r := .rounds) (by decide) rfl (by decide)
  case len => subst ha; exact hstored hst (r := .len) (by decide) rfl (by decide)

/-! ### Reads by state (10_state.md R45 to R49) -/

theorem step_read_of_readable {s : State} {a : Nat} (h : HostReads s a) (hr : (hostTarget s.cfg a).readable s.st = true) :
    step s = .next (answered s (.data (s.targetWord (hostTarget s.cfg a))) s.hosterr) := by
  obtain ⟨hturn, ha, hle⟩ := h
  rw [step_host hturn, hostAccess_read s.takeTurn (legal_of ha hle _) hr]
  rfl

theorem step_read_refused {s : State} {a : Nat} (h : HostReads s a) (hr : (hostTarget s.cfg a).readable s.st = false) :
    step s = .next (answered s (.data 0) true) := by
  obtain ⟨hturn, ha, hle⟩ := h
  rw [step_host hturn, hostAccess_read_refused s.takeTurn (legal_of ha hle _) hr]
  rfl

/-- What `BUSY` hides (10_state.md R46). -/
theorem not_readable_busy {c : Config} {a : Nat} (hc : c.Admissible)
    (h : a ∈ [0x0008, 0x000C, 0x001C, 0x0028, 0x0030, 0x0034] ∨ IsWindow c a) : (hostTarget c a).readable .busy = false := by
  rcases h with h | ⟨i, j, hj, rfl⟩ | ⟨j, hj, rfl | rfl | rfl⟩
  · have hhidden : ∀ a ∈ [0x0008, 0x000C, 0x001C, 0x0028, 0x0030, 0x0034],
        ∃ p ∈ csrMap, p.1 = a ∧ p.2.readableWhileBusy = false := by decide
    obtain ⟨⟨a, r⟩, hr, rfl, hrb⟩ := hhidden a h
    rw [hostTarget_csr c (a, r) hr]
    exact hrb
  · rw [xAddr, hostTarget_xWord i hj (hj.trans_le hc.2)]; rfl
  · rw [hostTarget_mnWord hj (hj.trans_le hc.2)]; rfl
  · rw [hostTarget_mrrWord hj (hj.trans_le hc.2)]; rfl
  · rw [hostTarget_bufWord hj (hj.trans_le hc.2)]; rfl

/-- The eight registers of R46. -/
theorem readable_busy (c : Config) {a : Nat} (h : a ∈ [0x0000, 0x0004, 0x0010, 0x0014, 0x0018, 0x0020, 0x0024, 0x002C]) :
    (hostTarget c a).readable .busy = true := by
  have hshown : ∀ a ∈ [0x0000, 0x0004, 0x0010, 0x0014, 0x0018, 0x0020, 0x0024, 0x002C],
      ∃ p ∈ csrMap, p.1 = a ∧ p.2.readableWhileBusy = true := by decide
  obtain ⟨⟨a, r⟩, hr, rfl, hrb⟩ := hshown a h
  rw [hostTarget_csr c (a, r) hr]
  exact hrb

/-- Above the registers and outside the windows an address is reserved (10_state.md R49). -/
theorem reserved_of_not_window {c : Config} {a : Nat} (ha : a % 4 = 0) (hge : 0x0038 ≤ a) (hwin : ¬ IsWindow c a) :
    hostTarget c a = .reserved := by
  rcases hostTarget_cases c ha with
    ⟨r, hr, -⟩ | ⟨i, j, hj, -, ea, -⟩ | ⟨j, hj, -, ea, -⟩ | ⟨j, hj, -, ea, -⟩ | ⟨j, hj, -, ea, -⟩ | e
  · have hlow : ∀ p ∈ csrMap, p.1 < 0x0038 := by decide
    exact absurd hge (Nat.not_le.2 (hlow (a, r) hr))
  · exact absurd (.inl ⟨i, j, hj, ea⟩) hwin
  · exact absurd (.inr ⟨j, hj, .inl ea⟩) hwin
  · exact absurd (.inr ⟨j, hj, .inr (.inl ea)⟩) hwin
  · exact absurd (.inr ⟨j, hj, .inr (.inr ea)⟩) hwin
  · exact e

/-- A read that the state answers, as `R46` says for `BUSY`. -/
theorem readable_of {s : State} {a : Nat}
    (h : s.st ≠ .busy ∨ a ∈ [0x0000, 0x0004, 0x0010, 0x0014, 0x0018, 0x0020, 0x0024, 0x002C]) :
    (hostTarget s.cfg a).readable s.st = true := by
  by_cases hb : s.st = .busy
  · rw [hb]
    exact readable_busy s.cfg (h.resolve_left (not_not.2 hb))
  · exact readable_of_ne_busy hb _

/-- Settles O49: each address's target, and whether the state answers it. -/
theorem hostReadsByState : Obligations.HostReadsByState := by
  refine ⟨fun s a hturn hwrong => ?wrong, fun s a hc h => ⟨fun hb hin => ?hidden, fun hb => ?elsewhere, fun hb hin => ?eight,
    fun hge hwin => ?reserved⟩⟩
  case wrong =>
    have hl : a.legal = false := by
      rw [HostAccess.legal, decide_eq_false_iff_not]
      omega
    rw [step_host hturn, hostAccess_error s.takeTurn hl]
    rfl
  case hidden =>
    refine step_read_refused h ?_
    rw [hb]
    exact not_readable_busy hc hin
  case elsewhere => exact ⟨_, step_read_of_readable h (readable_of (.inl hb))⟩
  case eight => exact ⟨_, step_read_of_readable h (readable_of (.inr hin))⟩
  case reserved =>
    have ht := reserved_of_not_window h.2.1 hge hwin
    have hr : (hostTarget s.cfg a).readable s.st = true := by
      rw [ht]
      cases s.st <;> rfl
    have hstep := step_read_of_readable h hr
    rwa [ht] at hstep

/-! ### The words of the control registers (10_state.md R31 to R42) -/

theorem toNat_cfgWord {c : Config} (hc : c.Admissible) : c.cfgWord.toNat = 0x00100000 + c.wwords := by
  have hmax := hc.2
  rw [Config.cfgWord, Config.nreg, BitVec.toNat_ofNat]
  omega

theorem toNat_statusWord (s : State) : s.statusWord.toNat = s.st.code.toNat + 4 * s.verdict.code.toNat + 16 * s.cmp.code.toNat +
    64 * s.lz.toNat + 128 * s.ctx.valid.toNat + 256 * s.keysrc.code.toNat + 1024 * s.hosterr.toNat := by
  simp only [State.statusWord, toNat_append_eq_add, BitVec.toNat_ofBool]
  simp
  ring

/-- Settles O50: the codes by evaluation, the words by their fields side by side. -/
theorem controlRegisterWords : Obligations.ControlRegisterWords := by
  refine ⟨by decide, by decide, by decide, by decide, by decide, by decide, fun s a hc h hr => ?_⟩
  refine ⟨_, step_read_of_readable h (readable_of hr), ?_⟩
  have hword {r : Csr} (hr : (a, r) ∈ csrMap) : s.targetWord (hostTarget s.cfg a) = s.csrWord r := by
    rw [hostTarget_csr s.cfg (a, r) hr]
    rfl
  have hwide {n : Nat} (b : BitVec n) (hn : n ≤ 32) : (b.setWidth 32).toNat = b.toNat := by
    rw [BitVec.toNat_setWidth]
    exact Nat.mod_eq_of_lt (b.isLt.trans_le (Nat.pow_le_pow_right (by decide) hn))
  refine ⟨?_, ?_, ?_, ?_, ?_, ?_, ?_, ?_, ?_, ?_, ?_, ?_, ?_, ?_⟩ <;> intro ha <;> subst ha
  · exact hword (r := .id) (by decide)
  · rw [hword (r := .cfg) (by decide)]; exact toNat_cfgWord hc
  · rw [hword (r := .ctrl) (by decide), State.csrWord, State.ctrlWord, toNat_append_eq_add, BitVec.toNat_ofBool]; simp
  · rw [hword (r := .rounds) (by decide)]; exact hwide _ (by decide)
  · exact hword (r := .cmd) (by decide)
  · rw [hword (r := .status) (by decide)]; exact toNat_statusWord s
  · rw [hword (r := .err) (by decide)]
    refine ⟨fun he => by rw [State.csrWord, State.errWord, he], fun r he => ?_⟩
    rw [State.csrWord, toNat_errWord he]
    omega
  · exact hword (r := .errclr) (by decide)
  · rw [hword (r := .ier) (by decide)]; exact hwide _ (by decide)
  · rw [hword (r := .isr) (by decide)]; exact hwide _ (by decide)
  · rw [hword (r := .len) (by decide)]; exact hwide _ (by decide)
  · rw [hword (r := .phase) (by decide), State.csrWord, State.phaseWord, toNat_append_eq_add]; simp
  · rw [hword (r := .mlen) (by decide)]; exact hwide _ (by decide)
  · exact hword (r := .mn0inv) (by decide)

/-! ### What a host sees while `BUSY` (10_state.md R46, 20_memory.md R80) -/

/-- `s` with the operands of `f`. -/
abbrev withOperands (f s : State) : State :=
  { s with x := f.x, buf := f.buf, len := f.len, rangeChk := f.rangeChk, rounds := f.rounds, h := f.h,
           ctx := { f.ctx with valid := s.ctx.valid } }

/-- The word of a target that `BUSY` shows is no operand. -/
theorem targetWord_withOperands (f s : State) : ∀ {tgt : Target}, tgt.readable .busy = true →
    (withOperands f s).targetWord tgt = s.targetWord tgt
  | .csr .id, _ | .csr .cfg, _ | .csr .cmd, _ | .csr .status, _ | .csr .err, _ | .csr .ier, _ | .csr .isr, _ | .csr .phase, _
  | .reserved, _ => rfl
  | .csr .ctrl, h | .csr .rounds, h | .csr .errclr, h | .csr .len, h | .csr .mlen, h | .csr .mn0inv, h
  | .xWord _ _, h | .mnWord _, h | .mrrWord _, h | .bufWord _, h => nomatch h

/-- While `BUSY` the same access is answered alike, and leaves operands that nothing else has come to depend on. -/
theorem hostAccess_withOperands {s : State} (hb : s.st = .busy) (f : State) (a : HostAccess) :
    ((withOperands f s).hostAccess a).reply = (s.hostAccess a).reply ∧
      SameButOperands (s.hostAccess a) ((withOperands f s).hostAccess a) := by
  cases hl : a.legal with
  | false =>
    rw [hostAccess_error _ hl, hostAccess_error _ hl]
    exact ⟨rfl, rfl⟩
  | true =>
    obtain ⟨addr, bytes, op⟩ := a
    obtain ⟨rfl, -, -⟩ : bytes = 4 ∧ addr % 4 = 0 ∧ addr ≤ 0xFFFC := by simpa [HostAccess.legal] using hl
    cases op with
    | read =>
      cases hr : (hostTarget s.cfg addr).readable s.st with
      | true =>
        rw [hostAccess_read s hl hr, hostAccess_read (withOperands f s) hl hr,
          targetWord_withOperands f s (by rwa [hb] at hr)]
        exact ⟨rfl, rfl⟩
      | false =>
        rw [hostAccess_read_refused s hl hr, hostAccess_read_refused (withOperands f s) hl hr]
        exact ⟨rfl, rfl⟩
    | write v =>
      cases hw : (hostTarget s.cfg addr).writable with
      | false =>
        rw [hostAccess_write_ignored s hl hw, hostAccess_write_ignored (withOperands f s) hl hw]
        exact ⟨rfl, rfl⟩
      | true =>
        cases hc : (hostTarget s.cfg addr).accepted s.st with
        | true =>
          rw [hostAccess_write s hl hw hc, hostAccess_write (withOperands f s) hl hw hc]
          rcases accepted_of_busy_or_fatal (.inl hb) hc with e | e <;> rw [e] <;> exact ⟨rfl, rfl⟩
        | false =>
          rw [hostAccess_write_refused s hl hw hc, hostAccess_write_refused (withOperands f s) hl hw hc]
          exact ⟨rfl, rfl⟩

/-- Settles O56: the other state is the first with its own operands. -/
theorem busyHidesOperands : Obligations.BusyHidesOperands := by
  rintro s s' t hsame hb ⟨a, hturn⟩ h
  obtain rfl : t = s.takeTurn.hostAccess a := by simpa [step_host hturn] using h.symm
  have hs' : s' = withOperands s' s := hsame
  have hturn' : s'.turn = .host a := by
    rw [hs']
    exact hturn
  have htake : s'.takeTurn = withOperands s' s.takeTurn := congrArg State.takeTurn hs'
  refine ⟨_, step_host hturn', ?_⟩
  rw [htake]
  exact hostAccess_withOperands (s := s.takeTurn) hb s' a

/-! ### Reset (70_reset_and_hazards.md R320, 10_state.md R52) -/

/-- Settles O54: `State.resetBlock` is the reset state with the inputs to come. -/
theorem resetState : Obligations.ResetState := by
  refine ⟨fun s h => step_reset h, fun c => ?_⟩
  -- the words do not depend on the parameter, so they are those of the reference one
  have hctrl : (State.resetFor c).ctrlWord = 1 := show (State.resetFor .reference).ctrlWord = 1 by decide
  have hstatus : (State.resetFor c).statusWord = 0 := show (State.resetFor .reference).statusWord = 0 by decide
  have hirq : (State.resetFor c).irq = false := show (State.resetFor .reference).irq = false by decide
  have hphase : (State.resetFor c).phaseWord = 0 := show (State.resetFor .reference).phaseWord = 0 by decide
  exact ⟨fun i => by simp [State.reg, State.resetFor], fun _ => rfl, rfl, hctrl, rfl, rfl, hstatus, rfl, rfl, rfl, rfl, hirq, hphase,
    rfl, rfl⟩

/-- The reset state has the invariant, whatever inputs are to come. -/
theorem inv_resetFor {c : Config} (hc : c.Admissible) (turns : List Turn) (rng : List RngAnswer) :
    State.Inv { State.resetFor c with turns := turns, rng := rng } where
  cfg_ok := hc
  regs_fit i := by
    have hzero : ({ State.resetFor c with turns := turns, rng := rng } : State).reg i = 0 := by simp [State.reg, State.resetFor]
    rw [hzero]
    exact bound_pos _
  buf_wf := rfl
  buf_in _ h := nomatch h
  ctx_ok := empty_ok _
  err_ok := rfl
  temps_fit := fit_zero (bound_pos _)
  phase_ok := ⟨SeqState.noConfusion, rfl⟩

/-- Settles O57, the reference parameter being admissible (log 1). -/
theorem invariantAtReset : Obligations.InvariantAtReset :=
  fun _ turns rng hc => ⟨inv_resetFor hc turns rng, inv_resetFor (c := Config.reference) (by decide) [] []⟩

/-! ### The sequencer's turn (40_system_move.md R121) -/

theorem runBlock_command {s : State} {i : Instr} (hp : s.phase ≠ .none) (hd : decode s.ir = .command i) : s.runBlock = exec i s := by
  unfold State.runBlock
  split
  · contradiction
  · simp_all
  · simp_all
  · next j hj _ => rw [Decoded.command.inj (hd.symm.trans hj)]

theorem sequencerStep_busy {s : State} (hb : s.st = .busy) : s.sequencerStep = s.runBlock := by
  rw [State.sequencerStep, hb]

/-- Settles O6: the turn is taken, and the step is the block's. -/
theorem stepRunsDecodedCommand : Obligations.StepRunsDecodedCommand := by
  intro s i hturn hb hp hd
  rw [step_sequencer hturn, sequencerStep_busy (s := s.takeTurn) hb, runBlock_command (s := s.takeTurn) hp hd]
  rfl

end Sys2Proof.Proofs.HostStates
end

section
/-! SUPPORT. Everything a command's step can do, said once for all 25 commands (40_system_move.md R122 to R124): it waits for the port, it
ends by a fault, it goes on at a label, or it completes with its one effect. The frame, the draws, the interrupts and the invariant are read
off this inversion. -/

namespace Sys2Proof.Proofs.StepEffects

open Sys2Proof.Machine Sys2Proof.Claims Sys2Proof.Proofs.CodecCommands Sys2Proof.Proofs.Cipher Sys2Proof.Proofs.RoundTrip
open Sys2Proof.Proofs.Faults Sys2Proof.Proofs.HostStates

/-- The commands of several blocks. -/
def multiStep : Instr → Bool
  | .ptest _ | .primegen _ _ | .genkey _ => true
  | _ => false

/-- The step asks the port for a draw: as `drawOf` says, and `CAND` at every label, because a command of one step ignores `PHASE` (log 7).
-/
def draws (i : Instr) (s : State) : Bool :=
  match i with
  | .cand _ k => decide (1 ≤ k ∧ k ≤ s.cfg.w)
  | i => (drawOf i s).isSome

/-- The answers to come after the step: one fewer when it draws. -/
def Took (i : Instr) (s : State) (rng : List RngAnswer) : Prop :=
  (draws i s = false ∧ rng = s.rng) ∨ (draws i s = true ∧ ∃ u, s.rng = .value u :: rng)

/-- What the step of the command `i` in the state `s` can answer. -/
inductive Effect (i : Instr) (s : State) : Result → Prop
  /-- `PHASE` is no label of the command (log 7). -/
  | stray (hm : multiStep i = true) (hexec : s.phase ≠ .exec) (hb : ¬ blockOk i s) : Effect i s (.fault .strayPhase)
  /-- The port has not answered (log 3). -/
  | waits (hd : draws i s = true) (hr : s.rng = []) : Effect i s (.next s)
  | entropyFails {rest : List RngAnswer} (hd : draws i s = true) (hr : s.rng = .fail :: rest) :
      Effect i s (.next (({ s with rng := rest } : State).raise .entropy 0))
  /-- A recoverable fault comes in the first step. -/
  | faults {c : Cause} {info : BitVec 8} (hc : c.isFatal = false) (hp : multiStep i = true → s.phase = .exec) (hd : draws i s = false) :
      Effect i s (.next (s.raise c info))
  | keyFails {bits : Nat} {info : BitVec 8} (hi : i = .genkey bits) (hp : s.phase = .gkDerive)
      (hinfo : info = 1 → Nat.gcd s.e (phi s.h.p s.h.q) ≠ 1) : Effect i s (.next (s.raise .invariant info))
  | goesOn {rng : List RngAnswer} {l : Phase} {h : Temps} {ctx : MontCtx} (hm : multiStep i = true) (hr : Took i s rng)
      (hc : ctx = s.ctx ∨ ctx = MontCtx.empty) : Effect i s (.next { s with rng := rng, phase := l, h := h, ctx := ctx })
  | delivers {rng : List RngAnswer} {ctx : MontCtx} {rd : RegId} {v : Nat} (hdest : dest i = some rd) (hr : Took i s rng)
      (hc : ctx = s.ctx ∨ ctx = MontCtx.empty ∧ usesEngine i = true) (hv : s.Inv → i.wellFormed = true → v < s.bound) :
      Effect i s (.next (({ s with rng := rng, ctx := ctx } : State).setReg rd v).complete)
  | nop (hi : i = .nop) : Effect i s (.next s.complete)
  | compares {a b : RegId} {f : CmpFlag} (hi : i = .cmp a b) : Effect i s (.next ({ s with cmp := f } : State).complete)
  | loadsContext {r : RegId} (hi : i = .msetup r) (hodd : s.reg r % 2 = 1) :
      Effect i s (.next ({ s with ctx := MontCtx.of (s.reg r) } : State).complete)
  | givesVerdict {r : RegId} {v : Verdict} {rng : List RngAnswer} {h : Temps} {ctx : MontCtx} (hi : i = .ptest r) (hr : Took i s rng)
      (hc : ctx = s.ctx ∨ ctx = MontCtx.empty) :
      Effect i s (.next ({ s with rng := rng, h := h, ctx := ctx, verdict := v } : State).complete)
  | encodes {rd : RegId} (hi : i = .encode rd) (hlen : s.len.toNat ≤ s.cfg.bufBytes) : Effect i s (.next (encoded s rd).complete)
  | decodes {r : RegId} (hi : i = .decode r) : Effect i s (.next (decoded s (s.reg r)).complete)
  | commits {bits : Nat} (hi : i = .genkey bits) (hp : s.phase = .gkDerive) (hphi : Nat.gcd s.e (phi s.h.p s.h.q) = 1)
      (hpq : Nat.gcd s.h.q s.h.p = 1) : Effect i s (.next (s.commitKey s.h.p s.h.q).complete)

section Rules

variable {i : Instr} {s : State}

theorem Effect.ite {c : Prop} [Decidable c] {a b : Result} (ha : c → Effect i s a) (hb : ¬ c → Effect i s b) :
    Effect i s (if c then a else b) := by
  split
  · exact ha ‹_›
  · exact hb ‹_›

/-! ### Draws -/

theorem took_none (hd : draws i s = false) : Took i s s.rng := .inl ⟨hd, rfl⟩

theorem effect_withDraw {k : Nat} {use : Nat → State → Result} (hd : draws i s = true)
    (h : ∀ u rest, u < 2 ^ k → Took i s rest → Effect i s (use u { s with rng := rest })) : Effect i s (s.withDraw k use) := by
  rcases hr : s.rng with _ | ⟨_ | _, rest⟩
  · rw [withDraw_nil hr]
    exact .waits hd hr
  · rw [withDraw_value hr]
    exact h _ _ (Nat.mod_lt _ (by positivity)) (.inr ⟨hd, _, hr⟩)
  · rw [withDraw_fail hr]
    exact .entropyFails hd hr

/-! ### Commands of one step -/

/-- A command of one step delivers a value without a draw. -/
theorem effect_deliver {rd : RegId} {v : Nat} (hdest : dest i = some rd) (hd : draws i s = false)
    (hv : s.Inv → i.wellFormed = true → v < s.bound) : Effect i s (s.deliver rd v) :=
  .delivers (rng := s.rng) (ctx := s.ctx) hdest (took_none hd) (.inl rfl) hv

/-- An engine command of one step delivers a value and clears the context (10_state.md R43). -/
theorem effect_engine {rd : RegId} {v : Nat} (hdest : dest i = some rd) (huses : usesEngine i = true) (hd : draws i s = false)
    (hv : s.Inv → i.wellFormed = true → v < s.bound) : Effect i s (s.clearCtx.deliver rd v) :=
  .delivers (rng := s.rng) hdest (took_none hd) (.inr ⟨rfl, huses⟩) hv

theorem effect_trap {c : Cause} {info : BitVec 8} (hd : draws i s = false) (hp : multiStep i = true → s.phase = .exec)
    (hc : c.isFatal = false := by decide) : Effect i s (s.trap c info) := .faults hc hp hd

/-! ### The shared blocks of the generators (44_primegen.md R204, R207) -/

section Blocks

variable (hm : multiStep i = true)
include hm

theorem effect_goto {l : Phase} (hd : draws i s = false) : Effect i s (s.goto l) :=
  .goesOn (h := s.h) (ctx := s.ctx) hm (took_none hd) (.inl rfl)

theorem effect_beginTest {rng : List RngAnswer} {h : Temps} {ctx : MontCtx} {trials : Phase} {decided : Verdict → State → Result}
    (hr : Took i s rng) (hc : ctx = s.ctx ∨ ctx = MontCtx.empty)
    (hdecided : ∀ v, Effect i s (decided v { s with rng := rng, h := h, ctx := ctx })) :
    Effect i s (State.beginTest { s with rng := rng, h := h, ctx := ctx } trials decided) := by
  rcases beginTest_eq ({ s with rng := rng, h := h, ctx := ctx } : State) trials decided with
    ⟨-, e⟩ | ⟨-, e⟩ | ⟨-, -, e⟩ | ⟨-, -, _, _, -, -, e⟩ <;> rw [e]
  · exact hdecided _
  · exact hdecided _
  · exact hdecided _
  · exact .goesOn hm hr hc

theorem effect_candBlock {k : Nat} {trials check : Phase} (hd : draws i s = true) : Effect i s (s.candBlock k trials check) :=
  effect_withDraw hd fun u _ _ hr =>
    effect_beginTest (h := { s.h with cand := candidate k u }) hm hr (.inl rfl) fun _ => .goesOn hm hr (.inl rfl)

theorem effect_trialBlock {again : Phase} {decided : Verdict → State → Result} (hd : draws i s = true)
    (hdecided : ∀ v rest h, Took i s rest → Effect i s (decided v { s with rng := rest, h := h })) :
    Effect i s (s.trialBlock again decided) :=
  effect_withDraw hd fun _ _ _ hr =>
    .ite (fun _ => .goesOn (h := s.h) hm hr (.inl rfl)) fun _ =>
      .ite (fun _ => hdecided _ _ s.h hr) fun _ =>
        .ite (fun _ => hdecided _ _ _ hr) fun _ => .goesOn hm hr (.inl rfl)

theorem effect_trialThenCheck {again check : Phase} (hd : draws i s = true) : Effect i s (s.trialThenCheck again check) :=
  effect_trialBlock hm hd fun _ _ _ hr => .goesOn hm hr (.inl rfl)

theorem effect_checkGenerator {ok : Bool} {first : Phase} (hp : s.phase = .exec) (hd : draws i s = false) :
    Effect i s (s.checkGenerator ok first) :=
  .ite (fun _ => effect_trap hd fun _ => hp) fun _ =>
    .ite (fun _ => effect_trap hd fun _ => hp) fun _ => .goesOn (h := s.h) hm (took_none hd) (.inr rfl)

end Blocks

end Rules

/-! ### The multi-step commands -/

/-! The labels past `EXEC` (44_primegen.md R208, 45_keygen.md R229). -/

theorem phase_of_blockOk_ptest {s : State} {rs1 : RegId} (h : blockOk (.ptest rs1) s) : s.phase = .ptTrial := by
  cases hp : s.phase <;> simp [blockOk, hp] at h ⊢

theorem phase_of_blockOk_primegen {s : State} {rd : RegId} {k : Nat} (h : blockOk (.primegen rd k) s) :
    s.phase = .pgCand ∨ s.phase = .pgTrial ∨ s.phase = .pgDecide := by
  cases hp : s.phase <;> simp [blockOk, hp] at h ⊢

theorem phase_of_blockOk_genkey {s : State} {bits : Nat} (h : blockOk (.genkey bits) s) :
    s.phase = .gpCand ∨ s.phase = .gpTrial ∨ s.phase = .gpCheck ∨ s.phase = .gqCand ∨ s.phase = .gqTrial ∨ s.phase = .gqCheck ∨
      s.phase = .gkDerive := by
  cases hp : s.phase <;> simp [blockOk, hp] at h ⊢

theorem multiStep_of_blockOk {i : Instr} {s : State} (h : blockOk i s) : multiStep i = true := by
  cases i with
  | ptest | primegen | genkey => rfl
  | _ => exact absurd h (by simp [blockOk])

theorem effect_ptest (s : State) (rs1 : RegId) : Effect (.ptest rs1) s (execPtest rs1 s) := by
  unfold execPtest
  split
  · next hp =>
    have hd : draws (.ptest rs1) s = false := by simp [draws, drawOf, hp]
    exact .ite (fun _ => effect_trap hd fun _ => hp) fun _ =>
      effect_beginTest (h := { s.h with cand := s.reg rs1 }) rfl (took_none hd) (.inr rfl) fun _ =>
        .givesVerdict rfl (took_none hd) (.inr rfl)
  · next hp =>
    have hd : draws (.ptest rs1) s = true := by simp [draws, drawOf, hp]
    exact effect_trialBlock rfl hd fun _ _ _ hr => .givesVerdict rfl hr (.inl rfl)
  · next h1 h2 =>
    exact .stray rfl h1 fun hb => h2 (phase_of_blockOk_ptest hb)

theorem effect_primegen (s : State) (rd : RegId) (k : Nat) : Effect (.primegen rd k) s (execPrimegen rd k s) := by
  unfold execPrimegen
  split
  · next hp => exact effect_checkGenerator rfl hp (by simp [draws, drawOf, hp])
  · next hp => exact effect_candBlock rfl (by simp [draws, drawOf, hp])
  · next hp => exact effect_trialThenCheck rfl (by simp [draws, drawOf, hp])
  · next hp =>
    have hd : draws (.primegen rd k) s = false := by simp [draws, drawOf, hp]
    exact .ite (fun _ => effect_deliver rfl hd fun hinv _ => hinv.temps_fit.1) fun _ => effect_goto rfl hd
  · next h1 h2 h3 h4 =>
    refine .stray rfl h1 fun hb => ?_
    rcases phase_of_blockOk_primegen hb with e | e | e
    exacts [h2 e, h3 e, h4 e]

theorem effect_genkey (s : State) (bits : Nat) : Effect (.genkey bits) s (execGenkey bits s) := by
  unfold execGenkey
  split
  · next hp => exact effect_checkGenerator rfl hp (by simp [draws, drawOf, hp])
  · next hp => exact effect_candBlock rfl (by simp [draws, drawOf, hp])
  · next hp => exact effect_trialThenCheck rfl (by simp [draws, drawOf, hp])
  · next hp =>
    have hd : draws (.genkey bits) s = false := by simp [draws, drawOf, hp]
    exact .ite (fun _ => effect_goto rfl hd) fun _ => .ite (fun _ => effect_goto rfl hd) fun _ =>
      .goesOn (ctx := s.ctx) rfl (took_none hd) (.inl rfl)
  · next hp => exact effect_candBlock rfl (by simp [draws, drawOf, hp])
  · next hp => exact effect_trialThenCheck rfl (by simp [draws, drawOf, hp])
  · next hp =>
    have hd : draws (.genkey bits) s = false := by simp [draws, drawOf, hp]
    exact .ite (fun _ => effect_goto rfl hd) fun _ => .ite (fun _ => effect_goto rfl hd) fun _ =>
      .ite (fun _ => effect_goto rfl hd) fun _ => .goesOn (ctx := s.ctx) rfl (took_none hd) (.inl rfl)
  · next hp =>
    exact .ite (fun h => .keyFails rfl hp fun _ => h) fun hphi => .ite (fun _ => .keyFails rfl hp fun h => absurd h (by decide)) fun hpq =>
      .commits rfl hp (not_not.1 hphi) (not_not.1 hpq)
  · next h1 h2 h3 h4 h5 h6 h7 h8 =>
    refine .stray rfl h1 fun hb => ?_
    rcases phase_of_blockOk_genkey hb with e | e | e | e | e | e | e
    exacts [h2 e, h3 e, h4 e, h5 e, h6 e, h7 e, h8 e]

/-! ### The values that the commands of one step deliver fit a register -/

section Fits

variable {s : State} (h : s.Inv)
include h

theorem gcd_lt_bound (a b : RegId) : Nat.gcd (s.reg a) (s.reg b) < s.bound := by
  rcases Nat.eq_zero_or_pos (s.reg a) with ha | ha
  · rw [ha, Nat.gcd_zero_left]
    exact h.regs_fit b
  · exact (Nat.gcd_le_left _ ha).trans_lt (h.regs_fit a)

theorem bitlen_lt_bound (a : RegId) : bitlen (s.reg a) < s.bound :=
  (bitlen_le_iff.2 (h.regs_fit a)).trans_lt Nat.lt_two_pow_self

theorem imm_lt_bound {v : Nat} (hv : immFits v = true) : v < s.bound := by
  have hw : 16 ≤ s.cfg.w := by
    have := h.cfg_ok.1
    rw [Config.w]
    omega
  exact (by simpa [immFits] using hv : v < 2 ^ 16).trans_le (two_pow_le_bound hw)

/-- The modulus of a valid context fits a register. -/
theorem mn_lt_bound (hvalid : ¬ s.ctx.valid = false) : s.ctx.mn < s.bound :=
  (Montgomery.ok_of_valid h.ctx_ok (by simpa using hvalid)).2.1

theorem mod_lt_bound {v N : Nat} {a : RegId} (hN : N = s.reg a) (h0 : N ≠ 0) : v % N < s.bound :=
  (Nat.mod_lt _ (Nat.pos_of_ne_zero h0)).trans (hN ▸ h.regs_fit a)

omit h in
theorem encodeBytes_lt_bound (hlen : s.len.toNat ≤ s.cfg.bufBytes) : encodeBytes s.message < s.bound := by
  have hw : 8 * s.len.toNat ≤ s.cfg.w := by
    rw [Config.bufBytes] at hlen
    rw [Config.w]
    omega
  have hlt : encodeBytes s.message < 256 ^ s.len.toNat := encodeBytes_range_lt s.buf.read _
  rw [show 256 = 2 ^ 8 from rfl, ← pow_mul] at hlt
  exact hlt.trans_le (two_pow_le_bound hw)

end Fits

/-! ### Every command -/

/-- The step of a command has one of the effects. -/
theorem exec_effect (s : State) : ∀ i : Instr, Effect i s (exec i s)
  | .nop => .nop rfl
  | .mov _ rs1 => effect_deliver rfl rfl fun h _ => h.regs_fit rs1
  | .ldi _ _ => effect_deliver rfl rfl fun h hv => imm_lt_bound h hv
  | .cmp _ _ => .compares rfl
  | .add _ _ _ => .ite (fun _ => effect_trap rfl nofun) fun hlt => effect_deliver rfl rfl fun _ _ => Nat.not_le.1 hlt
  | .sub _ rs1 _ => .ite (fun _ => effect_trap rfl nofun) fun _ =>
      effect_deliver rfl rfl fun h _ => (Nat.sub_le _ _).trans_lt (h.regs_fit rs1)
  | .mul _ _ _ => .ite (fun _ => effect_trap rfl nofun) fun hlt => effect_deliver rfl rfl fun _ _ => Nat.not_le.1 hlt
  | .mod _ _ _ => .ite (fun _ => effect_trap rfl nofun) fun h0 => effect_deliver rfl rfl fun h _ => mod_lt_bound h rfl h0
  | .gcd _ rs1 rs2 => effect_deliver rfl rfl fun h _ => gcd_lt_bound h rs1 rs2
  | .modinv _ _ rs2 => .ite (fun _ => effect_trap rfl nofun) fun h0 => .ite (fun _ => effect_trap rfl nofun) fun _ =>
      effect_deliver rfl rfl fun h _ => (inv_lt (Nat.pos_of_ne_zero h0) _).trans (h.regs_fit rs2)
  | .bitlen _ rs1 => effect_deliver rfl rfl fun h _ => bitlen_lt_bound h rs1
  | .msetup _ => .ite (fun _ => effect_trap rfl nofun) fun h => .loadsContext rfl (Nat.mod_two_ne_zero.1 h)
  | .mmul _ _ _ => .ite (fun _ => effect_trap rfl nofun) fun hv => .ite (fun _ => effect_trap rfl nofun) fun h1 =>
      .ite (fun _ => effect_trap rfl nofun) fun _ =>
        effect_deliver rfl rfl fun h _ => (Nat.mod_lt _ (by omega)).trans (mn_lt_bound h hv)
  | .mto _ _ => .ite (fun _ => effect_trap rfl nofun) fun hv => .ite (fun _ => effect_trap rfl nofun) fun h1 =>
      effect_deliver rfl rfl fun h _ => (Nat.mod_lt _ (by omega)).trans (mn_lt_bound h hv)
  | .mfrom _ _ => .ite (fun _ => effect_trap rfl nofun) fun hv => .ite (fun _ => effect_trap rfl nofun) fun h1 =>
      effect_deliver rfl rfl fun h _ => (Nat.mod_lt _ (by omega)).trans (mn_lt_bound h hv)
  | .modexp _ _ _ rs3 => .ite (fun _ => effect_trap rfl nofun) fun hN =>
      effect_engine rfl rfl rfl fun h _ => (modExp_lt _ _ (by omega)).trans (h.regs_fit rs3)
  | .cand rd k => .ite (fun hk => effect_trap (decide_eq_false (by omega)) nofun) fun hk =>
      effect_withDraw (decide_eq_true (by omega)) fun _ _ hu hr =>
        .delivers rfl hr (.inl rfl) fun _ _ => (candidate_lt (by omega) hu).trans_le (two_pow_le_bound (by omega))
  | .ptest rs1 => effect_ptest s rs1
  | .primegen rd k => effect_primegen s rd k
  | .genkey bits => effect_genkey s bits
  | .encode _ => .ite (fun _ => effect_trap rfl nofun) fun h => .encodes rfl (Nat.not_lt.1 h)
  | .decode _ => .decodes rfl
  | .crt _ _ _ => .ite (fun _ => effect_trap rfl nofun) fun _ => .ite (fun _ => effect_trap rfl nofun) fun hn =>
      effect_deliver rfl rfl fun h _ => mod_lt_bound h rfl hn
  | .encrypt _ _ => .ite (fun _ => effect_trap rfl nofun) fun hn => .ite (fun _ => effect_trap rfl nofun) fun _ =>
      effect_engine rfl rfl rfl fun h _ => (modExp_lt _ _ (by omega)).trans (h.regs_fit 0)
  | .decrypt _ _ => .ite (fun _ => effect_trap rfl nofun) fun _ => .ite (fun _ => effect_trap rfl nofun) fun _ =>
      .ite (fun _ => effect_trap rfl nofun) fun hn => .ite (fun _ => effect_trap rfl nofun) fun _ =>
        effect_engine rfl rfl rfl fun h _ => mod_lt_bound h rfl hn

end Sys2Proof.Proofs.StepEffects
end

section
/-! SUPPORT. What a sequencer step may write, draw and signal (40_system_move.md R121 to R124, 10_state.md R39, R51, 60_exceptions.md R284,
R291), read off the inversion of a command's step. -/

namespace Sys2Proof.Proofs.StepFrame

open Sys2Proof.Machine Sys2Proof.Claims Sys2Proof.Proofs.StepEffects Sys2Proof.Proofs.HostStates Sys2Proof.Proofs.Faults
open Sys2Proof.Proofs.Generators

/-! ### The sequencer's step on a command -/

/-- A sequencer step of a `BUSY` block faults on an illegal word or has an effect of its command. -/
theorem busy_step_cases {s t : State} (hturn : s.turn = .sequencer) (hb : s.st = .busy) (h : step s = .next t) :
    (s.phase = .exec ∧ ∃ why, decode s.ir = .illegal why ∧ t = s.takeTurn.raise .illegalCmd why.info) ∨
    ∃ i, decode s.ir = .command i ∧ exec i s.takeTurn = .next t ∧ Effect i s.takeTurn (.next t) := by
  rw [step_sequencer hturn] at h
  rcases sequencerStep_cases h with ⟨hn, -⟩ | ⟨-, hp, why, hw, e⟩ | ⟨-, -, i, hi, e⟩
  · exact absurd hb hn
  · exact .inl ⟨hp, why, hw, e⟩
  · exact .inr ⟨i, hi, e, e ▸ exec_effect s.takeTurn i⟩

theorem step_effect {s t : State} {i : Instr} (h : step s = .next t) (hr : Runs s i) :
    exec i s.takeTurn = .next t ∧ Effect i s.takeTurn (.next t) := by
  obtain ⟨hturn, hb, hd⟩ := hr
  rcases busy_step_cases hturn hb h with ⟨-, why, hw, -⟩ | ⟨j, hj, hexec, heffect⟩
  · simp [hd] at hw
  · obtain rfl : i = j := Decoded.command.inj (hd.symm.trans hj)
    exact ⟨hexec, heffect⟩

/-! ### The frame (40_system_move.md R122, 10_state.md R51) -/

/-- What the step of `i` may write: the words of the statement `CommandWritesOnly`. -/
structure WritesOnly (i : Instr) (s t : State) : Prop where
  control : SameControl s t
  inputs : t.cfg = s.cfg ∧ t.reply = s.reply
  regs : ∀ r, t.reg r ≠ s.reg r → t.st = .idle ∧ (dest i = some r ∨ ((∃ b, i = .genkey b) ∧ r.val ≤ 7 ∧ r ≠ 1))
  buffer : (t.len ≠ s.len ∨ ∃ a, t.buf.read a ≠ s.buf.read a) → ∃ r, i = .decode r
  flags : (t.verdict ≠ s.verdict → ∃ r, i = .ptest r) ∧ (t.cmp ≠ s.cmp → ∃ a b, i = .cmp a b) ∧ (t.lz ≠ s.lz → ∃ r, i = .encode r)
  ctx : t.ctx ≠ s.ctx → (∃ r, i = .msetup r) ∨ (t.ctx = MontCtx.empty ∧ (usesEngine i = true ∨ t.st = .fatal))

theorem usesEngine_of_multiStep {i : Instr} (h : multiStep i = true) : usesEngine i = true := by
  cases i with
  | ptest | primegen | genkey => rfl
  | _ => exact absurd h (by simp [multiStep])

theorem reg_commitKey_ne {s : State} {p q : Nat} {r : RegId} (h : (s.commitKey p q).reg r ≠ s.reg r) : r.val ≤ 7 ∧ r ≠ 1 := by
  refine ⟨?_, ?_⟩
  · by_contra hr
    exact h (reg_commitKey_of_ge (by omega) s p q)
  · rintro rfl
    exact h (reg_commitKey s p q 1)

/-- Only the written register reads differently. -/
theorem eq_of_reg_setReg_ne {s : State} {rd r : RegId} {v : Nat} (h : (s.setReg rd v).reg r ≠ s.reg r) : rd = r := by
  by_contra hne
  exact h (reg_setReg_other s hne v)

theorem writesOnly_of_effect {i : Instr} {s t : State} (h : Effect i s (.next t)) : WritesOnly i s t := by
  have hcontrol : SameControl s s := ⟨rfl, rfl, rfl, rfl, rfl⟩
  have hbuffer : (s.len ≠ s.len ∨ ∃ a, s.buf.read a ≠ s.buf.read a) → ∃ r, i = .decode r := by simp
  have hflags : (s.verdict ≠ s.verdict → ∃ r, i = .ptest r) ∧ (s.cmp ≠ s.cmp → ∃ a b, i = .cmp a b) ∧
      (s.lz ≠ s.lz → ∃ r, i = .encode r) := ⟨fun h => absurd rfl h, fun h => absurd rfl h, fun h => absurd rfl h⟩
  cases h with
  | waits | nop => exact ⟨hcontrol, ⟨rfl, rfl⟩, fun _ h => absurd rfl h, hbuffer, hflags, fun h => absurd rfl h⟩
  | entropyFails | keyFails => exact ⟨hcontrol, ⟨rfl, rfl⟩, fun _ h => absurd rfl h, hbuffer, hflags, fun _ => .inr ⟨rfl, .inr rfl⟩⟩
  | faults hc => exact ⟨hcontrol, ⟨rfl, rfl⟩, fun _ h => absurd rfl h, hbuffer, hflags, fun h => absurd (by simp [hc]) h⟩
  | goesOn hm _ hc =>
    exact ⟨hcontrol, ⟨rfl, rfl⟩, fun _ h => absurd rfl h, hbuffer, hflags,
      fun hne => .inr ⟨hc.resolve_left hne, .inl (usesEngine_of_multiStep hm)⟩⟩
  | delivers hdest _ hc =>
    refine ⟨hcontrol, ⟨rfl, rfl⟩, fun r hr => ⟨rfl, .inl ?_⟩, hbuffer, hflags, fun hne => .inr ?_⟩
    · rw [hdest, eq_of_reg_setReg_ne hr]
    · exact (hc.resolve_left hne).imp_right .inl
  | compares hi =>
    exact ⟨hcontrol, ⟨rfl, rfl⟩, fun _ h => absurd rfl h, hbuffer, ⟨hflags.1, fun _ => ⟨_, _, hi⟩, hflags.2.2⟩, fun h => absurd rfl h⟩
  | loadsContext hi => exact ⟨hcontrol, ⟨rfl, rfl⟩, fun _ h => absurd rfl h, hbuffer, hflags, fun _ => .inl ⟨_, hi⟩⟩
  | givesVerdict hi _ hc =>
    refine ⟨hcontrol, ⟨rfl, rfl⟩, fun _ h => absurd rfl h, hbuffer, ⟨fun _ => ⟨_, hi⟩, hflags.2⟩, fun hne => .inr ⟨?_, .inl ?_⟩⟩
    · exact hc.resolve_left hne
    · rw [hi]
      rfl
  | encodes hi =>
    refine ⟨hcontrol, ⟨rfl, rfl⟩, fun r hr => ⟨rfl, .inl ?_⟩, hbuffer, ⟨hflags.1, hflags.2.1, fun _ => ⟨_, hi⟩⟩, fun h => absurd rfl h⟩
    rw [hi, dest, eq_of_reg_setReg_ne hr]
  | decodes hi => exact ⟨hcontrol, ⟨rfl, rfl⟩, fun _ h => absurd rfl h, fun _ => ⟨_, hi⟩, hflags, fun h => absurd rfl h⟩
  | commits hi =>
    have hregs (r : RegId) := reg_commitKey_ne (s := s) (p := s.h.p) (q := s.h.q) (r := r)
    rw [commitKey_eq] at hregs ⊢
    exact ⟨hcontrol, ⟨rfl, rfl⟩, fun r hr => ⟨rfl, .inr ⟨⟨_, hi⟩, hregs r hr⟩⟩, hbuffer, hflags, fun h => absurd rfl h⟩

/-- Settles O46: the frame of each effect. -/
theorem commandWritesOnly : Obligations.CommandWritesOnly := by
  intro s t i hr h
  obtain ⟨hcontrol, ⟨hcfg, hreply⟩, hregs, hbuffer, hflags, hctx⟩ := writesOnly_of_effect (step_effect h hr).2
  obtain ⟨hverdict, hcmp, hlz⟩ := hflags
  exact ⟨hcontrol, hcfg, hreply, hregs, hbuffer, hverdict, hcmp, hlz, hctx⟩

/-! ### Interrupts (10_state.md R39, 60_exceptions.md R284) -/

/-- The bit that the end of a command sets in `ISR`. -/
def endBit : SeqState → BitVec 3
  | .idle => isrDone
  | .error => isrErr
  | .fatal => isrFatal
  | .busy => 0

theorem isr_of_raise (s : State) (c : Cause) (info : BitVec 8) :
    (s.raise c info).isr = s.isr ||| endBit (s.raise c info).st := by
  rw [raise_isr, raise_st]
  cases c.isFatal <;> rfl

theorem isr_of_effect {i : Instr} {s t : State} (hb : s.st = .busy) (h : Effect i s (.next t)) : t.isr = s.isr ||| endBit t.st := by
  cases h with
  | waits | goesOn => simp [hb, endBit]
  | entropyFails | faults | keyFails => exact isr_of_raise ..
  | delivers | nop | compares | loadsContext | givesVerdict | encodes | decodes | commits => rfl

theorem busy_step_isr {s t : State} (hturn : s.turn = .sequencer) (hb : s.st = .busy) (h : step s = .next t) :
    t.ier = s.ier ∧ t.isr = s.isr ||| endBit t.st := by
  rcases busy_step_cases hturn hb h with ⟨-, why, -, rfl⟩ | ⟨i, -, -, heffect⟩
  · exact ⟨rfl, isr_of_raise ..⟩
  · obtain ⟨-, -, -, hier, -⟩ := (writesOnly_of_effect heffect).control
    exact ⟨hier, isr_of_effect (s := s.takeTurn) hb heffect⟩

theorem irq_iff (s : State) : s.irq = true ↔ ∃ k, k < 3 ∧ s.isr.getLsbD k = true ∧ s.ier.getLsbD k = true := by
  rw [State.irq, bne_iff_ne]
  constructor
  · intro hne
    by_contra hnone
    refine hne (BitVec.eq_of_getLsbD_eq fun k hk => ?_)
    have hk' : ¬ (s.isr.getLsbD k = true ∧ s.ier.getLsbD k = true) := fun hboth => hnone ⟨k, hk, hboth⟩
    simpa using hk'
  · rintro ⟨k, -, hisr, hier⟩ hzero
    have hbit := congrArg (·.getLsbD k) hzero
    simp [hisr, hier] at hbit

/-- Settles O53: the host's writes to the two registers, which every state accepts, and the bit that each end of a command sets. -/
theorem interruptRegisters : Obligations.InterruptRegisters := by
  intro s
  refine ⟨irq_iff s, fun v hturn => ?isr, fun v hturn => ?ier, fun t hturn h hb => ?ends⟩
  case isr =>
    have hacc : (Target.csr .isr).accepted s.st = true := by cases s.st <;> rfl
    refine ⟨_, HostWindows.step_write ⟨hturn, by decide, by decide⟩ (hostTarget_csr s.cfg (0x0024, .isr) (by decide)) rfl hacc,
      fun k hk => ?_, rfl⟩
    simp [State.writeTarget, hk]
  case ier =>
    have hacc : (Target.csr .ier).accepted s.st = true := by cases s.st <;> rfl
    refine ⟨_, HostWindows.step_write ⟨hturn, by decide, by decide⟩ (hostTarget_csr s.cfg (0x0020, .ier) (by decide)) rfl hacc,
      fun k hk => ?_, rfl⟩
    simp [State.writeTarget, hk]
  case ends =>
    obtain ⟨hier, hisr⟩ := busy_step_isr hturn hb h
    refine ⟨hier, hisr.trans ?_⟩
    cases t.st with
    | busy => exact BitVec.or_zero
    | idle | error | fatal => rfl

/-! ### Faults are precise (60_exceptions.md R291) -/

theorem phase_ne_none {s : State} (hinv : s.Inv) (hb : s.st = .busy) : s.phase ≠ .none := by
  intro hp
  have hphase := hinv.phase_ok
  simp [State.phaseOk, hp, hb] at hphase

/-- A command of one step runs in `EXEC` and no other block. -/
theorem phase_exec_of_not_multiStep {s : State} {i : Instr} (hinv : s.Inv) (hb : s.st = .busy) (hd : decode s.ir = .command i)
    (hm : multiStep i = false) : s.phase = .exec := by
  by_contra hne
  obtain ⟨-, -, hblock⟩ := hinv.block hd (phase_ne_none hinv hb) hne
  simp [multiStep_of_blockOk hblock] at hm

theorem temps_zero_of_exec {s : State} (hinv : s.Inv) (hp : s.phase = .exec) : s.h = Temps.zero := by
  have hphase := hinv.phase_ok
  simp only [State.phaseOk, hp] at hphase
  exact hphase.2

/-- The only effect that ends in `ERROR`. -/
theorem raise_of_effect_error {i : Instr} {s t : State} (h : Effect i s (.next t)) (hb : s.st = .busy) (he : t.st = .error) :
    (multiStep i = true → s.phase = .exec) ∧ ∃ c info, c.isFatal = false ∧ t = s.raise c info := by
  cases h with
  | faults hc hp => exact ⟨hp, _, _, hc, rfl⟩
  | waits | goesOn => simp [hb] at he
  | entropyFails | keyFails | delivers | nop | compares | loadsContext | givesVerdict | encodes | decodes | commits => cases he

/-- Settles O44: a recoverable fault is raised in `EXEC`, where the temporaries are zero. -/
theorem faultsArePrecise : Obligations.FaultsArePrecise := by
  intro s t hinv hturn hb h he
  obtain ⟨hp, c, info, hc, rfl⟩ : s.phase = .exec ∧ ∃ c info, c.isFatal = false ∧ t = s.takeTurn.raise c info := by
    rcases busy_step_cases hturn hb h with ⟨hp, why, -, e⟩ | ⟨i, hd, -, heffect⟩
    · exact ⟨hp, _, _, by decide, e⟩
    · obtain ⟨hp, hraise⟩ := raise_of_effect_error heffect hb he
      refine ⟨?_, hraise⟩
      cases hm : multiStep i with
      | true => exact hp hm
      | false => exact phase_exec_of_not_multiStep hinv hb hd hm
  have hlow : c.code.toNat < 0x80 := Nat.not_le.1 ((isFatal_iff c).not.1 (by simp [hc]))
  refine ⟨hp, ⟨c, info⟩, hlow, ?_⟩
  rw [raise_of_not_fatal hc, ← temps_zero_of_exec hinv hp]
  rfl

/-! ### Draws (00_scope.md R12, log 3) -/

/-- A block that asks for a draw of `k` bits is one draw of `k` bits and the use of its answer. -/
theorem exec_eq_withDraw {i : Instr} {s : State} {k : Nat} (h : drawOf i s = some k) :
    s.phase ≠ .none ∧ draws i s = true ∧ ∃ use, exec i s = s.withDraw k use := by
  unfold drawOf at h
  split at h
  case h_1 hp =>
    split at h
    · cases h
    · next hk =>
      cases h
      exact ⟨by simp [hp], decide_eq_true (by omega), _, if_neg hk⟩
  case h_9 => cases h
  all_goals
    next hp =>
      cases h
      refine ⟨by simp [hp], by simp [draws, drawOf, hp], ?_⟩
      simp only [exec, execPtest, execPrimegen, execGenkey, State.trialThenCheck, hp]
      exact ⟨_, rfl⟩

/-- In a state with the invariant `drawOf` knows every draw: `CAND` runs at `EXEC` alone. -/
theorem draws_eq_isSome {s : State} {i : Instr} (hinv : s.Inv) (hb : s.st = .busy) (hd : decode s.ir = .command i) :
    draws i s = (drawOf i s).isSome := by
  cases i with
  | cand rd k =>
    have hp := phase_exec_of_not_multiStep hinv hb hd rfl
    by_cases hk : k = 0 ∨ s.cfg.w < k
    · simp only [draws, drawOf, hp, hk, if_true, Option.isSome_none, decide_eq_false_iff_not]
      omega
    · simp only [draws, drawOf, hp, hk, if_false, Option.isSome_some, decide_eq_true_eq]
      omega
  | _ => rfl

/-- A drawing step takes one answer if there is one, any other step none. -/
theorem rng_of_effect {i : Instr} {s t : State} (h : Effect i s (.next t)) :
    t.rng = if draws i s = true then s.rng.tail else s.rng := by
  have htook {rng : List RngAnswer} (hr : Took i s rng) : rng = if draws i s = true then s.rng.tail else s.rng := by
    rcases hr with ⟨hd, rfl⟩ | ⟨hd, u, hr⟩
    · simp [hd]
    · simp [hd, hr]
  cases h with
  | waits hd hr => simp [hd, hr]
  | entropyFails hd hr => simp [hd, hr]
  | faults _ _ hd => simp [hd]
  | goesOn _ hr | delivers _ hr | givesVerdict _ hr => exact htook hr
  | nop hi | compares hi | loadsContext hi | encodes hi | decodes hi => exact htook (took_none (by rw [hi]; rfl))
  | keyFails hi hp | commits hi hp => exact htook (took_none (by simp [draws, drawOf, hi, hp]))

theorem rng_writeTarget (s : State) (v : Word) (tgt : Target) : (s.writeTarget v tgt).rng = s.rng := by
  cases tgt with
  | csr r => cases r <;> rfl
  | xWord | mnWord | mrrWord | bufWord | reserved => rfl

theorem rng_hostAccess (s : State) (a : HostAccess) : (s.hostAccess a).rng = s.rng := by
  have heffect := hostAccess_effect s a
  generalize s.hostAccess a = t at heffect
  cases heffect with
  | answers => rfl
  | writes => exact rng_writeTarget ..

theorem rngRequest_eq_some {s : State} {k : Nat} (h : s.rngRequest = some k) :
    s.st = .busy ∧ ∃ i, decode s.ir = .command i ∧ drawOf i s = some k := by
  unfold State.rngRequest at h
  split at h
  · next i hb hd => exact ⟨hb, i, hd, h⟩
  · cases h

theorem rngRequest_of_busy {s : State} {i : Instr} (hb : s.st = .busy) (hd : decode s.ir = .command i) :
    s.rngRequest = drawOf i s := by
  rw [State.rngRequest, hb, hd]

/-- Settles O9: a waiting turn leaves the state, and the answers that each effect takes. -/
theorem drawsAndWaits : Obligations.DrawsAndWaits := by
  intro s
  refine ⟨fun hturn hb => ?idle, fun k hturn hk hr => ?waits, fun t hinv h =>
    ⟨fun k hturn hk => ?draws, fun hturn hnone => ?quiet, fun hturn => ?others⟩⟩
  case idle =>
    rw [step_sequencer hturn, State.sequencerStep]
    cases hst : s.takeTurn.st with
    | busy => exact absurd hst hb
    | idle | error | fatal => rfl
  case waits =>
    obtain ⟨hb, i, hd, hk⟩ := rngRequest_eq_some hk
    obtain ⟨hp, -, use, hexec⟩ := exec_eq_withDraw (s := s.takeTurn) hk
    rw [step_sequencer hturn, sequencerStep_busy (s := s.takeTurn) hb, runBlock_command (s := s.takeTurn) hp hd, hexec,
      withDraw_nil (s := s.takeTurn) hr]
    rfl
  case draws =>
    obtain ⟨hb, i, hd, hk⟩ := rngRequest_eq_some hk
    obtain ⟨-, hdraws, -⟩ := exec_eq_withDraw (s := s.takeTurn) hk
    rw [rng_of_effect (step_effect h ⟨hturn, hb, hd⟩).2, if_pos hdraws, takeTurn_rng]
  case quiet =>
    by_cases hb : s.st = .busy
    · rcases busy_step_cases hturn hb h with ⟨-, why, -, rfl⟩ | ⟨i, hd, -, heffect⟩
      · rfl
      · have hdraws : draws i s = false := by rw [draws_eq_isSome hinv hb hd, ← rngRequest_of_busy hb hd, hnone]; rfl
        have hdraws' : draws i s.takeTurn = false := hdraws
        rw [rng_of_effect heffect, hdraws', if_neg (by decide), takeTurn_rng]
    · rw [step_sequencer hturn] at h
      rcases sequencerStep_cases h with ⟨-, rfl⟩ | ⟨hb', -⟩ | ⟨hb', -⟩
      · rfl
      · exact absurd hb' hb
      · exact absurd hb' hb
  case others =>
    rcases step_cases h with ⟨a, -, rfl⟩ | ⟨-, rfl⟩ | ⟨hseq, -⟩
    · exact rng_hostAccess ..
    · rfl
    · exact absurd hseq hturn

end Sys2Proof.Proofs.StepFrame
end

section
/-! SUPPORT. No step reads a flag (10_state.md R51): the step of every command from two states that differ in the flags alone. -/

namespace Sys2Proof.Proofs.Flags

open Sys2Proof.Machine Sys2Proof.Claims Sys2Proof.Proofs.StepFrame Sys2Proof.Proofs.Generators

/-- `s` with the flags, the interrupt registers and `KEYSRC` of `f`. -/
abbrev reflag (f s : State) : State :=
  { s with verdict := f.verdict, cmp := f.cmp, lz := f.lz, keysrc := f.keysrc, hosterr := f.hosterr, ier := f.ier, isr := f.isr }

/-- Two results: a next state of the first has a counterpart in the second that differs in the flags alone. -/
structure Alike (r r' : Result) : Prop where
  counterpart : ∀ t, r = .next t → ∃ f, r' = .next (reflag f t)

/-! ### The shared operations -/

theorem alike_next {t t' : State} (h : t' = reflag t' t) : Alike (.next t) (.next t') :=
  ⟨fun u hu => ⟨t', by
    cases hu
    exact congrArg _ h⟩⟩

theorem alike_fault (x : Fault) (r : Result) : Alike (.fault x) r := ⟨fun _ h => nomatch h⟩

theorem Alike.ite {c : Prop} [Decidable c] {a b a' b' : Result} (ha : Alike a a') (hb : Alike b b') :
    Alike (if c then a else b) (if c then a' else b') := by
  split <;> assumption

theorem alike_trap (f s : State) (c : Cause) (info : BitVec 8) : Alike (s.trap c info) ((reflag f s).trap c info) := alike_next rfl

theorem alike_deliver (f s : State) (rd : RegId) (v : Nat) : Alike (s.deliver rd v) ((reflag f s).deliver rd v) := alike_next rfl

section Blocks

variable (f s : State)

/-- The key pair of a commit is computed from `x1` and the accepted primes alone. -/
theorem x_commitKey_reflag (p q : Nat) : ((reflag f s).commitKey p q).x = (s.commitKey p q).x := rfl

theorem alike_commit (p q : Nat) : Alike (.next (s.commitKey p q).complete) (.next ((reflag f s).commitKey p q).complete) := by
  rw [commitKey_eq s, commitKey_eq (reflag f s), x_commitKey_reflag]
  exact alike_next rfl

theorem alike_withDraw {k : Nat} {use use' : Nat → State → Result}
    (h : ∀ u rest, Alike (use u { s with rng := rest }) (use' u (reflag f { s with rng := rest }))) :
    Alike (s.withDraw k use) ((reflag f s).withDraw k use') := by
  rcases hr : s.rng with _ | ⟨_ | _, rest⟩
  · rw [withDraw_nil hr, withDraw_nil (s := reflag f s) hr]
    exact alike_next rfl
  · rw [withDraw_value hr, withDraw_value (s := reflag f s) hr]
    exact h _ _
  · rw [withDraw_fail hr, withDraw_fail (s := reflag f s) hr]
    exact alike_trap f { s with rng := rest } _ _

theorem alike_beginTest {trials : Phase} {decided : Verdict → State → Result}
    (h : ∀ v, Alike (decided v s) (decided v (reflag f s))) :
    Alike (s.beginTest trials decided) ((reflag f s).beginTest trials decided) := by
  unfold State.beginTest
  dsimp only
  cases ptBegin s.h.cand with
  | decided v => exact h v
  | trials => exact alike_next rfl

theorem alike_candBlock (k : Nat) (trials check : Phase) :
    Alike (s.candBlock k trials check) ((reflag f s).candBlock k trials check) :=
  alike_withDraw f s fun u rest =>
    alike_beginTest f { s with rng := rest, h := { s.h with cand := candidate k u } } fun _ => alike_next rfl

theorem alike_trialBlock {again : Phase} {decided : Verdict → State → Result}
    (h : ∀ v rest tmp, Alike (decided v { s with rng := rest, h := tmp }) (decided v (reflag f { s with rng := rest, h := tmp }))) :
    Alike (s.trialBlock again decided) ((reflag f s).trialBlock again decided) :=
  alike_withDraw f s fun _ rest => .ite (alike_next rfl) (.ite (h _ rest s.h) (.ite (h _ rest _) (alike_next rfl)))

theorem alike_trialThenCheck (again check : Phase) : Alike (s.trialThenCheck again check) ((reflag f s).trialThenCheck again check) :=
  alike_trialBlock f s fun _ _ _ => alike_next rfl

theorem alike_checkGenerator (ok : Bool) (first : Phase) : Alike (s.checkGenerator ok first) ((reflag f s).checkGenerator ok first) :=
  .ite (alike_trap ..) (.ite (alike_trap ..) (alike_next rfl))

/-! ### The multi-step commands -/

theorem alike_ptest (rs1 : RegId) : Alike (execPtest rs1 s) (execPtest rs1 (reflag f s)) := by
  unfold execPtest
  dsimp only
  split
  · exact .ite (alike_trap ..) (alike_beginTest f { s.clearCtx with h := { s.h with cand := s.reg rs1 } } fun _ => alike_next rfl)
  · exact alike_trialBlock f s fun _ _ _ => alike_next rfl
  · exact alike_fault ..

theorem alike_primegen (rd : RegId) (k : Nat) : Alike (execPrimegen rd k s) (execPrimegen rd k (reflag f s)) := by
  unfold execPrimegen
  dsimp only
  split
  · exact alike_checkGenerator ..
  · exact alike_candBlock ..
  · exact alike_trialThenCheck ..
  · exact .ite (alike_deliver ..) (alike_next rfl)
  · exact alike_fault ..

theorem alike_genkey (bits : Nat) : Alike (execGenkey bits s) (execGenkey bits (reflag f s)) := by
  unfold execGenkey
  dsimp only
  split
  · exact alike_checkGenerator ..
  · exact alike_candBlock ..
  · exact alike_trialThenCheck ..
  · exact .ite (alike_next rfl) (.ite (alike_next rfl) (alike_next rfl))
  · exact alike_candBlock ..
  · exact alike_trialThenCheck ..
  · exact .ite (alike_next rfl) (.ite (alike_next rfl) (.ite (alike_next rfl) (alike_next rfl)))
  · exact .ite (alike_trap ..) (.ite (alike_trap ..) (alike_commit ..))
  · exact alike_fault ..

/-! ### Every command -/

/-- The conditions of a command and the values it writes are the same in both states. -/
theorem alike_exec : ∀ i : Instr, Alike (exec i s) (exec i (reflag f s))
  | .nop => alike_next rfl
  | .mov .. => alike_deliver ..
  | .ldi .. => alike_deliver ..
  | .cmp .. => alike_next rfl
  | .add .. => .ite (alike_trap ..) (alike_deliver ..)
  | .sub .. => .ite (alike_trap ..) (alike_deliver ..)
  | .mul .. => .ite (alike_trap ..) (alike_deliver ..)
  | .mod .. => .ite (alike_trap ..) (alike_deliver ..)
  | .gcd .. => alike_deliver ..
  | .modinv .. => .ite (alike_trap ..) (.ite (alike_trap ..) (alike_deliver ..))
  | .bitlen .. => alike_deliver ..
  | .msetup .. => .ite (alike_trap ..) (alike_next rfl)
  | .mmul .. => .ite (alike_trap ..) (.ite (alike_trap ..) (.ite (alike_trap ..) (alike_deliver ..)))
  | .mto .. => .ite (alike_trap ..) (.ite (alike_trap ..) (alike_deliver ..))
  | .mfrom .. => .ite (alike_trap ..) (.ite (alike_trap ..) (alike_deliver ..))
  | .modexp .. => .ite (alike_trap ..) (alike_deliver f s.clearCtx ..)
  | .cand .. => .ite (alike_trap ..) (alike_withDraw f s fun _ _ => alike_deliver ..)
  | .ptest .. => alike_ptest ..
  | .primegen .. => alike_primegen ..
  | .genkey .. => alike_genkey ..
  | .encode .. => .ite (alike_trap ..) (alike_next rfl)
  | .decode .. => alike_next rfl
  | .crt .. => .ite (alike_trap ..) (.ite (alike_trap ..) (alike_deliver ..))
  | .encrypt .. => .ite (alike_trap ..) (.ite (alike_trap ..) (alike_deliver f s.clearCtx ..))
  | .decrypt .. =>
    .ite (alike_trap ..) (.ite (alike_trap ..) (.ite (alike_trap ..) (.ite (alike_trap ..) (alike_deliver f s.clearCtx ..))))

theorem alike_runBlock : Alike s.runBlock (reflag f s).runBlock := by
  unfold State.runBlock
  dsimp only
  split
  · exact alike_fault ..
  · exact alike_trap ..
  · exact alike_fault ..
  · exact alike_exec ..

theorem alike_sequencerStep : Alike s.sequencerStep (reflag f s).sequencerStep := by
  unfold State.sequencerStep
  dsimp only
  split
  · exact alike_runBlock f s
  all_goals exact alike_next rfl

end Blocks

/-- Settles O55: the second state is the first with its own flags, and every operation passes them by. -/
theorem flagsDoNotFlowBack : Obligations.FlagsDoNotFlowBack := by
  intro s s' t hsame hturn h
  have hs' : s' = reflag s' s := hsame
  have hturn' : s'.turn = .sequencer := by
    rw [hs']
    exact hturn
  have htake : s'.takeTurn = reflag s' s.takeTurn := congrArg State.takeTurn hs'
  rw [step_sequencer hturn] at h
  obtain ⟨f, hf⟩ := (alike_sequencerStep s' s.takeTurn).counterpart t h
  exact ⟨reflag f t, by rw [step_sequencer hturn', htake, hf], rfl⟩

end Sys2Proof.Proofs.Flags
end

section
/-! SUPPORT. The key that a commit derives from two accepted primes (45_keygen.md R221, R225): its exponent, its length, the bounds of its
parts. -/

namespace Sys2Proof.Proofs.GeneratedKeys

open Sys2Proof.Machine Sys2Proof.Claims Sys2Proof.Proofs.Generators

/-! ### One accepted prime -/

/-- An accepted prime has at least two bits and is no power of two. -/
theorem range_of_accepted {e k p : Nat} (h : acceptedOk e k p) : 2 ≤ k ∧ 2 ^ (k - 1) < p ∧ p < 2 ^ k := by
  obtain ⟨⟨hodd, hlen⟩, h3, -⟩ := h
  have hk : 2 ≤ k := by
    by_contra hk
    have hle : bitlen p ≤ 1 := by omega
    have hlt : p < 2 ^ 1 := bitlen_le_iff.1 hle
    omega
  obtain ⟨hlo, hhi⟩ := (bitlen_eq_iff (by omega)).1 hlen
  have heven : 2 ^ (k - 1) % 2 = 0 := by
    rw [show k - 1 = k - 2 + 1 by omega, pow_succ]
    omega
  exact ⟨hk, by omega, hhi⟩

theorem pos_of_mul_mod_eq_one {a v m : Nat} (h : a * v % m = 1) : 0 < v := by
  by_contra hv
  simp [Nat.eq_zero_of_not_pos hv] at h

/-- A residue of the private exponent is not zero: `e` has an inverse modulo `p - 1`. -/
theorem mod_pos_of_mul_mod_eq_one {a v m k : Nat} (hk : k ∣ m) (h2 : 2 ≤ k) (h : a * v % m = 1) : 0 < v % k := by
  refine pos_of_mul_mod_eq_one (a := a) (m := k) ?_
  rw [Nat.mul_mod_mod, ← Nat.mod_mod_of_dvd _ hk, h, Nat.mod_eq_of_lt (by omega)]

/-! ### Two accepted primes -/

section Pair

variable {e b p q : Nat} (hp : acceptedOk e (pBits b) p) (hq : acceptedOk e (qBits b) q)
include hp hq

/-- `F_INVARIANT(1)` does not come (45_keygen.md R228). -/
theorem gcd_phi_eq_one : Nat.gcd e (phi p q) = 1 := Nat.Coprime.mul_right hp.2.2 hq.2.2

theorem mul_lt_two_pow : p * q < 2 ^ b := by
  obtain ⟨-, -, hplt⟩ := range_of_accepted hp
  obtain ⟨-, -, hqlt⟩ := range_of_accepted hq
  have hsum : pBits b + qBits b = b := by
    rw [qBits, pBits]
    omega
  calc p * q < 2 ^ pBits b * 2 ^ qBits b := Nat.mul_lt_mul'' hplt hqlt
    _ = 2 ^ b := by rw [← pow_add, hsum]

theorem two_pow_lt_mul : 2 ^ (b - 2) < p * q := by
  obtain ⟨hp2, hplo, -⟩ := range_of_accepted hp
  obtain ⟨hq2, hqlo, -⟩ := range_of_accepted hq
  have hsum : pBits b - 1 + (qBits b - 1) = b - 2 := by
    rw [qBits, pBits] at *
    omega
  calc 2 ^ (b - 2) = 2 ^ (pBits b - 1) * 2 ^ (qBits b - 1) := by rw [← pow_add, hsum]
    _ < p * q := Nat.mul_lt_mul'' hplo hqlo

theorem bitlen_mul : bitlen (p * q) = b ∨ bitlen (p * q) = b - 1 := by
  have hle : bitlen (p * q) ≤ b := bitlen_le_iff.2 (mul_lt_two_pow hp hq)
  have hge : ¬ bitlen (p * q) ≤ b - 2 := fun h => absurd (bitlen_le_iff.1 h) (by have := two_pow_lt_mul hp hq; omega)
  omega

theorem phi_bounds : 1 < phi p q ∧ phi p q < p * q := by
  have h3p := hp.2.1
  have h3q := hq.2.1
  refine ⟨?_, Nat.mul_lt_mul'' (by omega) (by omega)⟩
  calc 1 < 2 * 2 := by decide
    _ ≤ phi p q := Nat.mul_le_mul (by omega) (by omega)

theorem mul_privExp_mod : e * privExp e p q % phi p q = 1 := by
  have hone := (phi_bounds hp hq).1
  rw [privExp, mul_inv_mod (by omega) (gcd_phi_eq_one hp hq), Nat.mod_eq_of_lt hone]

theorem privExp_lt : privExp e p q < phi p q := inv_lt (by have := (phi_bounds hp hq).1; omega) _

end Pair

/-! ### The committed key bank -/

/-- The key bank after the commit is the key of 45_keygen.md R225. -/
theorem generatedKey_commit {s : State} {b p q : Nat} (hp : acceptedOk s.e (pBits b) p) (hq : acceptedOk s.e (qBits b) q)
    (hne : q ≠ p) (hpq : Nat.gcd q p = 1) : GeneratedKey (s.commitKey p q) b := by
  have h3p := hp.2.1
  have h3q := hq.2.1
  obtain ⟨hone, hphi⟩ := phi_bounds hp hq
  have hd := mul_privExp_mod hp hq
  have hdlt := privExp_lt hp hq
  have hinv : inv q p * q % p = 1 := by
    rw [mul_comm, mul_inv_mod (by omega) hpq, Nat.mod_eq_of_lt (by omega)]
  have hinvlt : inv q p < p := inv_lt (by omega) q
  have hple : p ≤ p * q := Nat.le_mul_of_pos_right p (by omega)
  have hqle : q ≤ p * q := Nat.le_mul_of_pos_left q (by omega)
  have hdp : privExp s.e p q % (p - 1) < p - 1 := Nat.mod_lt _ (by omega)
  have hdq : privExp s.e p q % (q - 1) < q - 1 := Nat.mod_lt _ (by omega)
  obtain ⟨e0, e1, e2, e3, e4, e5, e6, e7⟩ := keyBank_commitKey s p q
  constructor
  case modulus => rw [e0, e3, e4]
  case distinct => rw [e3, e4]; exact hne.symm
  case odd => rw [e3, e4]; exact ⟨hp.1.1, hq.1.1⟩
  case lengths => rw [e3, e4]; exact ⟨hp.1.2, hq.1.2⟩
  case coprime => rw [e1, e3, e4]; exact ⟨hp.2.2, hq.2.2⟩
  case exponent => rw [e1, e2, e3, e4, mul_comm]; exact hd
  case crt => rw [e2, e3, e4, e5, e6, e7]; exact ⟨rfl, rfl, hinv⟩
  case bounds =>
    simp only [List.forall_mem_cons, e0, e2, e5, e6, e7]
    refine ⟨⟨pos_of_mul_mod_eq_one hd, hdlt.trans hphi⟩, ⟨mod_pos_of_mul_mod_eq_one ⟨_, rfl⟩ (by omega) hd, ?_⟩,
      ⟨mod_pos_of_mul_mod_eq_one ⟨_, mul_comm _ _⟩ (by omega) hd, ?_⟩, ⟨pos_of_mul_mod_eq_one (mul_comm q _ ▸ hinv), ?_⟩,
      List.forall_mem_nil _⟩
    · exact hdp.trans_le (by omega)
    · exact hdq.trans_le (by omega)
    · exact hinvlt.trans_le hple

/-- Every key register but `x1` is at most the modulus. -/
theorem le_modulus_of_generatedKey {t : State} {b : Nat} (h : GeneratedKey t b) {i : RegId} (hi : i.val ≤ 7) (h1 : i ≠ 1) :
    t.reg i ≤ t.reg 0 := by
  obtain ⟨hp, hq⟩ := h.odd
  have hbounds := h.bounds
  simp only [List.forall_mem_cons] at hbounds
  obtain ⟨⟨-, h2⟩, ⟨-, h5⟩, ⟨-, h6⟩, ⟨-, h7⟩, -⟩ := hbounds
  have hcases : i = 0 ∨ i = 2 ∨ i = 3 ∨ i = 4 ∨ i = 5 ∨ i = 6 ∨ i = 7 := by
    revert hi h1
    revert i
    decide
  rcases hcases with rfl | rfl | rfl | rfl | rfl | rfl | rfl
  · exact le_rfl
  · exact h2.le
  · rw [h.modulus]
    exact Nat.le_mul_of_pos_right _ (by omega)
  · rw [h.modulus]
    exact Nat.le_mul_of_pos_left _ (by omega)
  · exact h5.le
  · exact h6.le
  · exact h7.le

/-- A generated key is valid (10_state.md R25, 45_keygen.md R226). -/
theorem keyValid_of_generatedKey {t : State} {b : Nat} (h : GeneratedKey t b) : t.KeyValid where
  modulus := h.modulus
  distinct := h.distinct
  odd := h.odd
  coprime := h.coprime
  exponent := h.exponent
  crt := h.crt
  bounds := ⟨h.bounds 2 (by decide), h.bounds 5 (by decide), h.bounds 6 (by decide), h.bounds 7 (by decide)⟩

end Sys2Proof.Proofs.GeneratedKeys
end

section
/-! SUPPORT. Every step keeps the invariant of the block (10_state.md section 7), and no run from it stops: the host's accesses, the
commands of one step by their effects, the blocks of the multi-step commands one by one. -/

namespace Sys2Proof.Proofs.Invariant

open Sys2Proof.Machine Sys2Proof.Claims Sys2Proof.Proofs.StepEffects Sys2Proof.Proofs.StepFrame Sys2Proof.Proofs.HostStates
open Sys2Proof.Proofs.HostWindows Sys2Proof.Proofs.GeneratedKeys Sys2Proof.Proofs.Faults
open Sys2Proof.Proofs.Issue Sys2Proof.Proofs.RoundTrip Sys2Proof.Proofs.Generators

/-! ### The parts of the invariant that a step leaves alone -/

/-- The turns, the answers to come and on the bus, and the flags are not in the invariant. -/
theorem inv_frame {s t : State} (h : s.Inv)
    (e : t = { s with len := t.len, rangeChk := t.rangeChk, verdict := t.verdict, cmp := t.cmp, lz := t.lz, keysrc := t.keysrc,
                      hosterr := t.hosterr, ier := t.ier, isr := t.isr, turns := t.turns, rng := t.rng, reply := t.reply }) : t.Inv := by
  rw [e]
  exact ⟨h.cfg_ok, h.regs_fit, h.buf_wf, h.buf_in, h.ctx_ok, h.err_ok, h.temps_fit, h.phase_ok⟩

/-- Outside `BUSY` no command is under way. -/
theorem quiet_of_not_busy {s : State} (h : s.Inv) (hb : s.st ≠ .busy) : s.phase = .none ∧ s.h = Temps.zero := by
  have hphase := h.phase_ok
  unfold State.phaseOk at hphase
  split at hphase
  · next hp => exact ⟨hp, hphase.2⟩
  · exact absurd hphase.1 hb
  · exact absurd hphase.1 hb

theorem inv_of_quiet {s : State} (h : s.Stored) (he : s.errOk) (hb : s.st ≠ .busy) (hquiet : s.phase = .none ∧ s.h = Temps.zero) :
    s.Inv where
  cfg_ok := h.cfg_ok
  regs_fit := h.regs_fit
  buf_wf := h.buf_wf
  buf_in := h.buf_in
  ctx_ok := h.ctx_ok
  err_ok := he
  temps_fit := by
    rw [hquiet.2]
    exact fit_zero (bound_pos _)
  phase_ok := by
    rw [State.phaseOk, hquiet.1]
    exact ⟨hb, hquiet.2⟩

/-! ### The host -/

theorem stored_setReg_word {s : State} (h : s.Stored) (i : RegId) {j : Nat} (hj : j < s.cfg.wwords) (v : Word) :
    (s.setReg i (replaceWord (s.reg i) j v)).Stored := h.setReg i (replaceWord_lt (h.regs_fit i) hj v)

theorem stored_writeWord {s : State} (h : s.Stored) {j : Nat} (hj : j < s.cfg.wwords) (v : Word) :
    State.Stored { s with buf := s.buf.writeWord j v } :=
  ⟨h.cfg_ok, h.regs_fit, wf_writeWord h.buf_wf j v, below_writeWord h.buf_in (by rw [Config.bufBytes]; omega) v, h.ctx_ok⟩

/-- A command is issued in `IDLE` alone (40_system_move.md R120). -/
theorem inv_issue {s : State} (h : s.Inv) (hst : s.st = .idle) (v : Word) : (s.issue v).Inv := by
  have herr : s.err = none := by simpa [State.errOk, hst] using h.err_ok
  have hquiet := quiet_of_not_busy h (by simp [hst])
  exact ⟨h.cfg_ok, h.regs_fit, h.buf_wf, h.buf_in, h.ctx_ok, herr, h.temps_fit, ⟨rfl, hquiet.2⟩⟩

theorem inv_errClr {s : State} (h : s.Inv) (v : Word) : (s.errClr v).Inv := by
  by_cases hleave : v.getLsbD 0 = true ∧ s.st = .error
  · obtain ⟨hv, hst⟩ := hleave
    rw [errClr_of_leaving hst hv]
    have hquiet := quiet_of_not_busy h (by simp [hst])
    obtain ⟨hcfg, hregs, hwf, hin, hctx⟩ := h.stored
    exact inv_of_quiet ⟨hcfg, hregs, hwf, hin, hctx⟩ rfl nofun hquiet
  · rw [errClr_of_staying hleave]
    exact inv_frame h rfl

/-- An accepted write keeps the invariant. -/
theorem inv_writeTarget {s : State} (h : s.Inv) {a : Nat} (ha : a % 4 = 0) (hacc : (hostTarget s.cfg a).accepted s.st = true) (v : Word) :
    (s.writeTarget v (hostTarget s.cfg a)).Inv := by
  by_cases hint : hostTarget s.cfg a = .csr .ier ∨ hostTarget s.cfg a = .csr .isr
  · rcases hint with e | e <;> rw [e] <;> exact inv_frame h rfl
  have hst : s.st ≠ .busy := fun hb => hint (accepted_of_busy_or_fatal (.inl hb) hacc)
  have hquiet := quiet_of_not_busy h hst
  rcases hostTarget_cases s.cfg ha with ⟨r, -, e⟩ | ⟨i, j, hj, -, -, e⟩ | ⟨j, -, -, -, e⟩ | ⟨j, -, -, -, e⟩ | ⟨j, hj, -, -, e⟩ | e <;>
    rw [e] at hacc ⊢
  · cases r with
    | cmd => exact inv_issue h ((accepted_cmd_iff s.st).1 hacc) v
    | errclr => exact inv_errClr h v
    | rounds =>
      obtain ⟨hcfg, hregs, hwf, hin, hctx⟩ := h.stored
      exact inv_of_quiet ⟨hcfg, hregs, hwf, hin, hctx⟩ h.err_ok hst hquiet
    | _ => exact inv_frame h rfl
  · exact inv_of_quiet (stored_setReg_word h.stored i hj v) h.err_ok hst hquiet
  · exact h
  · exact h
  · exact inv_of_quiet (stored_writeWord h.stored hj v) h.err_ok hst hquiet
  · exact h

theorem inv_hostAccess {s : State} (h : s.Inv) (a : HostAccess) : (s.hostAccess a).Inv := by
  have heffect := hostAccess_effect s a
  generalize s.hostAccess a = t at heffect
  cases heffect with
  | answers => exact inv_frame h rfl
  | writes a v ha _ hacc => exact inv_frame (inv_writeTarget h ha hacc v) rfl

/-! ### Commands of one step -/

/-- The effects that end a command, or wait. -/
theorem inv_of_effect {i : Instr} {s t : State} (h : s.Inv) (hb : s.st = .busy) (hwf : i.wellFormed = true) (hm : multiStep i = false)
    (heffect : Effect i s (.next t)) : t.Inv := by
  have herr := h.err_of_busy hb
  cases heffect with
  | waits => exact h
  | entropyFails => exact (h.stored.setRng _).raise _ _
  | faults => exact h.stored.raise _ _
  | @delivers rng ctx _ _ _ _ hc hv =>
    obtain ⟨hcfg, hregs, hbwf, hbin, hctx⟩ := h.stored
    have hctx' : ctx.Ok s.bound := by
      rcases hc with rfl | ⟨rfl, -⟩
      · exact hctx
      · exact empty_ok _
    have hstored : State.Stored { s with rng := rng, ctx := ctx } := ⟨hcfg, hregs, hbwf, hbin, hctx'⟩
    exact (hstored.setReg _ (hv h hwf)).complete herr
  | nop => exact h.stored.complete herr
  | compares =>
    obtain ⟨hcfg, hregs, hbwf, hbin, hctx⟩ := h.stored
    exact State.Stored.complete ⟨hcfg, hregs, hbwf, hbin, hctx⟩ herr
  | loadsContext _ hodd =>
    obtain ⟨hcfg, hregs, hbwf, hbin, -⟩ := h.stored
    exact State.Stored.complete ⟨hcfg, hregs, hbwf, hbin, ⟨hodd, hregs _, rfl⟩⟩ herr
  | encodes _ hlen =>
    obtain ⟨hcfg, hregs, hbwf, hbin, hctx⟩ := h.stored.setReg _ (encodeBytes_lt_bound hlen)
    exact State.Stored.complete ⟨hcfg, hregs, hbwf, hbin, hctx⟩ herr
  | decodes =>
    obtain ⟨hcfg, hregs, hbwf, hbin, hctx⟩ := h.stored
    exact State.Stored.complete ⟨hcfg, hregs, wf_fill hbwf _ _, below_fill hbin _ le_rfl, hctx⟩ herr
  | goesOn hm' => simp [hm] at hm'
  | givesVerdict hi | keyFails hi | commits hi => simp [hi, multiStep] at hm

/-! ### The blocks of the multi-step commands -/

theorem phase_of_blockOk {i : Instr} {s : State} (h : blockOk i s) : s.phase ≠ .none ∧ s.phase ≠ .exec := by
  constructor <;> intro hp <;> exact absurd h (by simp [blockOk, hp])

/-- A block leaves the invariant when it leaves the next block's own part. -/
theorem inv_block {i : Instr} {s : State} (h : s.Stored) (he : s.err = none) (hb : s.st = .busy) (hd : decode s.ir = .command i)
    (hctx : s.ctx = MontCtx.empty) (hfit : s.h.Fit s.bound) (hblock : blockOk i s) : s.Inv where
  cfg_ok := h.cfg_ok
  regs_fit := h.regs_fit
  buf_wf := h.buf_wf
  buf_in := h.buf_in
  ctx_ok := h.ctx_ok
  err_ok := by
    rw [State.errOk, hb]
    exact he
  temps_fit := hfit
  phase_ok := by
    obtain ⟨hnone, hexec⟩ := phase_of_blockOk hblock
    unfold State.phaseOk
    split
    · contradiction
    · contradiction
    · exact ⟨hb, hctx, i, hd, hblock⟩

/-- The odd part and the power of two of `cand - 1` fit their temporaries. -/
theorem fit_of_test {s : State} (h : s.Inv) {c e o : Nat} (hc : c < s.bound) (h5 : 5 ≤ c) (ho : o % 2 = 1) (hx : c - 1 = 2 ^ e * o) :
    o < s.bound ∧ e < 2 ^ 16 := by
  have hole : o ≤ 2 ^ e * o := Nat.le_mul_of_pos_left o (by positivity)
  have hele : 2 ^ e ≤ 2 ^ e * o := Nat.le_mul_of_pos_right _ (by omega)
  have hlt : 2 ^ e < 2 ^ s.cfg.w := (show 2 ^ e < c by omega).trans hc
  have hw : s.cfg.w ≤ 32 * 256 := Nat.mul_le_mul_left 32 h.cfg_ok.2
  have hew : e < s.cfg.w := (Nat.pow_lt_pow_iff_right (by decide)).1 hlt
  exact ⟨by omega, by omega⟩

section Blocks

variable {i : Instr} {s t : State} (h : s.Inv) (hb : s.st = .busy) (hd : decode s.ir = .command i)
include h hb hd

theorem inv_goesOn {rest : List RngAnswer} {l : Phase} {tmp : Temps} (hctx : s.ctx = MontCtx.empty) (hfit : tmp.Fit s.bound)
    (hblock : blockOk i { s with rng := rest, phase := l, h := tmp }) : State.Inv { s with rng := rest, phase := l, h := tmp } := by
  obtain ⟨hcfg, hregs, hbwf, hbin, hok⟩ := h.stored
  exact inv_block ⟨hcfg, hregs, hbwf, hbin, hok⟩ (h.err_of_busy hb) hb hd hctx hfit hblock

/-- Block `EXEC` of the generators. -/
theorem inv_checkGenerator {ok : Bool} {first : Phase} (e : s.checkGenerator ok first = .next t)
    (hblock : ok = true → s.roundCount ≠ 0 → blockOk i { s.clearCtx with phase := first }) : t.Inv := by
  rcases checkGenerator_cases e with ⟨-, rfl⟩ | ⟨-, -, rfl⟩ | ⟨hok, h0, rfl⟩
  · exact h.stored.raise _ _
  · exact h.stored.raise _ _
  · obtain ⟨hcfg, hregs, hbwf, hbin, hctx⟩ := h.stored.clearCtx
    exact inv_block ⟨hcfg, hregs, hbwf, hbin, hctx⟩ (h.err_of_busy hb) hb hd rfl h.temps_fit (hblock hok h0)

/-- The blocks that draw a candidate of `k` bits: a test is under way, or the candidate is decided. -/
theorem inv_candBlock {k : Nat} {trials check : Phase} (hctx : s.ctx = MontCtx.empty) (hk : 1 ≤ k) (hkw : k ≤ s.cfg.w)
    (h0 : s.roundCount ≠ 0) (e : s.candBlock k trials check = .next t)
    (htrials : ∀ rest c x o, candidateOk k c → State.testOk { s with h := { s.h with cand := c, s := x, t := o, i := 0 } } →
      blockOk i { s with rng := rest, phase := trials, h := { s.h with cand := c, s := x, t := o, i := 0 } })
    (hcheck : ∀ rest c v, State.decidedOk { s with h := { s.h with cand := c, v := v } } k →
      blockOk i { s with rng := rest, phase := check, h := { s.h with cand := c, v := v } }) : t.Inv := by
  obtain ⟨-, ht, hp, hq, hs, hi⟩ := h.temps_fit
  rcases candBlock_cases e with ⟨-, rfl⟩ | ⟨rest, -, rfl⟩ | ⟨u, rest, v, -, -, hu, hcases⟩
  · exact h
  · exact (h.stored.setRng rest).raise _ _
  · have hc : candidateOk k (candidate k u) := ⟨candidate_odd k u, bitlen_candidate hk hu⟩
    have hfit : candidate k u < s.bound := (candidate_lt hk hu).trans_le (two_pow_le_bound hkw)
    rcases hcases with ⟨h1, rfl⟩ | ⟨h3, rfl⟩ | ⟨h5, x, o, ho, hx, rfl⟩
    · exact inv_goesOn h hb hd hctx ⟨hfit, ht, hp, hq, hs, hi⟩ (hcheck _ _ _ ⟨hc, fun hv => absurd rfl hv⟩)
    · exact inv_goesOn h hb hd hctx ⟨hfit, ht, hp, hq, hs, hi⟩ (hcheck _ _ _ ⟨hc, fun _ => h3.ge⟩)
    · obtain ⟨hofit, hxfit⟩ := fit_of_test h hfit h5 ho hx
      exact inv_goesOn h hb hd hctx ⟨hfit, hofit, hp, hq, hxfit, Nat.two_pow_pos 16⟩
        (htrials _ _ _ _ hc ⟨h5, hc.1, hx, ho, Nat.pos_of_ne_zero h0⟩)

/-- The blocks that run one trial: another trial, or the decision. -/
theorem inv_trialBlock {again : Phase} {decided : Verdict → State → Result} (hctx : s.ctx = MontCtx.empty) (htest : s.testOk)
    (e : s.trialBlock again decided = .next t)
    (hagain : ∀ rest j, State.testOk { s with h := { s.h with i := j } } →
      blockOk i { s with rng := rest, phase := again, h := { s.h with i := j } })
    (hdecided : ∀ v rest j, j < 2 ^ 16 → decided v { s with rng := rest, h := { s.h with i := j } } = .next t → t.Inv) : t.Inv := by
  obtain ⟨hc, ht, hp, hq, hs, hi⟩ := h.temps_fit
  obtain ⟨h5, hodd, hx, ho, hlt⟩ := htest
  have hrounds : s.roundCount < 2 ^ 16 := s.rounds.isLt
  rcases trialBlock_cases e with ⟨-, rfl⟩ | ⟨rest, -, rfl⟩ | ⟨u, rest, v, -, -, hcases⟩
  · exact h
  · exact (h.stored.setRng rest).raise _ _
  · rcases hcases with ⟨-, rfl⟩ | ⟨-, -, -, e⟩ | ⟨-, -, -, -, e⟩ | ⟨-, -, -, hmore, rfl⟩
    · exact inv_goesOn h hb hd hctx h.temps_fit (hagain rest s.h.i ⟨h5, hodd, hx, ho, hlt⟩)
    · exact hdecided _ _ s.h.i hi e
    · exact hdecided _ _ _ (by omega) e
    · have hmore' : s.h.i + 1 < s.roundCount := by omega
      exact inv_goesOn h hb hd hctx ⟨hc, ht, hp, hq, hs, by dsimp only; omega⟩ (hagain rest _ ⟨h5, hodd, hx, ho, hmore'⟩)

theorem inv_trialThenCheck {k : Nat} {again check : Phase} (hctx : s.ctx = MontCtx.empty) (htest : s.testOk)
    (hcand : candidateOk k s.h.cand) (e : s.trialThenCheck again check = .next t)
    (hagain : ∀ rest j, State.testOk { s with h := { s.h with i := j } } →
      blockOk i { s with rng := rest, phase := again, h := { s.h with i := j } })
    (hcheck : ∀ rest j v, State.decidedOk { s with h := { s.h with i := j, v := v } } k →
      blockOk i { s with rng := rest, phase := check, h := { s.h with i := j, v := v } }) : t.Inv := by
  refine inv_trialBlock h hb hd hctx htest e hagain fun v rest j hj e => ?_
  obtain ⟨hc, ht, hp, hq, hs, -⟩ := h.temps_fit
  have h5 := htest.1
  obtain rfl := Host.Outcome.next.inj e
  exact inv_goesOn h hb hd hctx ⟨hc, ht, hp, hq, hs, hj⟩ (hcheck _ _ _ ⟨hcand, fun _ => by dsimp only; omega⟩)

end Blocks

/-! ### The multi-step commands -/

section Commands

variable {s t : State} (h : s.Inv) (hb : s.st = .busy)
include h hb

theorem inv_giveVerdict {v : Verdict} {rest : List RngAnswer} {tmp : Temps} {ctx : MontCtx} (hctx : ctx.Ok s.bound)
    (e : State.giveVerdict v { s with rng := rest, h := tmp, ctx := ctx } = .next t) : t.Inv := by
  obtain rfl := Host.Outcome.next.inj e
  obtain ⟨hcfg, hregs, hbwf, hbin, -⟩ := h.stored
  exact State.Stored.complete ⟨hcfg, hregs, hbwf, hbin, hctx⟩ (h.err_of_busy hb)

theorem inv_ptest {rs1 : RegId} (hd : decode s.ir = .command (.ptest rs1)) (e : exec (.ptest rs1) s = .next t) : t.Inv := by
  by_cases hp : s.phase = .exec
  · by_cases h0 : s.roundCount = 0
    · simp only [exec, execPtest, hp, ptestExec, if_pos h0] at e
      obtain rfl := Host.Outcome.next.inj e
      exact h.stored.raise _ _
    · rw [exec_ptest_exec hp h0] at e
      obtain ⟨-, ht, hpf, hqf, hs, hi⟩ := h.temps_fit
      rcases beginTest_eq ({ s.clearCtx with h := { s.h with cand := s.reg rs1 } } : State) .ptTrial State.giveVerdict with
        ⟨-, e'⟩ | ⟨-, e'⟩ | ⟨-, -, e'⟩ | ⟨h5, hodd, x, o, ho, hx, e'⟩ <;> rw [e'] at e
      · exact inv_giveVerdict h hb (rest := s.rng) (empty_ok _) e
      · exact inv_giveVerdict h hb (rest := s.rng) (empty_ok _) e
      · exact inv_giveVerdict h hb (rest := s.rng) (empty_ok _) e
      · obtain rfl := Host.Outcome.next.inj e
        obtain ⟨hofit, hxfit⟩ := fit_of_test h (h.regs_fit rs1) h5 ho hx
        obtain ⟨hcfg, hregs, hbwf, hbin, hctx⟩ := h.stored.clearCtx
        exact inv_block (i := .ptest rs1) ⟨hcfg, hregs, hbwf, hbin, hctx⟩ (h.err_of_busy hb) hb hd rfl
          ⟨h.regs_fit rs1, hofit, hpf, hqf, hxfit, Nat.two_pow_pos 16⟩ ⟨h5, hodd, hx, ho, Nat.pos_of_ne_zero h0⟩
  · obtain ⟨-, hctx, hblock⟩ := h.block hd (phase_ne_none h hb) hp
    have hp := phase_of_blockOk_ptest hblock
    simp only [blockOk, hp] at hblock
    rw [exec_ptest_trial hp] at e
    exact inv_trialBlock h hb hd hctx hblock e (fun _ _ htest => htest) fun _ _ _ _ e => inv_giveVerdict h hb h.ctx_ok e

theorem inv_primegen {rd : RegId} {k : Nat} (hd : decode s.ir = .command (.primegen rd k)) (e : exec (.primegen rd k) s = .next t) :
    t.Inv := by
  by_cases hp : s.phase = .exec
  · simp only [exec, execPrimegen, hp] at e
    refine inv_checkGenerator h hb hd e fun hok h0 => ?_
    obtain ⟨hk, hkw⟩ := of_decide_eq_true hok
    exact ⟨hk, hkw, h0⟩
  · obtain ⟨-, hctx, hblock⟩ := h.block hd (phase_ne_none h hb) hp
    rcases phase_of_blockOk_primegen hblock with hp | hp | hp <;> simp only [blockOk, hp] at hblock <;>
      simp only [exec, execPrimegen, hp] at e
    case inl =>
      obtain ⟨hk, hkw, h0⟩ := hblock
      exact inv_candBlock h hb hd hctx hk hkw h0 e (fun _ _ _ _ hc htest => ⟨⟨hk, hkw, h0⟩, hc, htest⟩)
        fun _ _ _ hdec => ⟨⟨hk, hkw, h0⟩, hdec⟩
    case inr.inl =>
      obtain ⟨hparams, hc, htest⟩ := hblock
      exact inv_trialThenCheck h hb hd hctx htest hc e (fun _ _ htest => ⟨hparams, hc, htest⟩) fun _ _ _ hdec => ⟨hparams, hdec⟩
    case inr.inr =>
      obtain ⟨hparams, -⟩ := hblock
      unfold primegenDecide at e
      split at e <;> obtain rfl := Host.Outcome.next.inj e
      · exact (h.stored.setReg rd h.temps_fit.1).complete (h.err_of_busy hb)
      · exact inv_goesOn h hb hd hctx h.temps_fit hparams

/-- The registers of a committed key are at most the modulus, which has at most `bits ≤ W` bits. -/
theorem inv_commit {bits : Nat} (hbits : bits ≤ s.cfg.w) (hp : acceptedOk s.e (pBits bits) s.h.p) (hq : acceptedOk s.e (qBits bits) s.h.q)
    (hne : s.h.q ≠ s.h.p) (hpq : Nat.gcd s.h.q s.h.p = 1) : (s.commitKey s.h.p s.h.q).complete.Inv := by
  have hkey := generatedKey_commit hp hq hne hpq
  have hn : (s.commitKey s.h.p s.h.q).reg 0 < s.bound := by
    rw [(keyBank_commitKey s s.h.p s.h.q).1]
    exact (mul_lt_two_pow hp hq).trans_le (two_pow_le_bound hbits)
  obtain ⟨hcfg, hregs, hbwf, hbin, hctx⟩ := h.stored
  have hfit (j : RegId) : (s.commitKey s.h.p s.h.q).reg j < s.bound := by
    by_cases hj : j.val ≤ 7 ∧ j ≠ 1
    · exact (le_modulus_of_generatedKey hkey hj.1 hj.2).trans_lt hn
    · rw [not_ne_iff.1 fun hne => hj (reg_commitKey_ne hne)]
      exact hregs j
  rw [commitKey_eq] at hfit ⊢
  exact State.Stored.complete ⟨hcfg, hfit, hbwf, hbin, hctx⟩ (h.err_of_busy hb)

theorem inv_genkey {bits : Nat} (hd : decode s.ir = .command (.genkey bits)) (e : exec (.genkey bits) s = .next t) : t.Inv := by
  by_cases hp : s.phase = .exec
  · simp only [exec, execGenkey, hp] at e
    refine inv_checkGenerator h hb hd e fun hok h0 => ?_
    obtain ⟨hk, hkw⟩ := of_decide_eq_true hok
    exact ⟨hk, hkw, h0⟩
  · obtain ⟨-, hctx, hblock⟩ := h.block hd (phase_ne_none h hb) hp
    obtain ⟨hc, ht, hpf, hqf, hs, hi⟩ := h.temps_fit
    rcases phase_of_blockOk_genkey hblock with hp | hp | hp | hp | hp | hp | hp <;> simp only [blockOk, hp] at hblock <;>
      simp only [exec, execGenkey, hp] at e
    · -- `GP_CAND`
      obtain ⟨h2, hw, h0⟩ := hblock
      exact inv_candBlock h hb hd hctx (by rw [pBits]; omega) (by rw [pBits]; omega) h0 e
        (fun _ _ _ _ hc htest => ⟨⟨h2, hw, h0⟩, hc, htest⟩) fun _ _ _ hdec => ⟨⟨h2, hw, h0⟩, hdec⟩
    · -- `GP_TRIAL`
      obtain ⟨hparams, hc, htest⟩ := hblock
      exact inv_trialThenCheck h hb hd hctx htest hc e (fun _ _ htest => ⟨hparams, hc, htest⟩) fun _ _ _ hdec => ⟨hparams, hdec⟩
    · -- `GP_CHECK`
      obtain ⟨hparams, hcand, h3⟩ := hblock
      unfold genkeyCheckP at e
      split_ifs at e with hv hgcd <;> obtain rfl := Host.Outcome.next.inj e
      · exact inv_goesOn h hb hd hctx h.temps_fit hparams
      · exact inv_goesOn h hb hd hctx h.temps_fit hparams
      · exact inv_goesOn h hb hd hctx ⟨hc, ht, hc, hqf, hs, hi⟩ ⟨hparams, hcand, h3 hv, not_not.1 hgcd⟩
    · -- `GQ_CAND`
      obtain ⟨⟨h2, hw, h0⟩, hp⟩ := hblock
      exact inv_candBlock h hb hd hctx (by rw [qBits, pBits]; omega) (by rw [qBits, pBits]; omega) h0 e
        (fun _ _ _ _ hc htest => ⟨⟨h2, hw, h0⟩, hp, hc, htest⟩) fun _ _ _ hdec => ⟨⟨h2, hw, h0⟩, hp, hdec⟩
    · -- `GQ_TRIAL`
      obtain ⟨hparams, hp, hc, htest⟩ := hblock
      exact inv_trialThenCheck h hb hd hctx htest hc e (fun _ _ htest => ⟨hparams, hp, hc, htest⟩) fun _ _ _ hdec => ⟨hparams, hp, hdec⟩
    · -- `GQ_CHECK`
      obtain ⟨hparams, hp, hcand, h3⟩ := hblock
      unfold genkeyCheckQ at e
      split_ifs at e with hv heq hgcd <;> obtain rfl := Host.Outcome.next.inj e
      · exact inv_goesOn h hb hd hctx h.temps_fit ⟨hparams, hp⟩
      · exact inv_goesOn h hb hd hctx h.temps_fit ⟨hparams, hp⟩
      · exact inv_goesOn h hb hd hctx h.temps_fit ⟨hparams, hp⟩
      · exact inv_goesOn h hb hd hctx ⟨hc, ht, hpf, hc, hs, hi⟩ ⟨hparams, hp, ⟨hcand, h3 hv, not_not.1 hgcd⟩, heq⟩
    · -- `GK_DERIVE`
      obtain ⟨⟨-, hw, -⟩, hp, hq, hne⟩ := hblock
      unfold genkeyDerive at e
      split_ifs at e with hphi hpq <;> obtain rfl := Host.Outcome.next.inj e
      · exact h.stored.raise _ _
      · exact h.stored.raise _ _
      · exact inv_commit h hb hw hp hq hne (not_not.1 hpq)

/-- A command keeps the invariant, whatever it is. -/
theorem inv_exec {i : Instr} (hd : decode s.ir = .command i) (e : exec i s = .next t) : t.Inv := by
  cases hm : multiStep i with
  | false => exact inv_of_effect h hb (encodeOfDecode _ _ hd).1 hm (e ▸ exec_effect s i)
  | true =>
    cases i with
    | ptest => exact inv_ptest h hb hd e
    | primegen => exact inv_primegen h hb hd e
    | genkey => exact inv_genkey h hb hd e
    | _ => cases hm

end Commands

/-! ### The step of the block -/

theorem inv_takeTurn {s : State} (h : s.Inv) : s.takeTurn.Inv := inv_frame h rfl

/-- Settles O58: the step of each agent. -/
theorem stepKeepsInvariant : Obligations.StepKeepsInvariant := by
  intro s t h hstep
  have htake := inv_takeTurn h
  rcases step_cases hstep with ⟨a, -, rfl⟩ | ⟨-, rfl⟩ | ⟨-, hseq⟩
  · exact inv_hostAccess htake a
  · exact inv_resetFor h.cfg_ok _ _
  · rcases sequencerStep_cases hseq with ⟨-, rfl⟩ | ⟨-, -, why, -, rfl⟩ | ⟨hb, -, i, hd, hexec⟩
    · exact htake
    · exact htake.stored.raise _ _
    · exact inv_exec htake hb hd hexec

/-! ### Runs (93_implementation_defined.md section 3) -/

/-- A command whose label is one of its own answers a next state. -/
theorem next_of_effect {i : Instr} {s : State} {r : Result} (heffect : Effect i s r)
    (hlabel : s.phase ≠ .exec → blockOk i s) : ∃ t, r = .next t := by
  cases heffect with
  | stray _ hexec hb => exact absurd (hlabel hexec) hb
  | _ => exact ⟨_, rfl⟩

theorem runBlock_illegal {s : State} {why : Illegal} (hp : s.phase = .exec) (hd : decode s.ir = .illegal why) :
    s.runBlock = s.trap .illegalCmd why.info := by
  simp only [State.runBlock, hp, hd]

/-- Past `EXEC` the word in `IR` is that of a command (30_encoding.md R105: an illegal one faults in `EXEC`). -/
theorem phase_exec_of_illegal {s : State} (h : s.Inv) (hb : s.st = .busy) {why : Illegal} (hd : decode s.ir = .illegal why) :
    s.phase = .exec := by
  by_contra hne
  have hphase := h.phase_ok
  unfold State.phaseOk at hphase
  split at hphase
  · exact hphase.1 hb
  · contradiction
  · obtain ⟨-, -, i, hi, -⟩ := hphase
    simp [hd] at hi

theorem sequencerStep_next {s : State} (h : s.Inv) : ∃ t, s.sequencerStep = .next t := by
  by_cases hb : s.st = .busy
  · rw [sequencerStep_busy hb]
    have hnone := phase_ne_none h hb
    cases hd : decode s.ir with
    | illegal why => exact ⟨_, runBlock_illegal (phase_exec_of_illegal h hb hd) hd⟩
    | command i =>
      rw [runBlock_command hnone hd]
      exact next_of_effect (exec_effect s i) fun hne => (h.block hd hnone hne).2.2
  · cases hst : s.st with
    | busy => contradiction
    | idle | error | fatal => exact ⟨s, by rw [State.sequencerStep, hst]⟩

theorem step_next {s : State} (h : s.Inv) : ∃ t, step s = .next t := by
  cases hturn : s.turn with
  | host a => exact ⟨_, step_host hturn⟩
  | sequencer =>
    rw [step_sequencer hturn]
    exact sequencerStep_next (inv_takeTurn h)
  | reset => exact ⟨_, step_reset hturn⟩

/-- Settles O59: every step answers, and keeps the invariant. -/
theorem runsNeverStop : Obligations.RunsNeverStop := by
  intro s h k
  induction k generalizing s with
  | zero => exact ⟨s, rfl⟩
  | succ k ih =>
    obtain ⟨t, hstep⟩ := step_next h
    obtain ⟨u, hrun⟩ := ih t (stepKeepsInvariant s t h hstep)
    exact ⟨u, (run_succ Sys2Proof.core hstep k).trans hrun⟩

end Sys2Proof.Proofs.Invariant
end

section
/-! SUPPORT. What a completed `GENKEY` guarantees, its fatal faults, and the validity of the key bank as every step keeps it (45_keygen.md
R225 to R228, 10_state.md R25, R26). -/

namespace Sys2Proof.Proofs.KeyResults

open Sys2Proof.Machine Sys2Proof.Claims Sys2Proof.Proofs.StepEffects Sys2Proof.Proofs.StepFrame Sys2Proof.Proofs.HostStates
open Sys2Proof.Proofs.GeneratedKeys Sys2Proof.Proofs.Generators Sys2Proof.Proofs.Faults Sys2Proof.Proofs.Invariant Sys2Proof.Proofs.Keysrc

/-! ### The commit (45_keygen.md R224) -/

/-- The two accepted primes at `GK_DERIVE`. -/
theorem accepted_of_gkDerive {s : State} {bits : Nat} (h : s.Inv) (hd : decode s.ir = .command (.genkey bits)) (hp : s.phase = .gkDerive) :
    s.ctx = MontCtx.empty ∧ acceptedOk s.e (pBits bits) s.h.p ∧ acceptedOk s.e (qBits bits) s.h.q ∧ s.h.q ≠ s.h.p := by
  obtain ⟨-, hctx, hblock⟩ := h.block hd (by simp [hp]) (by simp [hp])
  simp only [blockOk, hp] at hblock
  exact ⟨hctx, hblock.2⟩

/-- `GENKEY` ends in `IDLE` only by its commit. -/
theorem genkey_idle {s t : State} {bits : Nat} (hb : s.st = .busy) (heffect : Effect (.genkey bits) s (.next t)) (hidle : t.st = .idle) :
    s.phase = .gkDerive ∧ Nat.gcd s.h.q s.h.p = 1 ∧ t = (s.commitKey s.h.p s.h.q).complete := by
  cases heffect with
  | commits _ hp _ hpq => exact ⟨hp, hpq, rfl⟩
  | waits | goesOn => simp [hb] at hidle
  | entropyFails | keyFails => cases hidle
  | faults hc => simp [hc] at hidle
  | delivers hdest => cases hdest
  | nop hi | compares hi | loadsContext hi | givesVerdict hi | encodes hi | decodes hi => cases hi

theorem generatedKey_complete {s : State} {bits : Nat} (h : GeneratedKey s bits) : GeneratedKey s.complete bits :=
  ⟨h.modulus, h.distinct, h.odd, h.lengths, h.coprime, h.exponent, h.crt, h.bounds⟩

/-- Settles O31: the accepted primes of the invariant, and the key derived from them. -/
theorem genkeyPostconditions : Obligations.GenkeyPostconditions := by
  intro s t bits h hr hstep hidle
  obtain ⟨hp, hpq, rfl⟩ := genkey_idle (s := s.takeTurn) hr.2.1 (step_effect hstep hr).2 hidle
  obtain ⟨hctx, hpok, hqok, hne⟩ := accepted_of_gkDerive (inv_takeTurn h) hr.2.2 hp
  have hkey := generatedKey_commit hpok hqok hne hpq
  obtain ⟨e0, e1, -⟩ := keyBank_commitKey s.takeTurn s.takeTurn.h.p s.takeTurn.h.q
  refine ⟨generatedKey_complete hkey, ?keysrc, ?ctx, ?done, ?exponent, ?others, ?length⟩
  case keysrc => rw [complete_keysrc, commitKey_eq]
  case ctx => rw [complete_ctx, commitKey_eq, hctx, MontCtx.empty]
  case done => simp [isrDone]
  case exponent => exact (reg_complete _ _).trans e1
  case others => exact fun i hi => (reg_complete _ _).trans (reg_commitKey_of_ge hi ..)
  case length =>
    rw [reg_complete, e0]
    exact ⟨two_pow_lt_mul hpok hqok, mul_lt_two_pow hpok hqok, bitlen_mul hpok hqok⟩

/-! ### The fatal faults (45_keygen.md R228) -/

theorem err_writeTarget (s : State) (v : Word) (tgt : Target) : (s.writeTarget v tgt).err = s.err ∨ (s.writeTarget v tgt).err = none := by
  cases tgt with
  | csr r =>
    cases r with
    | errclr =>
      simp only [State.writeTarget, State.errClr]
      split
      · exact .inr rfl
      · exact .inl rfl
    | _ => exact .inl rfl
  | xWord | mnWord | mrrWord | bufWord | reserved => exact .inl rfl

/-- A host access records no fault. -/
theorem err_hostAccess (s : State) (a : HostAccess) : (s.hostAccess a).err = s.err ∨ (s.hostAccess a).err = none := by
  have heffect := hostAccess_effect s a
  generalize s.hostAccess a = t at heffect
  cases heffect with
  | answers => exact .inl rfl
  | writes => exact err_writeTarget ..

/-- No command records `F_INVARIANT(1)`: the accepted primes are prime to the exponent. -/
theorem err_of_effect {i : Instr} {s t : State} (h : s.Inv) (hd : decode s.ir = .command i) (heffect : Effect i s (.next t)) :
    t.err = s.err ∨ t.err ≠ some ⟨.invariant, 1⟩ := by
  cases heffect with
  | entropyFails => exact .inr (by simp)
  | faults hc =>
    refine .inr fun herr => ?_
    obtain ⟨rfl, -⟩ := FaultRecord.mk.inj (Option.some.inj herr)
    cases hc
  | keyFails hi hp hinfo =>
    refine .inr fun herr => ?_
    obtain ⟨-, rfl⟩ := FaultRecord.mk.inj (Option.some.inj herr)
    obtain ⟨-, hpok, hqok, -⟩ := accepted_of_gkDerive h (hi ▸ hd) hp
    exact hinfo rfl (gcd_phi_eq_one hpok hqok)
  | _ => exact .inl rfl

/-- The accepted primes 49 and 91 of 45_keygen.md R232 item 8. -/
theorem inv_deriving49 : (Tests.deriving' 7 49 91).Inv :=
  Tests.inv_block (Tests.plain_load _) (by decide) (by unfold Temps.Fit; decide +kernel) (by decide +kernel)
    (by show State.paramsOk _ 2 13 ∧ acceptedOk 7 6 49 ∧ acceptedOk 7 7 91 ∧ 91 ≠ 49
        unfold State.paramsOk acceptedOk candidateOk
        decide +kernel)

/-- Settles O32: no step records `F_INVARIANT(1)`; 7 divides both 49 and 91. -/
theorem invariantFaults : Obligations.InvariantFaults := by
  refine ⟨fun s t h hstep herr => ?_, Tests.deriving' 7 49 91, Tests.after (Tests.deriving' 7 49 91), inv_deriving49,
    by unfold Runs; decide +kernel, rfl, rfl, rfl, Tests.step_after (by decide +kernel), by decide +kernel, by decide +kernel⟩
  rcases step_cases hstep with ⟨a, -, rfl⟩ | ⟨-, rfl⟩ | ⟨hturn, hseq⟩
  · rcases err_hostAccess s.takeTurn a with e | e
    · exact e.symm.trans herr
    · simp [e] at herr
  · cases herr
  · by_cases hb : s.st = .busy
    · rcases busy_step_cases hturn hb hstep with ⟨-, why, -, rfl⟩ | ⟨i, hd, -, heffect⟩
      · simp at herr
      · rcases err_of_effect (inv_takeTurn h) hd heffect with e | e
        · exact e.symm.trans herr
        · exact absurd herr e
    · rcases sequencerStep_cases hseq with ⟨-, rfl⟩ | ⟨hb', -⟩ | ⟨hb', -⟩
      · exact herr
      · exact absurd hb' hb
      · exact absurd hb' hb

/-! ### The validity of the key bank (10_state.md R25, R26) -/

/-- The key's validity is a statement about `x0` to `x7`. -/
theorem keyOk_of_same {s t : State} (h : s.KeyOk) (hx : ∀ i : RegId, i.val ≤ 7 → t.reg i = s.reg i) (hk : t.keysrc = s.keysrc) :
    t.KeyOk := by
  intro hgen
  obtain ⟨hmod, hne, hodd, hcop, hexp, hcrt, hbounds⟩ := h (hk ▸ hgen)
  have e0 := hx RegId.n (by decide)
  have e1 := hx RegId.e (by decide)
  have e2 := hx RegId.d (by decide)
  have e3 := hx RegId.p (by decide)
  have e4 := hx RegId.q (by decide)
  have e5 := hx RegId.dp (by decide)
  have e6 := hx RegId.dq (by decide)
  have e7 := hx RegId.qinv (by decide)
  constructor <;> simp only [State.n, State.e, State.d, State.p, State.q, State.dp, State.dq, State.qinv, e0, e1, e2, e3, e4, e5, e6, e7]
  exacts [hmod, hne, hodd, hcop, hexp, hcrt, hbounds]

/-- A write of a key register says so in `KEYSRC`. -/
theorem keyOk_setReg {s : State} (h : s.KeyOk) (i : RegId) (v : Nat) : (s.setReg i v).KeyOk := by
  have hsrc : (s.setReg i v).keysrc = if i.val ≤ 7 then .modified else s.keysrc := keysrcAfterWrite_eq i s.keysrc
  by_cases hi : i.val ≤ 7
  · intro hgen
    rw [hsrc, if_pos hi] at hgen
    cases hgen
  · refine keyOk_of_same h (fun j hj => reg_setReg_other s ?_ v) (hsrc.trans (if_neg hi))
    rintro rfl
    exact hi hj

/-- A step that writes no register keeps the key. -/
theorem keyOk_frame {s t : State} (h : s.KeyOk) (hx : t.x = s.x) (hk : t.keysrc = s.keysrc) : t.KeyOk :=
  keyOk_of_same h (fun i _ => by rw [State.reg, State.reg, hx]) hk

theorem keyOk_writeTarget {s : State} (h : s.KeyOk) (v : Word) (tgt : Target) : (s.writeTarget v tgt).KeyOk := by
  cases tgt with
  | csr r => cases r <;> exact keyOk_frame h rfl rfl
  | xWord i j => exact keyOk_setReg h i _
  | mnWord | mrrWord | bufWord | reserved => exact keyOk_frame h rfl rfl

theorem keyOk_hostAccess {s : State} (h : s.KeyOk) (a : HostAccess) : (s.hostAccess a).KeyOk := by
  have heffect := hostAccess_effect s a
  generalize s.hostAccess a = t at heffect
  cases heffect with
  | answers => exact keyOk_frame h rfl rfl
  | writes a v => exact keyOk_frame (keyOk_writeTarget h v (hostTarget s.cfg a)) rfl rfl

theorem keyOk_of_effect {i : Instr} {s t : State} (hinv : s.Inv) (h : s.KeyOk) (hd : decode s.ir = .command i)
    (heffect : Effect i s (.next t)) : t.KeyOk := by
  cases heffect with
  | delivers => exact keyOk_frame (keyOk_setReg (keyOk_frame h rfl rfl) _ _) rfl rfl
  | encodes => exact keyOk_frame (keyOk_setReg h _ _) rfl rfl
  | commits hi hp _ hpq =>
    obtain ⟨-, hpok, hqok, hne⟩ := accepted_of_gkDerive hinv (hi ▸ hd) hp
    exact fun _ => keyValid_of_generatedKey (generatedKey_complete (generatedKey_commit hpok hqok hne hpq))
  | _ => exact keyOk_frame h rfl rfl

/-- Settles O60: a write of a key register ends the claim, and a commit renews it. -/
theorem generatedKeysStayValid : Obligations.GeneratedKeysStayValid := by
  intro s t hinv h hstep
  have htake : s.takeTurn.KeyOk := keyOk_frame h rfl rfl
  rcases step_cases hstep with ⟨a, -, rfl⟩ | ⟨-, rfl⟩ | ⟨hturn, hseq⟩
  · exact keyOk_hostAccess htake a
  · exact nofun
  · rcases sequencerStep_cases hseq with ⟨-, rfl⟩ | ⟨-, -, why, -, rfl⟩ | ⟨-, -, i, hd, hexec⟩
    · exact htake
    · exact keyOk_frame htake rfl rfl
    · exact keyOk_of_effect (inv_takeTurn hinv) htake hd (hexec ▸ exec_effect s.takeTurn i)

end Sys2Proof.Proofs.KeyResults
end

section
/-! SUPPORT. How `PTEST` and `PRIMEGEN` end (44_primegen.md R203, R205, R207, R209): the verdicts, the delivered number, and the end of a
test. -/

namespace Sys2Proof.Proofs.PrimeResults

open Sys2Proof.Machine Sys2Proof.Claims Sys2Proof.Proofs.StepEffects Sys2Proof.Proofs.StepFrame Sys2Proof.Proofs.HostStates
open Sys2Proof.Proofs.Generators Sys2Proof.Proofs.Primes Sys2Proof.Proofs.Invariant

/-! ### The blocks that do not end a command in `IDLE` -/

section Blocks

variable {s t : State} (hb : s.st = .busy)
include hb

theorem checkGenerator_not_idle {ok : Bool} {first : Phase} (e : s.checkGenerator ok first = .next t) : t.st ≠ .idle := by
  rcases checkGenerator_cases e with ⟨-, rfl⟩ | ⟨-, -, rfl⟩ | ⟨-, -, rfl⟩
  · exact nofun
  · exact nofun
  · exact fun hidle => nomatch hb.symm.trans hidle

theorem candBlock_not_idle {k : Nat} {trials check : Phase} (e : s.candBlock k trials check = .next t) : t.st ≠ .idle := by
  have hbusy : s.st ≠ .idle := by simp [hb]
  rcases candBlock_cases e with ⟨-, rfl⟩ | ⟨rest, -, rfl⟩ | ⟨u, rest, v, -, -, -, ⟨-, rfl⟩ | ⟨-, rfl⟩ | ⟨-, _, _, -, -, rfl⟩⟩
  · exact hbusy
  · exact nofun
  · exact hbusy
  · exact hbusy
  · exact hbusy

/-- A trial block ends in `IDLE` only by its decision. -/
theorem trialBlock_idle {again : Phase} {decided : Verdict → State → Result} (e : s.trialBlock again decided = .next t)
    (hidle : t.st = .idle) :
    (∃ u rest, 2 ≤ u ∧ u ≤ s.h.cand - 2 ∧ ptTrial s.h.cand s.h.s s.h.t u = false ∧ decided .composite { s with rng := rest } = .next t) ∨
    ∃ rest tmp, decided .probablyPrime { s with rng := rest, h := tmp } = .next t := by
  have hbusy : s.st ≠ .idle := by simp [hb]
  rcases trialBlock_cases e with ⟨-, rfl⟩ | ⟨rest, -, rfl⟩ | ⟨u, rest, v, -, -, hcases⟩
  · exact absurd hidle hbusy
  · cases hidle
  · rcases hcases with ⟨-, rfl⟩ | ⟨h2, hle, hfail, e⟩ | ⟨-, -, -, -, e⟩ | ⟨-, -, -, -, rfl⟩
    · exact absurd hidle hbusy
    · exact .inl ⟨u, rest, h2, hle, hfail, e⟩
    · exact .inr ⟨rest, _, e⟩
    · exact absurd hidle hbusy

theorem trialThenCheck_not_idle {again check : Phase} (e : s.trialThenCheck again check = .next t) : t.st ≠ .idle := by
  intro hidle
  rcases trialBlock_idle hb e hidle with ⟨_, _, -, -, -, e⟩ | ⟨_, _, e⟩ <;> obtain rfl := Host.Outcome.next.inj e <;>
    exact nomatch hb.symm.trans hidle

end Blocks

/-! ### `PRIMEGEN` (44_primegen.md R207) -/

/-- `PRIMEGEN` ends in `IDLE` only where it accepts. -/
theorem primegen_idle {s t : State} {rd : RegId} {k : Nat} (hb : s.st = .busy) (e : exec (.primegen rd k) s = .next t)
    (hidle : t.st = .idle) : s.phase = .pgDecide ∧ s.h.v ≠ .composite ∧ t = (s.setReg rd s.h.cand).complete := by
  simp only [exec] at e
  unfold execPrimegen at e
  split at e
  · exact absurd hidle (checkGenerator_not_idle hb e)
  · exact absurd hidle (candBlock_not_idle hb e)
  · exact absurd hidle (trialThenCheck_not_idle hb e)
  · next hp =>
    unfold primegenDecide at e
    split at e <;> obtain rfl := Host.Outcome.next.inj e
    · next hv => exact ⟨hp, hv, rfl⟩
    · exact nomatch hb.symm.trans hidle
  · cases e

/-- The accepted candidate has `k` bits and is at least 3. -/
theorem decided_of_pgDecide {s : State} {rd : RegId} {k : Nat} (h : s.Inv) (hd : decode s.ir = .command (.primegen rd k))
    (hp : s.phase = .pgDecide) : s.decidedOk k := by
  obtain ⟨-, -, hblock⟩ := h.block hd (by simp [hp]) (by simp [hp])
  simp only [blockOk, hp] at hblock
  exact hblock.2

/-- Settles O28: the candidate that the invariant describes is delivered. -/
theorem primegenResult : Obligations.PrimegenResult := by
  intro s t rd k h hr hstep hidle
  obtain ⟨hp, hv, rfl⟩ := primegen_idle (s := s.takeTurn) hr.2.1 (step_effect hstep hr).1 hidle
  obtain ⟨⟨hodd, hlen⟩, h3⟩ := decided_of_pgDecide (inv_takeTurn h) hr.2.2 hp
  rw [reg_complete, reg_setReg_same]
  exact ⟨hodd, hlen, h3 hv⟩

/-! ### The verdicts of `PTEST` (44_primegen.md R203 to R205) -/

/-- How `PTEST` ends in `IDLE`. -/
inductive Verdicts (s t : State) (rs1 : RegId) : Prop
  | small (hp : s.phase = .exec) (hx : s.reg rs1 = 2 ∨ s.reg rs1 = 3) (hv : t.verdict = .prime)
  | excluded (hp : s.phase = .exec) (hx : s.reg rs1 < 2 ∨ (3 < s.reg rs1 ∧ s.reg rs1 % 2 = 0)) (hv : t.verdict = .composite)
  | failed (hp : s.phase = .ptTrial) {a : Nat} (h2 : 2 ≤ a) (ha : a ≤ s.h.cand - 2) (hfail : ptTrial s.h.cand s.h.s s.h.t a = false)
      (hv : t.verdict = .composite)
  | passed (hp : s.phase = .ptTrial) (hv : t.verdict = .probablyPrime)

theorem verdicts_of_exec {s t : State} {rs1 : RegId} (hb : s.st = .busy) (e : exec (.ptest rs1) s = .next t) (hidle : t.st = .idle) :
    Verdicts s t rs1 := by
  simp only [exec] at e
  unfold execPtest at e
  split at e
  · next hp =>
    unfold ptestExec at e
    split at e
    · obtain rfl := Host.Outcome.next.inj e
      cases hidle
    · rcases beginTest_eq ({ s.clearCtx with h := { s.h with cand := s.reg rs1 } } : State) .ptTrial State.giveVerdict with
        ⟨hx, e'⟩ | ⟨hx, e'⟩ | ⟨h3, heven, e'⟩ | ⟨-, -, _, _, -, -, e'⟩ <;> obtain rfl := Host.Outcome.next.inj (e'.symm.trans e)
      · exact .excluded hp (.inl hx) rfl
      · exact .small hp hx rfl
      · exact .excluded hp (.inr ⟨h3, heven⟩) rfl
      · exact nomatch hb.symm.trans hidle
  · next hp =>
    rcases trialBlock_idle hb e hidle with ⟨a, rest, h2, hle, hfail, e⟩ | ⟨rest, tmp, e⟩ <;> obtain rfl := Host.Outcome.next.inj e
    · exact .failed hp h2 hle hfail rfl
    · exact .passed hp rfl
  · cases e

theorem testOk_of_ptTrial {s : State} {rs1 : RegId} (h : s.Inv) (hd : decode s.ir = .command (.ptest rs1)) (hp : s.phase = .ptTrial) :
    s.testOk := by
  obtain ⟨-, -, hblock⟩ := h.block hd (by simp [hp]) (by simp [hp])
  simpa only [blockOk, hp] using hblock

/-- Settles O24: a prime is not excluded and fails no trial. -/
theorem primeNeverComposite : Obligations.PrimeNeverComposite := by
  refine ⟨fun x e o a hx hsplit ho h5 h2 ha => ptTrial_of_prime hx hsplit ho h5 h2 ha, ?_⟩
  intro s t rs1 h hr hexec htrial hstep hidle hv
  cases verdicts_of_exec (s := s.takeTurn) hr.2.1 (step_effect hstep hr).1 hidle with
  | small _ _ hv' | passed _ hv' => simp [hv'] at hv
  | excluded hp hx _ =>
    have hprime := hexec hp
    rcases hx with hx | ⟨h3, heven⟩
    · exact absurd hprime.two_le (Nat.not_le.2 hx)
    · have hodd := Nat.odd_iff.1 (hprime.odd_of_ne_two (by simp at h3; omega))
      simp [hodd] at heven
  | failed hp h2 ha hfail _ =>
    obtain ⟨h5, -, hsplit, ho, -⟩ := testOk_of_ptTrial h hr.2.2 hp
    rw [takeTurn_h] at ha hfail
    exact Bool.false_ne_true (hfail.symm.trans (ptTrial_of_prime (htrial hp) hsplit ho h5 h2 (by omega)))

/-- The test of 221 with the base 174 to come. -/
theorem inv_testing221 : (Tests.answers [.value 174] Tests.testing221).Inv := by
  have h : Tests.testing221.Inv := Tests.inv_block (by unfold Tests.Plain; decide +kernel) (by decide)
    (by unfold Temps.Fit; decide +kernel) (by decide +kernel) (by show State.testOk _; unfold State.testOk; decide +kernel)
  exact inv_frame h rfl

/-- Settles O25: 174 is a strong liar for 221; the verdict prime is given in `EXEC` alone. -/
theorem verdictsAreWhatTheySay : Obligations.VerdictsAreWhatTheySay := by
  refine ⟨⟨Tests.answers [.value 174] Tests.testing221, Tests.after (Tests.answers [.value 174] Tests.testing221), inv_testing221,
    by unfold Runs; decide +kernel, rfl, rfl, rfl, Tests.step_after (by decide +kernel), by decide +kernel, by decide +kernel⟩, ?_⟩
  intro s t rs1 hr hstep hidle hv
  cases verdicts_of_exec (s := s.takeTurn) hr.2.1 (step_effect hstep hr).1 hidle with
  | small hp hx => exact ⟨hp, hx⟩
  | excluded _ _ hv' | failed _ _ _ _ hv' | passed _ hv' => simp [hv'] at hv

/-! ### The end of a test (44_primegen.md R209) -/

/-- A step of `PTEST` with an acceptable base ends the test, or has passed one more trial. -/
theorem step_ptest_used {s : State} {rs1 : RegId} {u : Nat} {rest : List RngAnswer} (hr : Runs s (.ptest rs1)) (hp : s.phase = .ptTrial)
    (hrng : s.rng = .value u :: rest) (h2 : 2 ≤ u) (hle : u + 2 ≤ s.h.cand) :
    ∃ t, step s = .next t ∧ (t.st = .idle ∨ t = { s.takeTurn with rng := rest, h := { s.h with i := s.h.i + 1 } }) := by
  obtain ⟨hturn, hb, hd⟩ := hr
  have hu : u = u % 2 ^ bitlen s.h.cand := (Nat.mod_eq_of_lt (by have := lt_two_pow_bitlen s.h.cand; omega)).symm
  have hstep : step s = exec (.ptest rs1) s.takeTurn := by
    rw [step_sequencer hturn, sequencerStep_busy (s := s.takeTurn) hb, runBlock_command (s := s.takeTurn) (by simp [hp]) hd]
  rw [hstep, exec_ptest_trial (s := s.takeTurn) hp, trialBlock_used (s := s.takeTurn) hrng hu h2 hle]
  split_ifs
  · exact ⟨_, rfl, .inl rfl⟩
  · exact ⟨_, rfl, .inl rfl⟩
  · refine ⟨_, rfl, .inr ?_⟩
    rw [← hp]
    rfl

/-- Settles O26, by induction on the bases to come. -/
theorem ptestEnds : Obligations.PtestEnds := by
  intro s rs1 us rest h hb hp hd hturns hrng hus hlen
  obtain ⟨-, -, -, -, hlt⟩ := testOk_of_ptTrial h hd hp
  rw [State.roundCount] at hlt
  induction us generalizing s with
  | nil => simp only [List.length_nil] at hlen; omega
  | cons u us ih =>
    have hr : Runs s (.ptest rs1) := ⟨by rw [State.turn, hturns]; rfl, hb, hd⟩
    obtain ⟨h2, hle⟩ := hus u List.mem_cons_self
    obtain ⟨t, hstep, hidle | rfl⟩ := step_ptest_used hr hp hrng h2 hle
    · exact ⟨1, t, by omega, run_succ Sys2Proof.core hstep 0, hidle⟩
    · have ht := stepKeepsInvariant _ _ h hstep
      obtain ⟨-, -, -, -, hlt'⟩ := testOk_of_ptTrial ht hd hp
      have hturns' : s.takeTurn.turns = [] := by rw [takeTurn_turns, hturns]; rfl
      simp only [List.length_cons] at hlen
      obtain ⟨k, t, hk, hrun, hidle⟩ := ih _ ht hb hp hd hturns' rfl (fun v hv => hus v (List.mem_cons_of_mem _ hv))
        (by dsimp only [takeTurn_rounds]; omega) hlt'
      refine ⟨k + 1, t, ?_, (run_succ Sys2Proof.core hstep k).trans hrun, hidle⟩
      dsimp only [takeTurn_rounds] at hk hlt'
      omega

end Sys2Proof.Proofs.PrimeResults
end

section
/-! SUPPORT. The parameter sets with which `PRIMEGEN` and `GENKEY` never end (70_reset_and_hazards.md R332, 45_keygen.md R230): what keeps
them `BUSY` is kept by every step. -/

namespace Sys2Proof.Proofs.NeverEnding

open Sys2Proof.Machine Sys2Proof.Claims Sys2Proof.Proofs.StepEffects Sys2Proof.Proofs.StepFrame Sys2Proof.Proofs.HostStates
open Sys2Proof.Proofs.GeneratedKeys Sys2Proof.Proofs.Generators Sys2Proof.Proofs.Invariant Sys2Proof.Proofs.KeyResults
open Sys2Proof.Proofs.PrimeResults

/-- The hypotheses of the statement `CommandsThatNeverEnd`: the invariant of its runs. -/
structure Endless (i : Instr) (s : State) : Prop where
  inv : s.Inv
  busy : s.st = .busy
  command : decode s.ir = .command i
  never : NeverEnds s i
  rounds : s.rounds ≠ 0
  params : ∀ b, i = .genkey b → 2 ≤ b ∧ b ≤ s.cfg.w
  inputs : NeitherResetNorFail s

/-! ### No accepted pair of primes, no accepted candidate -/

/-- An even exponent is prime to no `p - 1`; primes of two bits are both 3. -/
theorem not_accepted_pair {e bits p q : Nat} (h : e % 2 = 0 ∨ (2 ≤ bits ∧ bits ≤ 4)) (hp : acceptedOk e (pBits bits) p)
    (hq : acceptedOk e (qBits bits) q) : q = p := by
  obtain ⟨hp2, -, hphi⟩ := range_of_accepted hp
  obtain ⟨⟨hpodd, -⟩, hp3, hgcd⟩ := hp
  rcases h with he | ⟨-, h4⟩
  · have h2 : 2 ∣ Nat.gcd e (p - 1) := Nat.dvd_gcd (by omega) (by omega)
    rw [hgcd] at h2
    exact absurd h2 (by decide)
  · rw [pBits] at hp2 hphi
    obtain rfl : bits = 4 := by omega
    obtain ⟨-, -, hqhi⟩ := range_of_accepted hq
    obtain ⟨⟨hqodd, -⟩, hq3, -⟩ := hq
    rw [qBits, pBits] at hqhi
    omega

/-- A number of one bit is below 3. -/
theorem not_decidedOk_one {s : State} (h : s.decidedOk 1) : s.h.v = .composite := by
  obtain ⟨⟨-, hlen⟩, h3⟩ := h
  by_contra hv
  have hlt : s.h.cand < 2 ^ 1 := bitlen_le_iff.1 hlen.le
  have hge := h3 hv
  omega

section Steps

variable {i : Instr} {s t : State} (h : Endless i s)
include h

theorem Endless.not_gkDerive {bits : Nat} (hi : i = .genkey bits) : s.phase ≠ .gkDerive := by
  subst hi
  intro hp
  obtain ⟨-, hpok, hqok, hne⟩ := accepted_of_gkDerive h.inv h.command hp
  exact hne (not_accepted_pair h.never hpok hqok)

/-- What the invariant of the run speaks of is kept. -/
theorem Endless.of_same (hinv : t.Inv) (hst : t.st = .busy) (hx : t.x = s.x) (hir : t.ir = s.ir) (hrounds : t.rounds = s.rounds)
    (hcfg : t.cfg = s.cfg) (hturns : ∀ a ∈ t.turns, a ∈ s.turns) (hrng : ∀ a ∈ t.rng, a ∈ s.rng) : Endless i t where
  inv := hinv
  busy := hst
  command := hir ▸ h.command
  never := by
    have hreg : t.reg 1 = s.reg 1 := by rw [State.reg, State.reg, hx]
    have hnever := h.never
    unfold NeverEnds at *
    rwa [hreg]
  rounds := hrounds ▸ h.rounds
  params := hcfg ▸ h.params
  inputs := ⟨fun a ha => h.inputs.1 a (hturns a ha), fun a ha => h.inputs.2 a (hrng a ha)⟩

theorem Endless.takeTurn : Endless i s.takeTurn :=
  h.of_same (inv_takeTurn h.inv) h.busy rfl rfl rfl rfl (fun _ => List.mem_of_mem_tail) fun _ => id

/-- The host cannot stop a `BUSY` block. -/
theorem Endless.hostAccess (a : HostAccess) : Endless i (s.hostAccess a) := by
  have hinv := inv_hostAccess h.inv a
  have heffect := hostAccess_effect s a
  generalize s.hostAccess a = t at heffect hinv
  cases heffect with
  | answers => exact h.of_same hinv h.busy rfl rfl rfl rfl (fun _ => id) fun _ => id
  | writes a v ha hw hc =>
    rcases accepted_of_busy_or_fatal (.inl h.busy) hc with e | e <;> rw [e] at hinv ⊢ <;>
      exact h.of_same hinv h.busy rfl rfl rfl rfl (fun _ => id) fun _ => id

/-- The parameters pass the checks of `EXEC`. -/
theorem Endless.not_raised {c : Cause} {info : BitVec 8} (hp : s.phase = .exec) : exec i s ≠ .next (s.raise c info) := by
  intro e
  have h0 : s.roundCount ≠ 0 := (roundCount_eq_zero_iff s).not.2 h.rounds
  have hchecks {ok : Bool} {first : Phase} (hok : ok = true) (e : s.checkGenerator ok first = .next (s.raise c info)) : False := by
    have hst := h.busy
    rcases checkGenerator_cases e with ⟨hno, -⟩ | ⟨-, hno, -⟩ | ⟨-, -, e⟩
    · simp [hok] at hno
    · exact h0 hno
    · have hraised := congrArg State.st e
      cases hc : c.isFatal <;> simp [hc, hst] at hraised
  have hw : 1 ≤ s.cfg.w := by
    have hmin := h.inv.cfg_ok.1
    rw [Config.w]
    omega
  have hnever := h.never
  cases i with
  | primegen rd k =>
    obtain rfl : k = 1 := hnever
    simp only [exec, execPrimegen, hp] at e
    exact hchecks (decide_eq_true ⟨le_rfl, hw⟩) e
  | genkey bits =>
    simp only [exec, execGenkey, hp] at e
    exact hchecks (decide_eq_true (h.params bits rfl)) e
  | _ => exact hnever

/-- A step of the command goes on. -/
theorem Endless.exec (e : exec i s = .next t) : Endless i t := by
  have hinv := inv_exec h.inv h.busy h.command e
  have hnever := h.never
  have heffect : Effect i s (.next t) := e ▸ exec_effect s i
  cases heffect with
  | waits => exact h
  | goesOn _ hr =>
    refine h.of_same hinv h.busy rfl rfl rfl rfl (fun _ => id) fun a ha => ?_
    rcases hr with ⟨-, rfl⟩ | ⟨-, u, hr⟩
    · exact ha
    · rw [hr]
      exact List.mem_cons_of_mem _ ha
  | entropyFails _ hr => exact absurd rfl (h.inputs.2 .fail (by rw [hr]; exact List.mem_cons_self))
  | faults _ hp =>
    have hm : multiStep i = true := by
      cases i with
      | primegen | genkey => rfl
      | _ => exact hnever.elim
    exact absurd e (h.not_raised (hp hm))
  | keyFails hi hp | commits hi hp => exact absurd hp (h.not_gkDerive hi)
  | delivers hdest =>
    cases i with
    | primegen rd k =>
      obtain rfl : k = 1 := hnever
      obtain ⟨hp, hv, -⟩ := primegen_idle h.busy e rfl
      exact absurd (not_decidedOk_one (decided_of_pgDecide h.inv h.command hp)) hv
    | genkey => cases hdest
    | _ => exact hnever.elim
  | nop hi | compares hi | loadsContext hi | givesVerdict hi | encodes hi | decodes hi =>
    subst hi
    exact hnever.elim

theorem Endless.step (hstep : step s = .next t) : Endless i t := by
  rcases step_cases hstep with ⟨a, -, rfl⟩ | ⟨hreset, -⟩ | ⟨hturn, -⟩
  · exact h.takeTurn.hostAccess a
  · rw [State.turn] at hreset
    cases hturns : s.turns with
    | nil => simp [hturns] at hreset
    | cons a rest =>
      rw [hturns, List.headD_cons] at hreset
      exact absurd hreset (h.inputs.1 a (by rw [hturns]; exact List.mem_cons_self))
  · exact h.takeTurn.exec (step_effect hstep ⟨hturn, h.busy, h.command⟩).1

end Steps

/-- Settles O33: each step answers, and keeps what keeps the command going. -/
theorem commandsThatNeverEnd : Obligations.CommandsThatNeverEnd := by
  intro s i hinv hb hd hnever hrounds hparams hinputs k
  have h : Endless i s := ⟨hinv, hb, hd, hnever, hrounds, hparams, hinputs⟩
  clear hinv hb hd hnever hrounds hparams hinputs
  induction k generalizing s with
  | zero => exact ⟨s, rfl, h.busy⟩
  | succ k ih =>
    obtain ⟨t, hstep⟩ := step_next h.inv
    obtain ⟨u, hrun, hbusy⟩ := ih t (h.step hstep)
    exact ⟨u, (run_succ Sys2Proof.core hstep k).trans hrun, hbusy⟩

end Sys2Proof.Proofs.NeverEnding
end
